-- ==== Sys2Proof/Word.lean ====
section
/-! DEFINITION. The bit-vector and array shapes of `blake2s_parameter_block_encoder` (00_scope.md R7, R151):
bytes, 32-bit words, the 64-bit counter, the 64-byte block and the eight-word chaining state. -/

namespace Sys2Proof

/-- A byte (R7). -/
abbrev Byte := BitVec 8

/-- A word is 32 bits (R7). -/
abbrev Word := BitVec 32

/-- The 64-bit counter value `T` (R22). -/
abbrev Counter := BitVec 64

/-- The 64 bytes of one block, byte 0 first (R25, R155). -/
abbrev Block := Vector Byte 64

/-- The eight words of the chaining state, `h[0]` first (R21). -/
abbrev Chain := Vector Word 8

/-- The 32 bytes of a parameter block, byte 0 first (R70). -/
abbrev ParamBlock := Vector Byte 32

/-- The value operand of a host write, and the value a host read returns: an unsigned number, which the write truncates to
the width of the register it goes to (44_host_operations.md R179; notes/assumptions/3.md). -/
abbrev HostValue := Nat

end Sys2Proof
end

