-- ==== Sys2Proof/Config.lean ====
section
/-! DEFINITION. What an implementation fixes (00_scope.md R5: the widths `AW` and `LENW`, the fixed sizes, the
parameters `IV` and `F`)
and the free values, which the spec leaves open (10_state.md R36, 70_reset_and_hazards.md R221, R222): opaque constants
without a body, so that no proof can see what they are. -/

namespace Sys2Proof.Config

/-- The two widths the spec leaves OPEN and the model takes as an argument (R5, D2, U16): `aw` is `AW`, the width in bits of a
host memory address and of a pointer register; `lenw` is `LENW`, the width of a length register, of NINT and of SPAN, with
`8 <= LENW <= 64`. Everything whose shape depends on a width takes a `Widths`. -/
structure Widths where
  aw : Nat
  lenw : Nat
  lenw_ge : 8 ≤ lenw
  lenw_le : lenw ≤ 64
  deriving DecidableEq, Repr

/-- The spec's defaults, `AW` = 32 and `LENW` = 32 (R5). DESIGN CHOICE (notes/assumptions/1.md): where no `Widths` is given the
default is meant, as in the machine behind the host's interface. -/
abbrev defaultWidths : Widths where
  aw := 32
  lenw := 32
  lenw_ge := by decide
  lenw_le := by decide

/-- `BLOCK`, the block size in bytes (R5). -/
def blockBytes : Nat := 64

/-- `OUTMAX`, the largest digest length in bytes (R5). -/
def outMax : Nat := 32

/-- `KEYMAX`, the largest key length in bytes (R5). -/
def keyMax : Nat := 32

/-- `SALTMAX`, the size of the salt field in bytes (R5). -/
def saltMax : Nat := 8

/-- `PERSMAX`, the size of the personalization field in bytes (R5). -/
def persMax : Nat := 8

/-- The two parameters of the hardware that are functions or constants (R5, R111, R151): the eight `IV` words and the
single-block compression function `F(h, blk, T, f0, f1)`. Everything that uses them takes a `Params`, so that a claim can
be made for every `IV` and `F` (R160); the machine behind the host's interface runs with `Sys2Proof.Machine.params`, the
spec's defaults. -/
structure Params where
  iv : Chain
  compress : Chain → Block → Counter → Word → Word → Chain

/-- What a byte of host memory that nothing has written reads as. DESIGN CHOICE (notes/assumptions/5.md): the spec gives
host memory no initial contents (R36, R51). -/
abbrev unlistedByte : Byte := 0#8

/-! The free values. The argument counts the resets: each reset draws values of its own (notes/assumptions/2.md). -/

/-- `h[0..7]` after the n-th reset: unspecified (R36, R221, U10). -/
opaque freeChain : Nat → Chain

/-- `t[0]` after the n-th reset: unspecified (R36, R221, U10). -/
opaque freeT0 : Nat → Word

/-- `t[1]` after the n-th reset: unspecified (R36, R221, U10). -/
opaque freeT1 : Nat → Word

/-- `f[0]` after the n-th reset: unspecified (R36, R221, U10). -/
opaque freeF0 : Nat → Word

/-- `f[1]` after the n-th reset: unspecified (R36, R221, U10). -/
opaque freeF1 : Nat → Word

/-- `NINT` after the n-th reset: unspecified (R36, R221, U10). -/
opaque freeNint (W : Widths) : Nat → BitVec W.lenw

/-- `SPAN` after the n-th reset: unspecified (R36, R221, U10). -/
opaque freeSpan (W : Widths) : Nat → BitVec W.lenw

/-- `TAILLEN` after the n-th reset: unspecified (R36, R221, U10). -/
opaque freeTaillen : Nat → BitVec 7

/-- Which bytes of the output range a BF.DIGEST had written when the n-th reset fell inside it: bit `i` for byte `i`
(R222, U11: each byte is either its old value or the digest byte). -/
opaque freeDigestMask : Nat → BitVec 32

end Sys2Proof.Config
end

