-- ==== Sys2Proof/Syntax.lean ====
section
/-! DEFINITION. The syntax: one constructor of `Instr` per row of spec/opcode_table.json (30_encoding.md R79, R80, R83, R84),
and `Code`, the encoded forms the three ports of the hardware carry (R78, R79, R80). -/

namespace Sys2Proof

/-- The rows of the opcode table, in the table's order. The twenty SEQ rows have no operand (R83). The host's rows carry the
values the host writes; a value wider than its register is truncated by the write (R179), not by the syntax. -/
inductive Instr
  | idle
  | valid
  | pbZero
  | pbHdr
  | pbSalt
  | pbPers
  | siXoriv
  | siClrtf
  | bfKeyld
  | bfKeyfin
  | bfKeycmp
  | bfWipe
  | bfSplit
  | bfTailld
  | bfIntcmp
  | bfSetfin
  | bfTailcmp
  | bfDigest
  | done
  | error
  | start
  | hashEx (out hashlen data datalen key keylen salt saltlen pers perslen : HostValue)
  | hash (out hashlen data datalen key keylen : HostValue)
  | wr (r : BitVec 4) (value : HostValue)
  | rdStatus
  deriving DecidableEq, Repr

/-- An encoded operation, by the format that carries it (R78, R79, R80, R84):
`seq` is the 5-bit value of PHASE (format SEQ);
`command` is the 8-bit code written to CMD (format CMD), with the operand list the line is written with: none for START,
ten for HASH_EX, six for HASH (R171, R172, R84);
`regWrite` is a host write of a register number and a value (format REGW);
`regRead` is a host read of a register number (format REGR). -/
inductive Code
  | seq (sel : BitVec 5)
  | command (code : BitVec 8) (operands : List HostValue)
  | regWrite (r : BitVec 4) (value : HostValue)
  | regRead (r : BitVec 4)
  deriving DecidableEq, Repr

end Sys2Proof
end

