-- ==== Sys2Proof/WellFormed.lean ====
section
/-! DEFINITION. Which instructions are well formed: the one check the syntax leaves open is that WR names a descriptor
register, number 0 to 9 (30_encoding.md R78, 44_host_operations.md R179, opcode_table.json row WR: `r <= 9`). -/

namespace Sys2Proof

/-- Every constructor is listed. -/
def Instr.wellFormed : Instr → Bool
  | .wr r _ => r.toNat ≤ 9
  | .idle | .valid | .pbZero | .pbHdr | .pbSalt | .pbPers | .siXoriv | .siClrtf => true
  | .bfKeyld | .bfKeyfin | .bfKeycmp | .bfWipe | .bfSplit | .bfTailld | .bfIntcmp | .bfSetfin | .bfTailcmp | .bfDigest => true
  | .done | .error | .start => true
  | .hashEx _ _ _ _ _ _ _ _ _ _ => true
  | .hash _ _ _ _ _ _ => true
  | .rdStatus => true

end Sys2Proof
end

