-- ==== Sys2Proof/Decode.lean ====
section
/-! DEFINITION. Decoding, total and rejecting by name, and the encoder, both written from the encoding tables of
30_encoding.md: R80 (the PHASE selector), R79 (the command code), R78 (register numbers), R81 (what is reserved). -/

namespace Sys2Proof

/-- Why a code is refused. -/
inductive DecodeError
  /-- PHASE values 20 to 31 (R81 (c), U13). -/
  | reservedSelector (sel : BitVec 5)
  /-- A write to CMD of a code other than 0x01 (R81 (a), U3). -/
  | reservedCommand (value : HostValue)
  /-- Code 0x01 with an operand list that is neither START's, HASH's nor HASH_EX's (R84). -/
  | badOperandCount (count : Nat)
  /-- A host write to STATUS, register 11 (R81 (e), U12). -/
  | writeToStatus
  /-- Register numbers 12 and above do not exist (R81 (d), U12). -/
  | noSuchRegister (r : BitVec 4)
  /-- A host read of a register other than STATUS: not a row of the table; the step answers it by the read-back of
  R34 and R37. -/
  | plainRegisterRead (r : BitVec 4)
  deriving DecidableEq, Repr

/-- Format SEQ: the table of R80. -/
def decodeSelector (sel : BitVec 5) : Except DecodeError Instr :=
  match sel.toNat with
  | 0 => .ok .idle
  | 1 => .ok .valid
  | 2 => .ok .pbZero
  | 3 => .ok .pbHdr
  | 4 => .ok .pbSalt
  | 5 => .ok .pbPers
  | 6 => .ok .siXoriv
  | 7 => .ok .siClrtf
  | 8 => .ok .bfKeyld
  | 9 => .ok .bfKeyfin
  | 10 => .ok .bfKeycmp
  | 11 => .ok .bfWipe
  | 12 => .ok .bfSplit
  | 13 => .ok .bfTailld
  | 14 => .ok .bfIntcmp
  | 15 => .ok .bfSetfin
  | 16 => .ok .bfTailcmp
  | 17 => .ok .bfDigest
  | 18 => .ok .done
  | 19 => .ok .error
  | _ => .error (.reservedSelector sel)

/-- Format CMD: the table of R79 with the spellings of R84. -/
def decodeCommand (code : BitVec 8) (operands : List HostValue) : Except DecodeError Instr :=
  if code = 0x01#8 then
    match operands with
    | [] => .ok .start
    | [out, hashlen, data, datalen, key, keylen] => .ok (.hash out hashlen data datalen key keylen)
    | [out, hashlen, data, datalen, key, keylen, salt, saltlen, pers, perslen] =>
      .ok (.hashEx out hashlen data datalen key keylen salt saltlen pers perslen)
    | other => .error (.badOperandCount other.length)
  else .error (.reservedCommand code.toNat)

/-- Format REGW: a write of a register by number (R78, R81). Register 10 is CMD, where only the value 0x01 has a
meaning (R34). -/
def decodeWrite (r : BitVec 4) (value : HostValue) : Except DecodeError Instr :=
  if r.toNat ≤ 9 then .ok (.wr r value)
  else if r.toNat = 10 then
    if value = 0x01 then .ok .start else .error (.reservedCommand value)
  else if r.toNat = 11 then .error .writeToStatus
  else .error (.noSuchRegister r)

/-- Format REGR: a read of a register by number; the table's only row is STATUS, number 11 (R32). -/
def decodeRead (r : BitVec 4) : Except DecodeError Instr :=
  if r.toNat = 11 then .ok .rdStatus
  else if r.toNat ≤ 10 then .error (.plainRegisterRead r)
  else .error (.noSuchRegister r)

/-- The decoder, total on every code of every port. -/
def decode : Code → Except DecodeError Instr
  | .seq sel => decodeSelector sel
  | .command code operands => decodeCommand code operands
  | .regWrite r value => decodeWrite r value
  | .regRead r => decodeRead r

/-- The encoder, from the same tables (R78, R79, R80, R84). -/
def encode : Instr → Code
  | .idle => .seq 0b00000#5
  | .valid => .seq 0b00001#5
  | .pbZero => .seq 0b00010#5
  | .pbHdr => .seq 0b00011#5
  | .pbSalt => .seq 0b00100#5
  | .pbPers => .seq 0b00101#5
  | .siXoriv => .seq 0b00110#5
  | .siClrtf => .seq 0b00111#5
  | .bfKeyld => .seq 0b01000#5
  | .bfKeyfin => .seq 0b01001#5
  | .bfKeycmp => .seq 0b01010#5
  | .bfWipe => .seq 0b01011#5
  | .bfSplit => .seq 0b01100#5
  | .bfTailld => .seq 0b01101#5
  | .bfIntcmp => .seq 0b01110#5
  | .bfSetfin => .seq 0b01111#5
  | .bfTailcmp => .seq 0b10000#5
  | .bfDigest => .seq 0b10001#5
  | .done => .seq 0b10010#5
  | .error => .seq 0b10011#5
  | .start => .command 0x01#8 []
  | .hashEx out hashlen data datalen key keylen salt saltlen pers perslen =>
    .command 0x01#8 [out, hashlen, data, datalen, key, keylen, salt, saltlen, pers, perslen]
  | .hash out hashlen data datalen key keylen => .command 0x01#8 [out, hashlen, data, datalen, key, keylen]
  | .wr r value => .regWrite r value
  | .rdStatus => .regRead 0b1011#4

/-- The code an opcode-table word stands for. The table's three kinds of row travel on three ports and their numbers
overlap (0x01 is VALID, START, HASH_EX and HASH; 0x00 is IDLE and WR; 0x0B is BF.WIPE and RD_STATUS), so a word without
its port is read as follows (notes/assumptions/4.md): five or eight bits below 0x20 are a PHASE selector, four bits are a register
number (11 a read of STATUS, any other a write with the value operand 0), eight bits from 0x20 on a command code. -/
def tableCode (nbits w : Nat) : Option Code :=
  if nbits = 4 then
    if w < 16 then some (if w = 11 then .regRead (BitVec.ofNat 4 w) else .regWrite (BitVec.ofNat 4 w) 0) else none
  else if nbits = 5 ∨ nbits = 8 then
    if w < 32 then some (.seq (BitVec.ofNat 5 w))
    else if nbits = 8 ∧ w < 256 then some (.command (BitVec.ofNat 8 w) [])
    else none
  else none

/-- The instruction the decoder reads from a word of the opcode table. -/
def decodeTableWord (nbits w : Nat) : Option Instr :=
  match tableCode nbits w with
  | some c =>
    match decode c with
    | .ok i => some i
    | .error _ => none
  | none => none

end Sys2Proof
end

