-- ==== Sys2Proof/Machine/State.lean ====
section
/-! DEFINITION. The state of one CORE instance as 10_state.md R20 lists it, the host memory and the host's pending moves
beside it (00_scope.md R6, 20_memory.md R51), why a step can stop, and the state after reset (10_state.md R36). -/

namespace Sys2Proof.Machine

open Sys2Proof.Config

/-- `PHASE`, the sequencer position, as an enumeration of its twenty values (R30, R80, R81 (c), U13). -/
inductive Phase
  | idle
  | valid
  | pbZero
  | pbHdr
  | pbSalt
  | pbPers
  | siXoriv
  | siClrtf
  | bfKeyld
  | bfKeyfin
  | bfKeycmp
  | bfWipe
  | bfSplit
  | bfTailld
  | bfIntcmp
  | bfSetfin
  | bfTailcmp
  | bfDigest
  | done
  | error
  deriving DecidableEq, Repr

/-- The six error kinds `ERR` can record (R191); `none` is code 0, and code 7 does not exist (R31, U13). -/
inductive ErrorKind
  | invalidDigestLength
  | invalidKeyLength
  | invalidSaltLength
  | invalidPersonalizationLength
  | nullBufferWithNonzeroLength
  | emptyUnkeyedInput
  deriving DecidableEq, Repr

/-- The ten descriptor registers, in the order of their numbers (R33, R78), for any widths. -/
structure Descriptor (W : Widths := defaultWidths) where
  outPtr : BitVec W.aw
  hashlen : BitVec W.lenw
  dataPtr : BitVec W.aw
  datalen : BitVec W.lenw
  keyPtr : BitVec W.aw
  keylen : BitVec W.lenw
  saltPtr : BitVec W.aw
  saltlen : BitVec W.lenw
  persPtr : BitVec W.aw
  perslen : BitVec W.lenw
  deriving DecidableEq, Repr

/-- A stretch of addresses, `base` to `base + size - 1`. -/
structure Region where
  base : Nat
  size : Nat
  deriving DecidableEq, Repr

/-- Host memory as a list of address and byte pairs in one canonical form (`Memory.wf`): addresses strictly rising and
below `2^AW`, no entry equal to what an unlisted address reads as. -/
abbrev Memory := List Host.Cell

/-- What the outside world can do next (R6, R83, R62, R220). The first three go through the register interface and are
decoded; `wait` is the host line WAIT of R83; `core` hands one step to the CORE; `load` and `store` are the host's (or any
other agent's) accesses to host memory, which the host owns; `reset` is the reset event. -/
inductive HostMove
  | write (r : BitVec 4) (value : HostValue)
  | command (code : BitVec 8) (operands : List HostValue)
  | read (r : BitVec 4)
  | wait
  | core
  | load (address : Nat)
  | store (address : Nat) (value : Byte)
  | reset
  deriving DecidableEq, Repr

/-- The machine, for any widths `AW` and `LENW` (R35: parameters, not state); `State` alone is the machine with the spec's
defaults. The first eleven fields are the CORE's (R20); `mem` and `absent` are its environment's memory (R51: host
memory, and which addresses the platform does not populate); `script`, `hostRead` and `freeCount` are the model's own: the
host's pending moves oldest first, the value its last read returned, and how many resets have drawn free values. -/
structure State (W : Widths := defaultWidths) where
  h : Chain
  t0 : Word
  t1 : Word
  f0 : Word
  f1 : Word
  buf : Block
  nint : BitVec W.lenw
  span : BitVec W.lenw
  taillen : BitVec 7
  phase : Phase
  err : Option ErrorKind
  desc : Descriptor W
  mem : Memory
  absent : List Region
  script : List HostMove
  hostRead : HostValue
  freeCount : Nat
  deriving DecidableEq, Repr

/-- Where the machine is stuck. -/
inductive Fault
  /-- An access to an address the platform does not populate: raised by PB.SALT, PB.PERS, BF.KEYLD, BF.TAILLD, BF.INTCMP,
  BF.DIGEST and by the host's own loads and stores. R59, U7: "a model gives no step to an access outside `HM`'s domain (the
  CORE is stuck)". Safe: the spec gives the access no effect. -/
  | accessOutsideMemory
  deriving DecidableEq, Repr

/-- What has no meaning. -/
inductive Refusal
  /-- An instruction that has no meaning in this model yet, by mnemonic (raised by Dispatch only). Safe. -/
  | notModelled (mnemonic : String)
  /-- A code the decoder refuses (R81; raised by the step). Safe: the spec gives it no meaning. -/
  | undecodable (e : DecodeError)
  /-- START while busy (R81 (b), R171, U4; raised by START). Safe: "no meaning (refused)". -/
  | startWhileBusy
  /-- A descriptor write while busy (R179, R226, U5; raised by WR, HASH, HASH_EX). Safe: the spec gives it no meaning. -/
  | descriptorWriteWhileBusy
  /-- An ill-formed WR, of a register that is not a descriptor register (R78; raised by WR). Safe: no decoder yields it. -/
  | notADescriptorRegister (r : BitVec 4)
  /-- A read of a register number that does not exist (R81 (d), U12; raised by the host read). Safe. -/
  | noSuchRegister (r : BitVec 4)
  /-- The encoder run outside its preconditions (R97, U1: "refuse"; raised by PB.HDR, PB.SALT, PB.PERS). Safe: no run that
  went through VALID reaches it. -/
  | encoderOutsideContract
  /-- The feeder run outside its preconditions (R137, U2: "refuse"; raised by BF.KEYLD, BF.SPLIT, BF.TAILLD). Safe: no run
  that went through VALID reaches it. -/
  | feederOutsideContract
  /-- BF.DIGEST with HASHLEN above 32, where `h[i div 4]` does not exist (R130; raised by BF.DIGEST). Safe: as above. -/
  | digestOutsideContract
  /-- A declared range that wraps past `2^AW` (R59, U7: "refuse the wrapping address"; raised by every operation that
  accesses host memory). Safe: the spec gives the invocation no meaning. -/
  | wrappingRange
  /-- A host load or store at or above `2^AW`: no such address (R50 (a); raised by the host's loads and stores). Safe. -/
  | noSuchAddress
  /-- While busy, another agent writes a declared range or reads the output range (R62, R225, U6; raised by the host's loads
  and stores). Safe: "refuse (no such move)". -/
  | ownedRangeTouched
  deriving DecidableEq, Repr

/-- The state after the first reset (R36): PHASE = IDLE, ERR = 0, `buf` and the descriptor zero; `h`, `t`, `f`, `NINT`, `SPAN`,
`TAILLEN` unspecified, hence free values (R221); host memory with nothing listed; no host move pending. -/
def State.resetAt (W : Widths) : State W where
  h := freeChain 0
  t0 := freeT0 0
  t1 := freeT1 0
  f0 := freeF0 0
  f1 := freeF1 0
  buf := Vector.replicate 64 0#8
  nint := freeNint W 0
  span := freeSpan W 0
  taillen := freeTaillen 0
  phase := .idle
  err := none
  desc :=
    { outPtr := 0, hashlen := 0, dataPtr := 0, datalen := 0, keyPtr := 0, keylen := 0, saltPtr := 0, saltlen := 0,
      persPtr := 0, perslen := 0 }
  mem := []
  absent := []
  script := []
  hostRead := 0
  freeCount := 1

/-- The state after reset of the machine with the spec's default widths. -/
def State.reset : State := State.resetAt defaultWidths

end Sys2Proof.Machine
end

