-- ==== Sys2Proof/Machine/Operands.lean ====
section
/-! DEFINITION. The operand forms (00_scope.md R7 to R9, 10_state.md R33): bytes of words, words of bytes, the byte view of
eight words, blocks padded with zeros, and the descriptor registers by number. -/

namespace Sys2Proof.Machine

open Sys2Proof.Config

variable {W : Widths}

/-- `byte_k(w) = w[8k+7 : 8k]` (R8). -/
def byteOf (k : Nat) (w : Word) : Byte := (w >>> (8 * k)).setWidth 8

/-- `LE32(b0, b1, b2, b3)`, `b0` at the lowest position (R8). -/
def le32 (b0 b1 b2 b3 : Byte) : Word :=
  b0.setWidth 32 ||| (b1.setWidth 32 <<< 8) ||| (b2.setWidth 32 <<< 16) ||| (b3.setWidth 32 <<< 24)

/-- `w` with its byte `k` replaced and the other 24 bits unchanged (R9). -/
def replaceByte (w : Word) (k : Nat) (v : Byte) : Word :=
  (w &&& ~~~(0xFF#32 <<< (8 * k))) ||| (v.setWidth 32 <<< (8 * k))

/-- Byte `j` of the byte view of eight words, `B[j] = byte_(j mod 4)(w[j div 4])` (R8); there is no byte 32, and the zero
given there is never used. -/
def byteAt (h : Chain) (j : Nat) : Byte := byteOf (j % 4) (h[j / 4]?.getD 0#32)

/-- `Pb[j] <- v` (R9); nothing for `j` above 31, which no operation writes. -/
def setPb (h : Chain) (j : Nat) (v : Byte) : Chain :=
  h.setIfInBounds (j / 4) (replaceByte (h[j / 4]?.getD 0#32) (j % 4) v)

/-- `Pb[off + k] <- bs[k]`, `k` ascending (R93, R94). -/
def writePb (h : Chain) (off : Nat) : List Byte → Chain
  | [] => h
  | b :: bs => writePb (setPb h off b) (off + 1) bs

/-- The bytes followed by zeros up to 64 (R121, R126, R131 `pad64`). -/
def pad64 (bs : List Byte) : Block := Vector.ofFn fun i => bs.getD i.val 0#8

/-- A block of 64 zero bytes (R124). -/
def zeroBlock : Block := Vector.replicate 64 0#8

/-- A host write of descriptor register `r`, truncated to the register's width (R179); `none` when `r` is not the number
of a descriptor register. -/
def Descriptor.write (d : Descriptor W) (r : BitVec 4) (v : HostValue) : Option (Descriptor W) :=
  match r.toNat with
  | 0 => some { d with outPtr := BitVec.ofNat W.aw v }
  | 1 => some { d with hashlen := BitVec.ofNat W.lenw v }
  | 2 => some { d with dataPtr := BitVec.ofNat W.aw v }
  | 3 => some { d with datalen := BitVec.ofNat W.lenw v }
  | 4 => some { d with keyPtr := BitVec.ofNat W.aw v }
  | 5 => some { d with keylen := BitVec.ofNat W.lenw v }
  | 6 => some { d with saltPtr := BitVec.ofNat W.aw v }
  | 7 => some { d with saltlen := BitVec.ofNat W.lenw v }
  | 8 => some { d with persPtr := BitVec.ofNat W.aw v }
  | 9 => some { d with perslen := BitVec.ofNat W.lenw v }
  | _ => none

/-- What a host read of descriptor register `r` returns (R37: the host can read the descriptor back). -/
def Descriptor.read (d : Descriptor W) (r : BitVec 4) : Option HostValue :=
  match r.toNat with
  | 0 => some d.outPtr.toNat
  | 1 => some d.hashlen.toNat
  | 2 => some d.dataPtr.toNat
  | 3 => some d.datalen.toNat
  | 4 => some d.keyPtr.toNat
  | 5 => some d.keylen.toNat
  | 6 => some d.saltPtr.toNat
  | 7 => some d.saltlen.toNat
  | 8 => some d.persPtr.toNat
  | 9 => some d.perslen.toNat
  | _ => none

/-- The four input ranges of the descriptor as (first address, length) (R51). -/
def Descriptor.inputRanges (d : Descriptor W) : List (Nat × Nat) :=
  [(d.saltPtr.toNat, d.saltlen.toNat), (d.persPtr.toNat, d.perslen.toNat), (d.keyPtr.toNat, d.keylen.toNat),
    (d.dataPtr.toNat, d.datalen.toNat)]

/-- The output range of the descriptor (R51). -/
def Descriptor.outputRange (d : Descriptor W) : Nat × Nat := (d.outPtr.toNat, d.hashlen.toNat)

/-- Whether address `a` lies in the range of `r.2` bytes from `r.1`. -/
def inRange (a : Nat) (r : Nat × Nat) : Bool := r.1 ≤ a && a < r.1 + r.2

end Sys2Proof.Machine
end

