-- ==== Sys2Proof/Machine/Flags.lean ====
section
/-! DEFINITION. The flags and the status (10_state.md R22, R23, R30 to R32): the finalization flags, the counter pair as one
64-bit value, the PHASE numbers, the ERR codes, `busy` and STATUS. The hardware has no other flag or condition code (R23). -/

namespace Sys2Proof.Machine

open Sys2Proof.Config

variable {W : Widths}

/-- All-ones, the set value of `f[0]` (R23). -/
def allOnes : Word := 0xFFFFFFFF#32

/-- Set the finalization flag: `f[0] <- 0xFFFFFFFF`, `f[1]` unchanged (R122, R128). -/
def setFinal (s : State W) : State W := { s with f0 := allOnes }

/-- Zero the two counter words and the two flag words (R113). -/
def clearCounterAndFlags (s : State W) : State W := { s with t0 := 0#32, t1 := 0#32, f0 := 0#32, f1 := 0#32 }

/-- `T = t[1] * 2^32 + t[0]` (R22). -/
def State.counter (s : State W) : Counter := s.t1 ++ s.t0

/-- `T <- v` writes both halves (R22). -/
def setCounter (v : Counter) (s : State W) : State W := { s with t0 := v.extractLsb' 0 32, t1 := v.extractLsb' 32 32 }

/-- The number of a PHASE value, which is its selector (R30, R80). -/
def Phase.selector : Phase → BitVec 5
  | .idle => 0#5
  | .valid => 1#5
  | .pbZero => 2#5
  | .pbHdr => 3#5
  | .pbSalt => 4#5
  | .pbPers => 5#5
  | .siXoriv => 6#5
  | .siClrtf => 7#5
  | .bfKeyld => 8#5
  | .bfKeyfin => 9#5
  | .bfKeycmp => 10#5
  | .bfWipe => 11#5
  | .bfSplit => 12#5
  | .bfTailld => 13#5
  | .bfIntcmp => 14#5
  | .bfSetfin => 15#5
  | .bfTailcmp => 16#5
  | .bfDigest => 17#5
  | .done => 18#5
  | .error => 19#5

/-- The PHASE value of a selector; 20 to 31 have none (R81 (c)). -/
def Phase.ofSelector (sel : BitVec 5) : Option Phase :=
  match sel.toNat with
  | 0 => some .idle
  | 1 => some .valid
  | 2 => some .pbZero
  | 3 => some .pbHdr
  | 4 => some .pbSalt
  | 5 => some .pbPers
  | 6 => some .siXoriv
  | 7 => some .siClrtf
  | 8 => some .bfKeyld
  | 9 => some .bfKeyfin
  | 10 => some .bfKeycmp
  | 11 => some .bfWipe
  | 12 => some .bfSplit
  | 13 => some .bfTailld
  | 14 => some .bfIntcmp
  | 15 => some .bfSetfin
  | 16 => some .bfTailcmp
  | 17 => some .bfDigest
  | 18 => some .done
  | 19 => some .error
  | _ => none

/-- The code of a recorded error; 0 when there is none (R31, R191). -/
def errCode : Option ErrorKind → BitVec 3
  | none => 0#3
  | some .invalidDigestLength => 1#3
  | some .invalidKeyLength => 2#3
  | some .invalidSaltLength => 3#3
  | some .invalidPersonalizationLength => 4#3
  | some .nullBufferWithNonzeroLength => 5#3
  | some .emptyUnkeyedInput => 6#3

/-- `busy` is `1 <= PHASE <= 17` (R32): neither IDLE nor DONE nor ERROR. -/
def Phase.busy : Phase → Bool
  | .idle => false
  | .done => false
  | .error => false
  | .valid => true
  | .pbZero => true
  | .pbHdr => true
  | .pbSalt => true
  | .pbPers => true
  | .siXoriv => true
  | .siClrtf => true
  | .bfKeyld => true
  | .bfKeyfin => true
  | .bfKeycmp => true
  | .bfWipe => true
  | .bfSplit => true
  | .bfTailld => true
  | .bfIntcmp => true
  | .bfSetfin => true
  | .bfTailcmp => true
  | .bfDigest => true

/-- STATUS: bits [4:0] = PHASE, bits [7:5] = ERR, bits [31:8] = 0 (R32). -/
def State.status (s : State W) : Word := 0#24 ++ errCode s.err ++ s.phase.selector

end Sys2Proof.Machine
end

