-- ==== Sys2Proof/Machine/Ops.lean ====
section
/-! DEFINITION. The shared operations: host memory byte by byte (20_memory.md R50 to R59), the range duty (R59), sequencing of
outcomes, error entry `raise` (60_exceptions.md R197) and the only way out of ERROR (R171, R200). -/

namespace Sys2Proof.Machine

open Sys2Proof.Config

variable {W : Widths}

/-- What one operation answers, at any widths. -/
abbrev Result (W : Widths := defaultWidths) := Host.Outcome (State W) Fault Refusal

/-- Go on with `k` from a next state; a fault or a refusal ends it. -/
def andThen (o : Result W) (k : State W → Result W) : Result W :=
  match o with
  | .next s => k s
  | .fault r => .fault r
  | .refused r => .refused r

/-! Host memory. -/

/-- The canonical form: addresses strictly rising and below `2^AW`, no entry equal to what an unlisted address reads as. -/
def Memory.wf (W : Widths) : Memory → Bool
  | [] => true
  | (a, b) :: m => decide (a < 2 ^ W.aw) && b != unlistedByte && m.all (fun c => decide (a < c.1)) && Memory.wf W m

/-- The byte at an address; an unlisted address reads as `Config.unlistedByte`. -/
def Memory.read : Memory → Nat → Byte
  | [], _ => unlistedByte
  | (a, b) :: m, x => if x = a then b else Memory.read m x

/-- Store a byte, keeping the canonical form: writing what an unlisted address reads as removes the entry. -/
def Memory.write : Memory → Nat → Byte → Memory
  | [], x, v => if v = unlistedByte then [] else [(x, v)]
  | (a, b) :: m, x, v =>
    if x < a then (if v = unlistedByte then (a, b) :: m else (x, v) :: (a, b) :: m)
    else if x = a then (if v = unlistedByte then m else (x, v) :: m)
    else (a, b) :: Memory.write m x v

/-- `MemRead(p + k, 1)` for `k` in `0 .. n - 1`, ascending (R52, R60). -/
def readBytes (m : Memory) (p n : Nat) : List Byte := (List.range n).map fun k => Memory.read m (p + k)

/-- `MemWrite(p + k, 1, bs[k])`, `k` ascending (R53, R60). -/
def storeBytes (m : Memory) (p : Nat) : List Byte → Memory
  | [] => m
  | b :: bs => storeBytes (Memory.write m p b) (p + 1) bs

/-- Whether the `n` bytes from `p` meet a region the platform does not populate; a range of length 0 meets nothing (R51). -/
def Region.meets (g : Region) (p n : Nat) : Bool := max p g.base < min (p + n) (g.base + g.size)

/-- No wrap past the top of the address space: `p + n <= 2^AW` (R59). -/
def inSpace (W : Widths) (p n : Nat) : Bool := decide (p + n ≤ 2 ^ W.aw)

/-- All `n` bytes from `p` exist (R59). -/
def State.rangeExists (s : State W) (p n : Nat) : Bool := s.absent.all fun g => !g.meets p n

/-- The range duty of R59 for `n` bytes from `p`. -/
def State.rangeOk (s : State W) (p n : Nat) : Bool := inSpace W p n && s.rangeExists p n

/-- Access the `n` bytes from `p` and go on with `k`: a wrapping range is refused, an access outside the memory's domain is
stuck (R59, U7). -/
def withRange (s : State W) (p n : Nat) (k : Result W) : Result W :=
  if inSpace W p n then (if s.rangeExists p n then k else .fault .accessOutsideMemory) else .refused .wrappingRange

/-! Error entry and the way out. -/

/-- `raise X`: `ERR <- code(X)`, `PHASE <- 19`, nothing else (R197). -/
def raise (k : ErrorKind) (s : State W) : State W := { s with err := some k, phase := .error }

/-- What an accepted START does: `ERR <- 0`, `PHASE <- 1` (R171); the only way out of ERROR but reset (R200). -/
def beginInvocation (s : State W) : State W := { s with err := none, phase := .valid }

/-- A host read of STATUS returns it (R32). -/
def pollStatus (s : State W) : State W := { s with hostRead := s.status.toNat }

end Sys2Proof.Machine
end

