-- ==== Sys2Proof/Machine/Compressor.lean ====
section
/-! DEFINITION. The compressor port: `Compress1` (43_compressor_port.md R152), and the default `IV` and `F` of the spec
(41_state_initializer.md R111, 43_compressor_port.md R157 to R159). PRESUMED (notes/assumptions/6.md): the spec marks both defaults
"from general knowledge, not in source". -/

namespace Sys2Proof.Machine

open Sys2Proof.Config

variable {W : Widths}

/-- The default `IV` words (R111). -/
def defaultIv : Chain :=
  #v[0x6A09E667#32, 0xBB67AE85#32, 0x3C6EF372#32, 0xA54FF53A#32, 0x510E527F#32, 0x9B05688C#32, 0x1F83D9AB#32, 0x5BE0CD19#32]

/-- The mixing function `G(a, b, c, d, x, y)` on the work words (R158). -/
def mix (v : Vector Word 16) (a b c d : Fin 16) (x y : Word) : Vector Word 16 :=
  let v := v.set a (v[a] + v[b] + x)
  let v := v.set d ((v[d] ^^^ v[a]).rotateRight 16)
  let v := v.set c (v[c] + v[d])
  let v := v.set b ((v[b] ^^^ v[c]).rotateRight 12)
  let v := v.set a (v[a] + v[b] + y)
  let v := v.set d ((v[d] ^^^ v[a]).rotateRight 8)
  let v := v.set c (v[c] + v[d])
  v.set b ((v[b] ^^^ v[c]).rotateRight 7)

/-- The message schedule `SIGMA[r][0..15]` (R159). -/
def sigma : List (Vector (Fin 16) 16) :=
  [#v[0, 1, 2, 3, 4, 5, 6, 7, 8, 9, 10, 11, 12, 13, 14, 15], #v[14, 10, 4, 8, 9, 15, 13, 6, 1, 12, 0, 2, 11, 7, 5, 3]] ++
  [#v[11, 8, 12, 0, 5, 2, 15, 13, 10, 14, 3, 6, 7, 1, 9, 4], #v[7, 9, 3, 1, 13, 12, 11, 14, 2, 6, 5, 10, 4, 0, 15, 8]] ++
  [#v[9, 0, 5, 7, 2, 4, 10, 15, 14, 1, 11, 12, 6, 8, 3, 13], #v[2, 12, 6, 10, 0, 11, 8, 3, 4, 13, 7, 5, 15, 14, 1, 9]] ++
  [#v[12, 5, 1, 15, 14, 13, 4, 10, 0, 7, 6, 3, 9, 2, 8, 11], #v[13, 11, 7, 14, 12, 1, 3, 9, 5, 0, 15, 4, 8, 6, 2, 10]] ++
  [#v[6, 15, 14, 9, 11, 3, 0, 8, 12, 2, 13, 7, 1, 4, 10, 5], #v[10, 2, 8, 4, 7, 6, 1, 5, 15, 11, 9, 14, 3, 12, 13, 0]]

/-- One round: the eight `G` calls in the order of R157. -/
def mixRound (m v : Vector Word 16) (s : Vector (Fin 16) 16) : Vector Word 16 :=
  let v := mix v 0 4 8 12 m[s[0]] m[s[1]]
  let v := mix v 1 5 9 13 m[s[2]] m[s[3]]
  let v := mix v 2 6 10 14 m[s[4]] m[s[5]]
  let v := mix v 3 7 11 15 m[s[6]] m[s[7]]
  let v := mix v 0 5 10 15 m[s[8]] m[s[9]]
  let v := mix v 1 6 11 12 m[s[10]] m[s[11]]
  let v := mix v 2 7 8 13 m[s[12]] m[s[13]]
  mix v 3 4 9 14 m[s[14]] m[s[15]]

/-- The message words of a block, little-endian (R157, R55). -/
def messageWords (blk : Block) : Vector Word 16 :=
  Vector.ofFn fun i => le32 blk[4 * i.val] blk[4 * i.val + 1] blk[4 * i.val + 2] blk[4 * i.val + 3]

/-- The reference `F(h, blk, T, f0, f1)` (R157). -/
def referenceF (h : Chain) (blk : Block) (t : Counter) (f0 f1 : Word) : Chain :=
  let m := messageWords blk
  let v : Vector Word 16 := h ++ defaultIv
  let v := v.set 12 (v[12] ^^^ t.extractLsb' 0 32)
  let v := v.set 13 (v[13] ^^^ t.extractLsb' 32 32)
  let v := v.set 14 (v[14] ^^^ f0)
  let v := v.set 15 (v[15] ^^^ f1)
  let v := sigma.foldl (mixRound m) v
  Vector.ofFn fun i => h[i] ^^^ v[i.val] ^^^ v[i.val + 8]

/-- The parameters the machine runs with: the spec's defaults (R5, D23). -/
def params : Params := { iv := defaultIv, compress := referenceF }

/-- `Compress1(blk, inc)` (R152): `T <- T +64 inc`, then `h <- F(h, blk, T, f[0], f[1])` with the counter after the
increment. -/
def compress1 (P : Params) (blk : Block) (inc : Nat) (s : State W) : State W :=
  let t := s.counter + BitVec.ofNat 64 inc
  { setCounter t s with h := P.compress s.h blk t s.f0 s.f1 }

end Sys2Proof.Machine
end

