-- ==== Sys2Proof/Machine/Validate.lean ====
section
/-! DEFINITION. VALID (44_host_operations.md R173) and the three PHASE values in which the CORE has no step: IDLE, DONE, ERROR
(10_state.md R30, 44_host_operations.md R176, 60_exceptions.md R197). -/

namespace Sys2Proof.Machine

open Sys2Proof.Config

variable {W : Widths}

/-- A pointer of 0 paired with a length greater than 0 (R196). -/
abbrev absentBuffer (ptr : BitVec W.aw) (len : BitVec W.lenw) : Prop := 0 < len.toNat ∧ ptr.toNat = 0

/-- The checks of VALID in their order; the first that fails decides (R173, R199). -/
def firstFailure (d : Descriptor W) : Option ErrorKind :=
  if d.hashlen.toNat < 1 ∨ outMax < d.hashlen.toNat then some .invalidDigestLength
  else if keyMax < d.keylen.toNat then some .invalidKeyLength
  else if saltMax < d.saltlen.toNat then some .invalidSaltLength
  else if persMax < d.perslen.toNat then some .invalidPersonalizationLength
  else if d.outPtr.toNat = 0 ∨ absentBuffer d.dataPtr d.datalen ∨ absentBuffer d.keyPtr d.keylen
      ∨ absentBuffer d.saltPtr d.saltlen ∨ absentBuffer d.persPtr d.perslen then some .nullBufferWithNonzeroLength
  else if d.keylen.toNat = 0 ∧ d.datalen.toNat = 0 then some .emptyUnkeyedInput
  else none

/-- VALID (R173): raise the first failing check's error, or go on to PB.ZERO. -/
def execValid (s : State W) : Result W :=
  match firstFailure s.desc with
  | some k => .next (raise k s)
  | none => .next { s with phase := .pbZero }

/-- IDLE: "no step; waits for START" (R30, R80). DESIGN CHOICE (notes/assumptions/7.md): waiting is a step that changes
nothing. -/
def execIdle (s : State W) : Result W := .next s

/-- DONE: "no step; invocation succeeded" (R176). As IDLE (notes/assumptions/7.md). -/
def execDone (s : State W) : Result W := .next s

/-- ERROR: "no step; invocation rejected" (R197). As IDLE (notes/assumptions/7.md). -/
def execError (s : State W) : Result W := .next s

end Sys2Proof.Machine
end

