-- ==== Sys2Proof/Machine/ParamBlock.lean ====
section
/-! DEFINITION. The parameter block encoder: PB.ZERO, PB.HDR, PB.SALT, PB.PERS (40_param_block_encoder.md R91 to R94). Outside the
ranges of R95 the encoder is refused (R97, U1). -/

namespace Sys2Proof.Machine

open Sys2Proof.Config

variable {W : Widths}

/-- PB.ZERO (R91). -/
def execPbZero (s : State W) : Result W := .next { s with h := Vector.replicate 8 0#32, phase := .pbHdr }

/-- The first word of the parameter block (R92, R73). -/
def headerWord (d : Descriptor W) : Word :=
  (d.hashlen.setWidth 8).setWidth 32 ||| ((d.keylen.setWidth 8).setWidth 32 <<< 8) ||| 0x00010000#32 ||| 0x01000000#32

/-- PB.HDR (R92). -/
def execPbHdr (s : State W) : Result W :=
  if 1 ≤ s.desc.hashlen.toNat ∧ s.desc.hashlen.toNat ≤ outMax ∧ s.desc.keylen.toNat ≤ keyMax then
    .next { s with h := s.h.set 0 (headerWord s.desc), phase := .pbSalt }
  else .refused .encoderOutsideContract

/-- PB.SALT (R93): `Pb[16+k] <- MemRead(SALT_PTR + k, 1)`. -/
def execPbSalt (s : State W) : Result W :=
  if s.desc.saltlen.toNat ≤ saltMax then
    withRange s s.desc.saltPtr.toNat s.desc.saltlen.toNat
      (.next { s with
        h := writePb s.h 16 (readBytes s.mem s.desc.saltPtr.toNat s.desc.saltlen.toNat), phase := .pbPers })
  else .refused .encoderOutsideContract

/-- PB.PERS (R94): `Pb[24+k] <- MemRead(PERS_PTR + k, 1)`. -/
def execPbPers (s : State W) : Result W :=
  if s.desc.perslen.toNat ≤ persMax then
    withRange s s.desc.persPtr.toNat s.desc.perslen.toNat
      (.next { s with
        h := writePb s.h 24 (readBytes s.mem s.desc.persPtr.toNat s.desc.perslen.toNat), phase := .siXoriv })
  else .refused .encoderOutsideContract

end Sys2Proof.Machine
end

