-- ==== Sys2Proof/Machine/StateInit.lean ====
section
/-! DEFINITION. The state initializer: SI.XORIV, SI.CLRTF (41_state_initializer.md R112, R113). -/

namespace Sys2Proof.Machine

open Sys2Proof.Config

variable {W : Widths}

/-- SI.XORIV for any `IV`: `h[i] <- h[i] xor IV[i]` (R112). -/
def siXoriv (P : Params) (s : State W) : Result W :=
  .next { s with h := Vector.ofFn fun i : Fin 8 => s.h[i] ^^^ P.iv[i], phase := .siClrtf }

/-- SI.XORIV (R112). -/
def execSiXoriv (s : State W) : Result W := siXoriv params s

/-- SI.CLRTF (R113): zero counter and flags, then enter the feeder at step 1 or step 2. -/
def execSiClrtf (s : State W) : Result W :=
  .next { clearCounterAndFlags s with phase := if s.desc.keylen.toNat ≠ 0 then .bfKeyld else .bfSplit }

end Sys2Proof.Machine
end

