-- ==== Sys2Proof/Machine/BlockFeeder.lean ====
section
/-! DEFINITION. The block feeder: BF.KEYLD to BF.DIGEST (42_block_feeder.md R121 to R130). The operations that reach the
compressor are given for any `F`; outside the feeder's contract it is refused (R137, U2). -/

namespace Sys2Proof.Machine

open Sys2Proof.Config

variable {W : Widths}

/-- BF.KEYLD (R121): the key, padded with zeros. -/
def execBfKeyld (s : State W) : Result W :=
  if s.desc.keylen.toNat ≤ keyMax then
    withRange s s.desc.keyPtr.toNat s.desc.keylen.toNat
      (.next { s with buf := pad64 (readBytes s.mem s.desc.keyPtr.toNat s.desc.keylen.toNat), phase := .bfKeyfin })
  else .refused .feederOutsideContract

/-- BF.KEYFIN (R122): finalize on the key block when there is no message. -/
def execBfKeyfin (s : State W) : Result W :=
  .next { (if s.desc.datalen.toNat = 0 then setFinal s else s) with phase := .bfKeycmp }

/-- BF.KEYCMP for any `F` (R123): the increment is 64 whatever KEYLEN is. -/
def bfKeycmp (P : Params) (s : State W) : Result W := .next { compress1 P s.buf blockBytes s with phase := .bfWipe }

/-- BF.KEYCMP (R123). -/
def execBfKeycmp (s : State W) : Result W := bfKeycmp params s

/-- BF.WIPE (R124): clear the key from the buffer, then step 2 or step 3. -/
def execBfWipe (s : State W) : Result W :=
  .next { s with buf := zeroBlock, phase := if s.desc.datalen.toNat ≠ 0 then .bfSplit else .bfDigest }

/-- BF.SPLIT (R125); with DATALEN = 0 the expression is not defined and the feeder is refused (R125 (b), R137). -/
def execBfSplit (s : State W) : Result W :=
  if s.desc.datalen.toNat = 0 then .refused .feederOutsideContract
  else
    let nint := (s.desc.datalen - 1) / 64
    let span := nint * 64
    .next { s with nint := nint, span := span, taillen := (s.desc.datalen - span).setWidth 7, phase := .bfTailld }

/-- BF.TAILLD (R126): the last TAILLEN bytes of the message, padded with zeros; there is no `buf[64]`, so a TAILLEN above 64,
which BF.SPLIT never leaves, is refused. `DATA_PTR + SPAN + i` is computed without wrap (R126 (d)). -/
def execBfTailld (s : State W) : Result W :=
  if s.taillen.toNat ≤ blockBytes then
    withRange s (s.desc.dataPtr.toNat + s.span.toNat) s.taillen.toNat
      (.next { s with
        buf := pad64 (readBytes s.mem (s.desc.dataPtr.toNat + s.span.toNat) s.taillen.toNat), phase := .bfIntcmp })
  else .refused .feederOutsideContract

/-- Compress the first `n` 64-byte blocks from `p`, in order, each with increment 64 (R127). -/
def compressInterior (P : Params) (p : Nat) : Nat → State W → State W
  | 0, s => s
  | n + 1, s => compress1 P (pad64 (readBytes s.mem (p + 64 * n) blockBytes)) blockBytes (compressInterior P p n s)

/-- BF.INTCMP for any `F` (R127): the NINT interior blocks, read straight from host memory. -/
def bfIntcmp (P : Params) (s : State W) : Result W :=
  withRange s s.desc.dataPtr.toNat (64 * s.nint.toNat)
    (.next { compressInterior P s.desc.dataPtr.toNat s.nint.toNat s with phase := .bfSetfin })

/-- BF.INTCMP (R127). -/
def execBfIntcmp (s : State W) : Result W := bfIntcmp params s

/-- BF.SETFIN (R128). -/
def execBfSetfin (s : State W) : Result W := .next { setFinal s with phase := .bfTailcmp }

/-- BF.TAILCMP for any `F` (R129): the increment is the tail length. -/
def bfTailcmp (P : Params) (s : State W) : Result W := .next { compress1 P s.buf s.taillen.toNat s with phase := .bfDigest }

/-- BF.TAILCMP (R129). -/
def execBfTailcmp (s : State W) : Result W := bfTailcmp params s

/-- The first `n` bytes of the byte view of `h` (R77, R131 `digest`). -/
def digest (h : Chain) (n : Nat) : List Byte := (List.range n).map (byteAt h)

/-- BF.DIGEST (R130): the only micro-operation that writes host memory. HASHLEN above 32 would name words that do not
exist and is refused. -/
def execBfDigest (s : State W) : Result W :=
  if s.desc.hashlen.toNat ≤ outMax then
    withRange s s.desc.outPtr.toNat s.desc.hashlen.toNat
      (.next { s with mem := storeBytes s.mem s.desc.outPtr.toNat (digest s.h s.desc.hashlen.toNat), phase := .done })
  else .refused .digestOutsideContract

end Sys2Proof.Machine
end

