-- ==== Sys2Proof/Machine/Sequencer.lean ====
section
/-! DEFINITION. The sequencer as a machine of its own, for any `IV` and `F` (00_scope.md R6, 10_state.md R30, 43_compressor_port.md
R160): one CORE step, and the host line WAIT (30_encoding.md R83) as the CORE running until it is not busy. -/

namespace Sys2Proof.Machine

open Sys2Proof.Config

variable {W : Widths}

/-- One step of the CORE: the micro-operation PHASE names (R30, R80). -/
def coreStep (P : Params) (s : State W) : Result W :=
  match s.phase with
  | .idle => execIdle s
  | .valid => execValid s
  | .pbZero => execPbZero s
  | .pbHdr => execPbHdr s
  | .pbSalt => execPbSalt s
  | .pbPers => execPbPers s
  | .siXoriv => siXoriv P s
  | .siClrtf => execSiClrtf s
  | .bfKeyld => execBfKeyld s
  | .bfKeyfin => execBfKeyfin s
  | .bfKeycmp => bfKeycmp P s
  | .bfWipe => execBfWipe s
  | .bfSplit => execBfSplit s
  | .bfTailld => execBfTailld s
  | .bfIntcmp => bfIntcmp P s
  | .bfSetfin => execBfSetfin s
  | .bfTailcmp => bfTailcmp P s
  | .bfDigest => execBfDigest s
  | .done => execDone s
  | .error => execError s

/-- WAIT (R83): the CORE runs until `busy` is false, and the last read of STATUS is returned. An invocation executes at most
17 micro-operations (R231, R232), so that many steps of fuel always end it. -/
def waitDone (P : Params) : Nat → State W → Result W
  | 0, s => .next (pollStatus s)
  | n + 1, s => if s.phase.busy then andThen (coreStep P s) (waitDone P n) else .next (pollStatus s)

/-- The largest number of micro-operations of an invocation (R231). -/
def invocationFuel : Nat := 17

end Sys2Proof.Machine
end

