-- ==== Sys2Proof/Machine/HostPort.lean ====
section
/-! DEFINITION. The host's operations: START, WR, RD STATUS and the public operations HASH and HASH_EX (44_host_operations.md R170
to R179, 30_encoding.md R83, R84), the read-back of the other registers (10_state.md R34, R37), the host's accesses to its own memory
(20_memory.md R62) and the reset event (70_reset_and_hazards.md R220 to R222). -/

namespace Sys2Proof.Machine

open Sys2Proof.Config

variable {W : Widths}

/-- The START command (R171): accepted in IDLE, DONE and ERROR, refused while busy. -/
def startInvocation (s : State W) : Result W :=
  if s.phase.busy then .refused .startWhileBusy else .next (beginInvocation s)

/-- START (R171). -/
def execStart (s : State W) : Result W := startInvocation s

/-- A host write of a descriptor register (R179): only when the CORE is not busy, truncated to the register's width,
changing nothing else. -/
def writeRegister (r : BitVec 4) (value : HostValue) (s : State W) : Result W :=
  if s.phase.busy then .refused .descriptorWriteWhileBusy
  else
    match s.desc.write r value with
    | some d => .next { s with desc := d }
    | none => .refused (.notADescriptorRegister r)

/-- WR (R179). -/
def execWr (r : BitVec 4) (value : HostValue) (s : State W) : Result W := writeRegister r value s

/-- Several WR lines, in order (R83). -/
def writeRegisters : List (BitVec 4 × HostValue) → State W → Result W
  | [], s => .next s
  | (r, v) :: ws, s => andThen (writeRegister r v s) (writeRegisters ws)

/-- RD STATUS (R32, R83): returns PHASE and ERR, changing neither. -/
def execRdStatus (s : State W) : Result W := .next (pollStatus s)

/-- A public operation, as R84 expands it: the WR lines, START, WAIT, for any `IV` and `F`. -/
def publicOperation (P : Params) (ws : List (BitVec 4 × HostValue)) (s : State W) : Result W :=
  andThen (writeRegisters ws s) fun s1 => andThen (startInvocation s1) (waitDone P invocationFuel)

/-- The ten WR lines of HASH_EX, by register number (R84, R78). -/
def hashExLines (out hashlen data datalen key keylen salt saltlen pers perslen : HostValue) : List (BitVec 4 × HostValue) :=
  [(0#4, out), (1#4, hashlen), (2#4, data), (3#4, datalen), (4#4, key), (5#4, keylen), (6#4, salt), (7#4, saltlen), (8#4, pers),
    (9#4, perslen)]

/-- HASH_EX, "hash (extended)" (R84, R170, R174): the whole invocation. -/
def execHashEx (out hashlen data datalen key keylen salt saltlen pers perslen : HostValue) (s : State W) : Result W :=
  publicOperation params (hashExLines out hashlen data datalen key keylen salt saltlen pers perslen) s

/-- The ten WR lines of HASH: salt and personalization with zero length and null pointer (R84, R172). -/
def hashLines (out hashlen data datalen key keylen : HostValue) : List (BitVec 4 × HostValue) :=
  [(0#4, out), (1#4, hashlen), (2#4, data), (3#4, datalen), (4#4, key), (5#4, keylen), (6#4, 0), (7#4, 0), (8#4, 0),
    (9#4, 0)]

/-- HASH, "hash (simple)" (R84, R172). -/
def execHash (out hashlen data datalen key keylen : HostValue) (s : State W) : Result W :=
  publicOperation params (hashLines out hashlen data datalen key keylen) s

/-- A host read of a register that is not STATUS: a descriptor register reads back (R37), CMD reads as 0 (R34, R81 (e)),
numbers 12 and above do not exist (R81 (d)). -/
def readBack (r : BitVec 4) (s : State W) : Result W :=
  match s.desc.read r with
  | some v => .next { s with hostRead := v }
  | none =>
    if r.toNat = 10 then .next { s with hostRead := 0 }
    else if r.toNat = 11 then .next (pollStatus s)
    else .refused (.noSuchRegister r)

/-- A host load of one byte of its memory; while busy the output range must not be read (R62, R225, U6). -/
def hostLoad (a : Nat) (s : State W) : Result W :=
  if 2 ^ W.aw ≤ a then .refused .noSuchAddress
  else if s.phase.busy && inRange a s.desc.outputRange then .refused .ownedRangeTouched
  else if s.rangeExists a 1 then .next { s with hostRead := (Memory.read s.mem a).toNat }
  else .fault .accessOutsideMemory

/-- A store of one byte by the host or another agent; while busy none of the five declared ranges may be written (R62,
R225, U6). -/
def hostStore (a : Nat) (v : Byte) (s : State W) : Result W :=
  if 2 ^ W.aw ≤ a then .refused .noSuchAddress
  else if s.phase.busy && (s.desc.outputRange :: s.desc.inputRanges).any (inRange a) then .refused .ownedRangeTouched
  else if s.rangeExists a 1 then .next { s with mem := Memory.write s.mem a v }
  else .fault .accessOutsideMemory

/-- The bytes of the list whose bit in the mask is set, stored at `p + k`, the others skipped. -/
def storeMasked (mask : BitVec 32) (m : Memory) (p k : Nat) : List Byte → Memory
  | [] => m
  | b :: bs => storeMasked mask (if mask.getLsbD k then Memory.write m (p + k) b else m) p (k + 1) bs

/-- What host memory holds after a reset. A reset does not touch it (R220), but a reset inside BF.DIGEST leaves each output
byte either old or written (R222, U11): which, is a free value. DESIGN CHOICE (notes/assumptions/11.md): where BF.DIGEST's output
range wraps or has a missing byte, for which R59 and U7 give no meaning, or HASHLEN is above 32 (notes/assumptions/10.md), a
reset leaves host memory wholly unchanged. -/
def memoryAfterReset (s : State W) : Memory :=
  if s.phase = .bfDigest ∧ s.desc.hashlen.toNat ≤ outMax ∧ s.rangeOk s.desc.outPtr.toNat s.desc.hashlen.toNat = true then
    storeMasked (freeDigestMask s.freeCount) s.mem s.desc.outPtr.toNat 0 (digest s.h s.desc.hashlen.toNat)
  else s.mem

/-- The reset event (R220, R36): the CORE's state as after reset, the unspecified parts drawn afresh, host memory, the
platform's map and the host's own moves kept. -/
def resetEvent (s : State W) : Result W :=
  .next { State.resetAt W with
    h := freeChain s.freeCount
    t0 := freeT0 s.freeCount
    t1 := freeT1 s.freeCount
    f0 := freeF0 s.freeCount
    f1 := freeF1 s.freeCount
    nint := freeNint W s.freeCount
    span := freeSpan W s.freeCount
    taillen := freeTaillen s.freeCount
    mem := memoryAfterReset s
    absent := s.absent
    script := s.script
    hostRead := s.hostRead
    freeCount := s.freeCount + 1 }

end Sys2Proof.Machine
end

