-- ==== Sys2Proof/Machine/Dispatch.lean ====
section
/-! DEFINITION. The dispatch: one arm per constructor of `Instr`, each one direct call of its meaning. -/

namespace Sys2Proof.Machine

def exec (i : Instr) (s : State) : Host.Outcome State Fault Refusal :=
  match i with
  | .idle => Sys2Proof.Machine.execIdle s
  | .valid => Sys2Proof.Machine.execValid s
  | .pbZero => Sys2Proof.Machine.execPbZero s
  | .pbHdr => Sys2Proof.Machine.execPbHdr s
  | .pbSalt => Sys2Proof.Machine.execPbSalt s
  | .pbPers => Sys2Proof.Machine.execPbPers s
  | .siXoriv => Sys2Proof.Machine.execSiXoriv s
  | .siClrtf => Sys2Proof.Machine.execSiClrtf s
  | .bfKeyld => Sys2Proof.Machine.execBfKeyld s
  | .bfKeyfin => Sys2Proof.Machine.execBfKeyfin s
  | .bfKeycmp => Sys2Proof.Machine.execBfKeycmp s
  | .bfWipe => Sys2Proof.Machine.execBfWipe s
  | .bfSplit => Sys2Proof.Machine.execBfSplit s
  | .bfTailld => Sys2Proof.Machine.execBfTailld s
  | .bfIntcmp => Sys2Proof.Machine.execBfIntcmp s
  | .bfSetfin => Sys2Proof.Machine.execBfSetfin s
  | .bfTailcmp => Sys2Proof.Machine.execBfTailcmp s
  | .bfDigest => Sys2Proof.Machine.execBfDigest s
  | .done => Sys2Proof.Machine.execDone s
  | .error => Sys2Proof.Machine.execError s
  | .start => Sys2Proof.Machine.execStart s
  | .hashEx out hashlen data datalen key keylen salt saltlen pers perslen => Sys2Proof.Machine.execHashEx out hashlen data datalen key keylen salt saltlen pers perslen s
  | .hash out hashlen data datalen key keylen => Sys2Proof.Machine.execHash out hashlen data datalen key keylen s
  | .wr r value => Sys2Proof.Machine.execWr r value s
  | .rdStatus => Sys2Proof.Machine.execRdStatus s

end Sys2Proof.Machine
end

