-- ==== Sys2Proof/Machine/Step.lean ====
section
/-! DEFINITION. One step of the whole: the host's oldest pending move, or, when it has none, the CORE (00_scope.md R6). -/

namespace Sys2Proof.Machine

open Sys2Proof.Config

/-- Decode a code and run it; a code the decoder refuses is refused by name. -/
def runCode (c : Code) (s : State) : Result :=
  match decode c with
  | .ok i => exec i s
  | .error e => .refused (.undecodable e)

/-- The CORE's move: the micro-operation PHASE selects (R30, R80). -/
def sequencerStep (s : State) : Result := runCode (.seq s.phase.selector) s

/-- The host's move `m` at `s`, whose script no longer holds it. WAIT polls STATUS and, while busy, hands the step to the
CORE and stays pending (R83). -/
def hostStep (m : HostMove) (s : State) : Result :=
  match m with
  | .write r value => runCode (.regWrite r value) s
  | .command code operands => runCode (.command code operands) s
  | .read r =>
    match decode (.regRead r) with
    | .ok i => exec i s
    | .error _ => readBack r s
  | .wait => if s.phase.busy then sequencerStep (pollStatus { s with script := .wait :: s.script }) else .next (pollStatus s)
  | .core => sequencerStep s
  | .load a => hostLoad a s
  | .store a v => hostStore a v s
  | .reset => resetEvent s

/-- One step. -/
def step (s : State) : Host.Outcome State Fault Refusal :=
  match s.script with
  | [] => sequencerStep s
  | m :: rest => hostStep m { s with script := rest }

/-- `s` with the instruction of an opcode-table word placed where the next step takes its instruction: a selector in
PHASE, with the CORE's turn at the head of the script; a host line at the head of the script. -/
def State.withFetchWord (s : State) (nbits w : Nat) : State :=
  match tableCode nbits w with
  | some (.seq sel) =>
    match Phase.ofSelector sel with
    | some p => { s with phase := p, script := .core :: s.script }
    | none => s
  | some (.command code operands) => { s with script := .command code operands :: s.script }
  | some (.regWrite r value) => { s with script := .write r value :: s.script }
  | some (.regRead r) => { s with script := .read r :: s.script }
  | none => s

end Sys2Proof.Machine
end

