-- ==== Sys2Proof/Machine/Functions.lean ====
section
/-! DEFINITION. The pure functions the spec gives beside the micro-operations: `pb_encode` (R95), `state_init` (R114), `feed`
(R131) with the list of compressions it makes (R133, R135), and the whole invocation `hash_ex` (R174). `pb_encode` and `feed`
carry their ranges as preconditions and refuse other arguments (R97, R137, U1, U2): they answer `none` there. -/

namespace Sys2Proof.Machine

open Sys2Proof.Config

variable {W : Widths}

/-- `pb_encode(hashlen, keylen, salt, pers)` (R95, R71). -/
def pbEncode (hashlen keylen : Nat) (salt pers : List Byte) : Option ParamBlock :=
  if 1 ≤ hashlen ∧ hashlen ≤ outMax ∧ keylen ≤ keyMax ∧ salt.length ≤ saltMax ∧ pers.length ≤ persMax then
    some (Vector.ofFn fun j =>
      if j.val = 0 then BitVec.ofNat 8 hashlen
      else if j.val = 1 then BitVec.ofNat 8 keylen
      else if j.val = 2 then 0x01#8
      else if j.val = 3 then 0x01#8
      else if j.val < 16 then 0x00#8
      else if j.val < 24 then salt.getD (j.val - 16) 0x00#8
      else pers.getD (j.val - 24) 0x00#8)
  else none

/-- The eight words of a parameter block, `LE32(P[4i], P[4i+1], P[4i+2], P[4i+3])` (R70). -/
def blockWords (pb : ParamBlock) : Chain :=
  Vector.ofFn fun i : Fin 8 => le32 pb[4 * i.val] pb[4 * i.val + 1] pb[4 * i.val + 2] pb[4 * i.val + 3]

/-- What `state_init` yields (R114). -/
structure InitialState where
  h : Chain
  counter : Counter
  f0 : Word
  f1 : Word
  deriving DecidableEq, Repr

/-- `state_init(P)` (R114). -/
def stateInit (P : Params) (pb : ParamBlock) : InitialState where
  h := Vector.ofFn fun i : Fin 8 => (blockWords pb)[i] ^^^ P.iv[i]
  counter := 0#64
  f0 := 0#32
  f1 := 0#32

/-- One application of `F` as the feeder makes it: the block, the increment and the first flag; the second flag is 0 in all
of them (R131, R133). -/
structure Call where
  blk : Block
  inc : Nat
  f0 : Word
  deriving DecidableEq, Repr

/-- `C(h, T, blk, inc, f0)` of R131. -/
def applyCall (P : Params) (hT : Chain × Counter) (c : Call) : Chain × Counter :=
  let t := hT.2 + BitVec.ofNat 64 c.inc
  (P.compress hT.1 c.blk t c.f0 0#32, t)

/-- `n = (len(msg) - 1) div 64`, the number of interior blocks (R131, R125). -/
def interiorCount (msg : List Byte) : Nat := (msg.length - 1) / 64

/-- `msg[64j .. 64j+63]` (R131). -/
def messageChunk (msg : List Byte) (j : Nat) : List Byte := (msg.drop (64 * j)).take 64

/-- The calls of the key block: none without a key (R131). -/
def keyCalls (key msg : List Byte) : List Call :=
  if key.isEmpty then [] else [{ blk := pad64 key, inc := 64, f0 := if msg.isEmpty then allOnes else 0#32 }]

/-- The calls of the message: the interior blocks in order, then the tail with the flag (R131). -/
def messageCalls (msg : List Byte) : List Call :=
  if msg.isEmpty then []
  else
    (List.range (interiorCount msg)).map (fun j => { blk := pad64 (messageChunk msg j), inc := 64, f0 := 0#32 }) ++
      [{ blk := pad64 (msg.drop (64 * interiorCount msg)), inc := msg.length - 64 * interiorCount msg, f0 := allOnes }]

/-- All applications of `F` of one invocation, in order (R131, R135). -/
def feedCalls (key msg : List Byte) : List Call := keyCalls key msg ++ messageCalls msg

/-- `feed(h0, key, msg)` (R131), refused outside `len(key) <= 32` and `len(key) + len(msg) > 0` (R137). -/
def feed (P : Params) (h0 : Chain) (key msg : List Byte) : Option Chain :=
  if key.length ≤ keyMax ∧ 0 < key.length + msg.length then some ((feedCalls key msg).foldl (applyCall P) (h0, 0#64)).1
  else none

/-- The result of `hash_ex` (R174). -/
inductive HashResult
  /-- `Error(e)`; host memory unchanged. -/
  | error (e : ErrorKind)
  /-- `Ok`, with the digest and host memory after it is written. -/
  | ok (digest : List Byte) (mem : Memory)
  deriving DecidableEq, Repr

/-- `hash_ex(descriptor, HM)` (R174); `none` only if a stand-alone function refuses its arguments, which it does not after
VALID's checks. DESIGN CHOICE (notes/assumptions/20.md): the range duty of R59 is no precondition of this function. `HM` is
total here, so where a declared range wraps or does not exist, for which R59 and U7 give no meaning, it still answers, while the
machine refuses or is stuck there. -/
def hashEx (P : Params) (d : Descriptor W) (m : Memory) : Option HashResult :=
  match firstFailure d with
  | some e => some (.error e)
  | none =>
    let salt := readBytes m d.saltPtr.toNat d.saltlen.toNat
    let pers := readBytes m d.persPtr.toNat d.perslen.toNat
    let key := readBytes m d.keyPtr.toNat d.keylen.toNat
    let msg := readBytes m d.dataPtr.toNat d.datalen.toNat
    match pbEncode d.hashlen.toNat d.keylen.toNat salt pers with
    | none => none
    | some pb =>
      match feed P (stateInit P pb).h key msg with
      | none => none
      | some hN =>
        let out := digest hN d.hashlen.toNat
        some (.ok out (storeBytes m d.outPtr.toNat out))

/-- The PHASE values the CORE goes through by itself from `s`, the last one included (R174: "The sequence of
micro-operations an invocation executes is one of exactly four paths"). -/
def phasePath (P : Params) : Nat → State W → List Phase
  | 0, s => [s.phase]
  | n + 1, s =>
    if s.phase.busy then
      match coreStep P s with
      | .next t => s.phase :: phasePath P n t
      | .fault _ => [s.phase]
      | .refused _ => [s.phase]
    else [s.phase]

/-! The host memory addresses a micro-operation accesses, in the order in which it does (R51, R60). -/

/-- The addresses `p, p+1, .., p+n-1`. -/
def addressesFrom (p n : Nat) : List Nat := (List.range n).map (p + ·)

/-- The addresses the CORE reads while PHASE is at this value (R60, items 1 to 5). -/
def coreReads (s : State W) : List Nat :=
  match s.phase with
  | .pbSalt => addressesFrom s.desc.saltPtr.toNat s.desc.saltlen.toNat
  | .pbPers => addressesFrom s.desc.persPtr.toNat s.desc.perslen.toNat
  | .bfKeyld => addressesFrom s.desc.keyPtr.toNat s.desc.keylen.toNat
  | .bfTailld => addressesFrom (s.desc.dataPtr.toNat + s.span.toNat) s.taillen.toNat
  | .bfIntcmp => addressesFrom s.desc.dataPtr.toNat (64 * s.nint.toNat)
  | .idle | .valid | .pbZero | .pbHdr | .siXoriv | .siClrtf => []
  | .bfKeyfin | .bfKeycmp | .bfWipe | .bfSplit | .bfSetfin | .bfTailcmp | .bfDigest | .done | .error => []

/-- The addresses the CORE writes while PHASE is at this value (R60, item 6). -/
def coreWrites (s : State W) : List Nat :=
  match s.phase with
  | .bfDigest => addressesFrom s.desc.outPtr.toNat s.desc.hashlen.toNat
  | .idle | .valid | .pbZero | .pbHdr | .pbSalt | .pbPers | .siXoriv | .siClrtf | .bfKeyld => []
  | .bfKeyfin | .bfKeycmp | .bfWipe | .bfSplit | .bfTailld | .bfIntcmp | .bfSetfin | .bfTailcmp | .done | .error => []

end Sys2Proof.Machine
end

