-- ==== Sys2Proof/Safety.lean ====
section
/-! DEFINITION. What claims speak of: the range duty of an invocation (20_memory.md R59), and the invariant of the machine, which
states what holds between any two steps of a run, at any widths (10_state.md R23, R27, R28, R31, 42_block_feeder.md R132, R133,
40_param_block_encoder.md R90, 70_reset_and_hazards.md R227). -/

namespace Sys2Proof.Machine

open Sys2Proof.Config

variable {W : Widths}

/-- The condition of each error kind, on its own (R191). -/
def violates : ErrorKind → Descriptor W → Prop
  | .invalidDigestLength, d => d.hashlen.toNat < 1 ∨ 32 < d.hashlen.toNat
  | .invalidKeyLength, d => 32 < d.keylen.toNat
  | .invalidSaltLength, d => 8 < d.saltlen.toNat
  | .invalidPersonalizationLength, d => 8 < d.perslen.toNat
  | .nullBufferWithNonzeroLength, d =>
    d.outPtr.toNat = 0 ∨ (0 < d.datalen.toNat ∧ d.dataPtr.toNat = 0) ∨ (0 < d.keylen.toNat ∧ d.keyPtr.toNat = 0) ∨
      (0 < d.saltlen.toNat ∧ d.saltPtr.toNat = 0) ∨ (0 < d.perslen.toNat ∧ d.persPtr.toNat = 0)
  | .emptyUnkeyedInput, d => d.keylen.toNat = 0 ∧ d.datalen.toNat = 0

/-- The host's range duty for the five declared ranges (R51, R59). -/
def State.rangesOk (s : State W) : Bool :=
  (s.desc.outputRange :: s.desc.inputRanges).all fun r => s.rangeOk r.1 r.2

/-- The key length is not 0. -/
def Descriptor.keyed (d : Descriptor W) : Bool := d.keylen.toNat != 0

/-- What `T` is before any message block: the key counts as one block (R132). -/
def Descriptor.keyBytes (d : Descriptor W) : Nat := if d.keyed then 64 else 0

/-- The value of `T` at each PHASE where the rules fix it (R113, R123, R127, R129, R132). -/
def expectedCounter (s : State W) : Option Nat :=
  match s.phase with
  | .bfKeyld | .bfKeyfin | .bfKeycmp => some 0
  | .bfWipe => some 64
  | .bfSplit | .bfTailld | .bfIntcmp => some s.desc.keyBytes
  | .bfSetfin | .bfTailcmp => some (s.desc.keyBytes + s.span.toNat)
  | .bfDigest => some (s.desc.keyBytes + s.desc.datalen.toNat)
  | .idle | .valid | .pbZero | .pbHdr | .pbSalt | .pbPers | .siXoriv | .siClrtf | .done | .error => none

/-- The value of `f[0]` at each PHASE where the rules fix it (R113, R122, R128, R133). -/
def expectedFlag (s : State W) : Option Word :=
  match s.phase with
  | .bfKeyld | .bfKeyfin => some 0#32
  | .bfKeycmp | .bfWipe => some (if s.desc.datalen.toNat = 0 then allOnes else 0#32)
  | .bfSplit | .bfTailld | .bfIntcmp | .bfSetfin => some 0#32
  | .bfTailcmp | .bfDigest | .done => some allOnes
  | .idle | .valid | .pbZero | .pbHdr | .pbSalt | .pbPers | .siXoriv | .siClrtf | .error => none

/-- How many leading bytes of `buf` may be non-zero, at each PHASE where the rules fix it (R28 (a), R121, R124, R126, R227). -/
def expectedFill (s : State W) : Option Nat :=
  match s.phase with
  | .bfKeyfin | .bfKeycmp => some s.desc.keylen.toNat
  | .bfSplit => if s.desc.keyed then some 0 else none
  | .bfIntcmp | .bfSetfin | .bfTailcmp => some s.taillen.toNat
  | .bfDigest => some (if s.desc.datalen.toNat = 0 then 0 else s.taillen.toNat)
  | .idle | .valid | .pbZero | .pbHdr | .pbSalt | .pbPers | .siXoriv | .siClrtf => none
  | .bfKeyld | .bfWipe | .bfTailld | .done | .error => none

/-- The PHASE values between PB.ZERO and BF.DIGEST, which only an accepted descriptor reaches (R90, R120). -/
def Phase.accepted (p : Phase) : Bool := p.busy && p != .valid

/-- The PHASE values of the feeder's step 1 (R120). -/
def Phase.keyStep : Phase → Bool
  | .bfKeyld | .bfKeyfin | .bfKeycmp | .bfWipe => true
  | .idle | .valid | .pbZero | .pbHdr | .pbSalt | .pbPers | .siXoriv | .siClrtf => false
  | .bfSplit | .bfTailld | .bfIntcmp | .bfSetfin | .bfTailcmp | .bfDigest | .done | .error => false

/-- The PHASE values of the feeder's step 2 (R120). -/
def Phase.messageStep : Phase → Bool
  | .bfSplit | .bfTailld | .bfIntcmp | .bfSetfin | .bfTailcmp => true
  | .idle | .valid | .pbZero | .pbHdr | .pbSalt | .pbPers | .siXoriv | .siClrtf => false
  | .bfKeyld | .bfKeyfin | .bfKeycmp | .bfWipe | .bfDigest | .done | .error => false

/-- The PHASE values at which NINT, SPAN, TAILLEN are those of this invocation (R27), BF.DIGEST after a message among them. -/
def State.splitDone (s : State W) : Bool :=
  (s.phase.messageStep && s.phase != .bfSplit) || (s.phase == .bfDigest && s.desc.datalen.toNat != 0)

/-- The PHASE values at which words 1 to 3 of the parameter block must still be zero (R76, R92 (a)). -/
def Phase.blockBuilt : Phase → Bool
  | .pbHdr | .pbSalt | .pbPers | .siXoriv => true
  | .idle | .valid | .pbZero | .siClrtf | .bfKeyld | .bfKeyfin | .bfKeycmp | .bfWipe => false
  | .bfSplit | .bfTailld | .bfIntcmp | .bfSetfin | .bfTailcmp | .bfDigest | .done | .error => false

/-- The split of R125. -/
def State.splitRight (s : State W) : Prop :=
  s.nint.toNat = (s.desc.datalen.toNat - 1) / 64 ∧ s.span.toNat = 64 * s.nint.toNat ∧
    s.taillen.toNat = s.desc.datalen.toNat - s.span.toNat

/-- The invariant of the machine: it holds at reset and every step keeps it, whoever moves. -/
structure Inv (s : State W) : Prop where
  /-- Host memory is in its canonical form. -/
  memory : Memory.wf W s.mem = true
  /-- ERR is recorded exactly in ERROR (R31, R171, R176, R197, R233). -/
  error : s.err.isSome = true ↔ s.phase = .error
  /-- From PB.ZERO to BF.DIGEST the descriptor is one VALID accepted (R90, R120). -/
  accepted : s.phase.accepted = true → firstFailure s.desc = none
  /-- Step 1 runs only with a key (R121 (a)). -/
  key : s.phase.keyStep = true → s.desc.keylen.toNat ≠ 0
  /-- Step 2 runs only with a message (R125 (b)). -/
  message : s.phase.messageStep = true → s.desc.datalen.toNat ≠ 0
  /-- The split values are those of the message (R125). -/
  split : s.splitDone = true → s.splitRight
  /-- The reserved words of the parameter block are zero (R76). -/
  reserved : s.phase.blockBuilt = true → s.h[1] = 0#32 ∧ s.h[2] = 0#32 ∧ s.h[3] = 0#32
  /-- The counter, modulo 2^64 (R132, D16). -/
  counter : ∀ n, expectedCounter s = some n → s.counter.toNat = n % 2 ^ 64
  /-- The flags (R23, R133). -/
  flag : ∀ w, expectedFlag s = some w → s.f0 = w ∧ s.f1 = 0#32
  /-- The unused tail of the buffer is zero, all of it after the wipe (R25, R28 (a), R227). -/
  buffer : ∀ n, expectedFill s = some n → ∀ i : Fin 64, n ≤ i.val → s.buf[i] = 0#8

end Sys2Proof.Machine
end

