-- ==== Sys2Proof/Certificates/Slice0/Obligations.lean ====
section
/-! DEFINITION. The statements for the provers. Where a statement says `t = { s with … }`, that is its frame: every field not
named is as before. A statement "for every width, `IV` and `F`" takes them as arguments (R5, R35, R160); `exec` and `step` are
those of the machine with the spec's defaults (notes/assumptions/1.md, notes/assumptions/6.md). -/

open Sys2Proof Sys2Proof.Machine Sys2Proof.Config

/-! ## Encodings -/

/-- R80: the twenty selectors name the twenty rows of the table. R81 (c): 20 to 31 are refused as reserved. -/
def Obligations.SelectorTableDecodes : Prop :=
  (List.range 20).map (fun n => decode (.seq (BitVec.ofNat 5 n))) =
      [.ok .idle, .ok .valid, .ok .pbZero, .ok .pbHdr, .ok .pbSalt, .ok .pbPers, .ok .siXoriv, .ok .siClrtf, .ok .bfKeyld,
        .ok .bfKeyfin, .ok .bfKeycmp, .ok .bfWipe, .ok .bfSplit, .ok .bfTailld, .ok .bfIntcmp, .ok .bfSetfin, .ok .bfTailcmp,
        .ok .bfDigest, .ok .done, .ok .error] ∧
    ∀ sel : BitVec 5, 20 ≤ sel.toNat → decode (.seq sel) = .error (.reservedSelector sel)

/-- R78, R79, R81 (a), (d), (e): what a write and a read of each register number decode to, and which are refused as having no
meaning. That the whole value written to CMD is compared is the model's choice (notes/assumptions/3.md); so is that a read of
register 0 to 10, which has no row in the opcode table, is answered beside the decoder (notes/assumptions/18.md). -/
def Obligations.RegisterPortDecodes : Prop :=
  (∀ (r : BitVec 4) (v : HostValue), r.toNat ≤ 9 → decode (.regWrite r v) = .ok (.wr r v)) ∧
    decode (.regWrite 10#4 0x01) = .ok .start ∧
    (∀ v : HostValue, v ≠ 0x01 → decode (.regWrite 10#4 v) = .error (.reservedCommand v)) ∧
    (∀ v : HostValue, decode (.regWrite 11#4 v) = .error .writeToStatus) ∧
    decode (.regRead 11#4) = .ok .rdStatus ∧
    (∀ r : BitVec 4, r.toNat ≤ 10 → decode (.regRead r) = .error (.plainRegisterRead r)) ∧
    (∀ (r : BitVec 4) (v : HostValue), 12 ≤ r.toNat →
      decode (.regWrite r v) = .error (.noSuchRegister r) ∧ decode (.regRead r) = .error (.noSuchRegister r)) ∧
    ∀ (c : BitVec 8) (ops : List HostValue), c ≠ 0x01#8 → ∃ v, decode (.command c ops) = .error (.reservedCommand v)

/-- Decoding the encoding of a well-formed instruction gives it back, every operand at every value. -/
def Obligations.DecodeOfEncode : Prop := ∀ i : Instr, i.wellFormed = true → decode (encode i) = .ok i

/-- Every code the decoder accepts is the encoding of what it yields, but for START written as a plain write of register
10; and what it yields is well formed. -/
def Obligations.AcceptedCodesAreEncodings : Prop :=
  ∀ (c : Code) (i : Instr), decode c = .ok i →
    i.wellFormed = true ∧ (c = encode i ∨ (i = .start ∧ c = .regWrite 10#4 0x01))

/-! ## Steps -/

/-- With no host move pending, or the CORE's turn at the head of the script, a step runs the instruction PHASE selects. -/
def Obligations.StepRunsTheSelectedMicroOperation : Prop :=
  ∀ (s : State) (i : Instr), decode (.seq s.phase.selector) = .ok i →
    (s.script = [] → step s = exec i s) ∧
      ∀ rest, s.script = .core :: rest → step s = exec i { s with script := rest }

/-- A host line at the head of the script is taken off it and run when it decodes, and refused by name when it does not. -/
def Obligations.StepRunsTheHostLine : Prop :=
  ∀ (s : State) (rest : List HostMove) (r : BitVec 4) (v : HostValue) (c : BitVec 8) (ops : List HostValue) (i : Instr)
    (e : DecodeError),
    (s.script = .write r v :: rest → decode (.regWrite r v) = .ok i → step s = exec i { s with script := rest }) ∧
    (s.script = .write r v :: rest → decode (.regWrite r v) = .error e → step s = .refused (.undecodable e)) ∧
    (s.script = .command c ops :: rest → decode (.command c ops) = .ok i → step s = exec i { s with script := rest }) ∧
    (s.script = .command c ops :: rest → decode (.command c ops) = .error e → step s = .refused (.undecodable e)) ∧
    (s.script = .read r :: rest → decode (.regRead r) = .ok i → step s = exec i { s with script := rest })

/-- R83: WAIT ends when the CORE is not busy, returning STATUS; while busy it stays pending and the CORE runs its
micro-operation. -/
def Obligations.WaitRunsTheCoreUntilNotBusy : Prop :=
  ∀ (s : State) (rest : List HostMove) (i : Instr), s.script = .wait :: rest → decode (.seq s.phase.selector) = .ok i →
    (s.phase.busy = false → step s = .next { s with script := rest, hostRead := s.status.toNat }) ∧
      (s.phase.busy = true → step s = exec i { s with hostRead := s.status.toNat })

/-- The CORE has no step in IDLE, DONE and ERROR (R30, R176, R197). That it then waits, as a step that changes nothing, is
the model's choice (notes/assumptions/7.md). -/
def Obligations.NoStepMeansNothingChanges : Prop :=
  ∀ s : State, exec .idle s = .next s ∧ exec .done s = .next s ∧ exec .error s = .next s

/-! ## Validation and errors -/

/-- R173, R191, R199, R197: VALID reports a kind exactly when its condition holds and no kind with a lower code applies; it
then writes ERR and PHASE and nothing else; when no condition holds it goes on to PB.ZERO and writes PHASE alone. -/
def Obligations.ValidReportsTheLowestCode : Prop :=
  decode (.seq 0b00001#5) = .ok .valid ∧
    ∀ s : State,
      (∀ k, violates k s.desc → (∀ k', violates k' s.desc → (errCode (some k)).toNat ≤ (errCode (some k')).toNat) →
        exec .valid s = .next { s with err := some k, phase := .error }) ∧
      ((∀ k, ¬ violates k s.desc) → exec .valid s = .next { s with phase := .pbZero })

/-- R190, R175: a public operation whose descriptor VALID rejects ends in ERROR with the descriptor written and nothing else
of the CORE or of host memory changed, for every width, `IV` and `F`. -/
def Obligations.RejectedOperationWritesNothing : Prop :=
  ∀ (W : Widths) (P : Params) (ws : List (BitVec 4 × HostValue)) (s s1 : State W) (k : ErrorKind),
    s.phase.busy = false → writeRegisters ws s = .next s1 → firstFailure s1.desc = some k →
      ∃ t, publicOperation P ws s = .next t ∧ t.phase = .error ∧ t.err = some k ∧ t.mem = s.mem ∧
        t = { s with desc := s1.desc, phase := .error, err := some k, hostRead := t.hostRead }

/-! ## Parameter block encoder -/

/-- R91: PB.ZERO. -/
def Obligations.PbZeroClearsTheBlock : Prop :=
  decode (.seq 0b00010#5) = .ok .pbZero ∧
    ∀ s : State, ∃ t, exec .pbZero s = .next t ∧ (∀ i : Fin 8, t.h[i] = 0#32) ∧ t = { s with h := t.h, phase := .pbHdr }

/-- R92, R73: PB.HDR writes digest length, key length, fanout 1 and depth 1 into the byte lanes of the first word. -/
def Obligations.PbHdrWritesTheFirstWord : Prop :=
  decode (.seq 0b00011#5) = .ok .pbHdr ∧
    ∀ s : State, 1 ≤ s.desc.hashlen.toNat → s.desc.hashlen.toNat ≤ 32 → s.desc.keylen.toNat ≤ 32 →
      ∃ t, exec .pbHdr s = .next t ∧
        t.h[0].toNat = s.desc.hashlen.toNat + 256 * s.desc.keylen.toNat + 65536 * 1 + 16777216 * 1 ∧
        (∀ i : Fin 8, i ≠ 0 → t.h[i] = s.h[i]) ∧ t = { s with h := t.h, phase := .pbSalt }

/-- R93: PB.SALT copies SALTLEN bytes to parameter block bytes 16 onwards and changes no other byte. -/
def Obligations.PbSaltCopiesTheSalt : Prop :=
  decode (.seq 0b00100#5) = .ok .pbSalt ∧
    ∀ s : State, s.desc.saltlen.toNat ≤ 8 → s.rangeOk s.desc.saltPtr.toNat s.desc.saltlen.toNat = true →
      ∃ t, exec .pbSalt s = .next t ∧
        (∀ k < s.desc.saltlen.toNat, byteAt t.h (16 + k) = Memory.read s.mem (s.desc.saltPtr.toNat + k)) ∧
        (∀ j < 32, (j < 16 ∨ 16 + s.desc.saltlen.toNat ≤ j) → byteAt t.h j = byteAt s.h j) ∧
        t = { s with h := t.h, phase := .pbPers }

/-- R94: PB.PERS copies PERSLEN bytes to parameter block bytes 24 onwards and changes no other byte. -/
def Obligations.PbPersCopiesThePersonalization : Prop :=
  decode (.seq 0b00101#5) = .ok .pbPers ∧
    ∀ s : State, s.desc.perslen.toNat ≤ 8 → s.rangeOk s.desc.persPtr.toNat s.desc.perslen.toNat = true →
      ∃ t, exec .pbPers s = .next t ∧
        (∀ k < s.desc.perslen.toNat, byteAt t.h (24 + k) = Memory.read s.mem (s.desc.persPtr.toNat + k)) ∧
        (∀ j < 32, (j < 24 ∨ 24 + s.desc.perslen.toNat ≤ j) → byteAt t.h j = byteAt s.h j) ∧
        t = { s with h := t.h, phase := .siXoriv }

/-- R95: the four operations together compute `pb_encode`, whatever `h` held before. -/
def Obligations.EncoderComputesPbEncode : Prop :=
  ∀ s : State, 1 ≤ s.desc.hashlen.toNat → s.desc.hashlen.toNat ≤ 32 → s.desc.keylen.toNat ≤ 32 →
    s.desc.saltlen.toNat ≤ 8 → s.desc.perslen.toNat ≤ 8 →
    s.rangeOk s.desc.saltPtr.toNat s.desc.saltlen.toNat = true →
    s.rangeOk s.desc.persPtr.toNat s.desc.perslen.toNat = true →
      ∃ t pb, andThen (exec .pbZero s) (fun a => andThen (exec .pbHdr a) fun b => andThen (exec .pbSalt b) (exec .pbPers)) =
          .next t ∧
        pbEncode s.desc.hashlen.toNat s.desc.keylen.toNat (readBytes s.mem s.desc.saltPtr.toNat s.desc.saltlen.toNat)
          (readBytes s.mem s.desc.persPtr.toNat s.desc.perslen.toNat) = some pb ∧
        (∀ i : Fin 8, t.h[i] = le32 pb[4 * i.val] pb[4 * i.val + 1] pb[4 * i.val + 2] pb[4 * i.val + 3]) ∧
        t = { s with h := t.h, phase := .siXoriv }

/-- R72: the word view of the parameter block. -/
def Obligations.ParameterBlockWordView : Prop :=
  ∀ (hl kl : Nat) (salt pers : List Byte) (pb : ParamBlock), pbEncode hl kl salt pers = some pb →
    (blockWords pb)[0].toNat = 0x01010000 + 256 * kl + hl ∧
    (blockWords pb)[1] = 0#32 ∧ (blockWords pb)[2] = 0#32 ∧ (blockWords pb)[3] = 0#32 ∧
    (blockWords pb)[4] = le32 (salt.getD 0 0) (salt.getD 1 0) (salt.getD 2 0) (salt.getD 3 0) ∧
    (blockWords pb)[5] = le32 (salt.getD 4 0) (salt.getD 5 0) (salt.getD 6 0) (salt.getD 7 0) ∧
    (blockWords pb)[6] = le32 (pers.getD 0 0) (pers.getD 1 0) (pers.getD 2 0) (pers.getD 3 0) ∧
    (blockWords pb)[7] = le32 (pers.getD 4 0) (pers.getD 5 0) (pers.getD 6 0) (pers.getD 7 0)

/-- R96, R75: PB.SALT and PB.PERS write fields of their own, so after both the salt field holds the salt; and the same bytes
given as salt or as personalization give different blocks unless all are zero. -/
def Obligations.SaltAndPersonalizationStayApart : Prop :=
  (∀ s : State, s.desc.saltlen.toNat ≤ 8 → s.desc.perslen.toNat ≤ 8 →
    s.rangeOk s.desc.saltPtr.toNat s.desc.saltlen.toNat = true →
    s.rangeOk s.desc.persPtr.toNat s.desc.perslen.toNat = true →
      ∃ t, andThen (exec .pbSalt s) (exec .pbPers) = .next t ∧
        (∀ k < 8, byteAt t.h (16 + k) =
          if k < s.desc.saltlen.toNat then Memory.read s.mem (s.desc.saltPtr.toNat + k) else byteAt s.h (16 + k)) ∧
        (∀ k < 8, byteAt t.h (24 + k) =
          if k < s.desc.perslen.toNat then Memory.read s.mem (s.desc.persPtr.toNat + k) else byteAt s.h (24 + k)) ∧
        ∀ j < 16, byteAt t.h j = byteAt s.h j) ∧
  ∀ (hl kl : Nat) (x : List Byte) (a b : ParamBlock), (∃ v ∈ x, v ≠ 0#8) →
    pbEncode hl kl x [] = some a → pbEncode hl kl [] x = some b → a ≠ b

/-- Outside its ranges the encoder is refused, as a function (R97, U1) and, by the model's reading (notes/assumptions/10.md),
operation by operation; VALID lets no such descriptor through to PB.ZERO (R97). -/
def Obligations.EncoderRefusedOutsideItsRanges : Prop :=
  (∀ s : State,
    ((s.desc.hashlen.toNat = 0 ∨ 32 < s.desc.hashlen.toNat ∨ 32 < s.desc.keylen.toNat) →
      exec .pbHdr s = .refused .encoderOutsideContract) ∧
    (8 < s.desc.saltlen.toNat → exec .pbSalt s = .refused .encoderOutsideContract) ∧
    (8 < s.desc.perslen.toNat → exec .pbPers s = .refused .encoderOutsideContract) ∧
    ∀ t, exec .valid s = .next t → t.phase = .pbZero →
      1 ≤ s.desc.hashlen.toNat ∧ s.desc.hashlen.toNat ≤ 32 ∧ s.desc.keylen.toNat ≤ 32 ∧ s.desc.saltlen.toNat ≤ 8 ∧
        s.desc.perslen.toNat ≤ 8) ∧
  ∀ (hl kl : Nat) (salt pers : List Byte),
    (hl = 0 ∨ 32 < hl ∨ 32 < kl ∨ 8 < salt.length ∨ 8 < pers.length) → pbEncode hl kl salt pers = none

/-! ## State initializer -/

/-- R112: SI.XORIV, for every width and `IV`; the machine's own runs with the default `IV`. -/
def Obligations.SiXorivFoldsTheBlockIntoTheIv : Prop :=
  decode (.seq 0b00110#5) = .ok .siXoriv ∧ (∀ s : State, ∃ t, exec .siXoriv s = .next t ∧ siXoriv params s = .next t) ∧
    ∀ (W : Widths) (P : Params) (s : State W), ∃ t, siXoriv P s = .next t ∧ (∀ i : Fin 8, t.h[i] = s.h[i] ^^^ P.iv[i]) ∧
      t = { s with h := t.h, phase := .siClrtf }

/-- R113: SI.CLRTF zeroes counter and flags and enters the feeder at step 1 or step 2. -/
def Obligations.SiClrtfClearsAndBranches : Prop :=
  decode (.seq 0b00111#5) = .ok .siClrtf ∧
    ∀ s : State, ∃ t, exec .siClrtf s = .next t ∧ t.counter = 0#64 ∧ t.f0 = 0#32 ∧ t.f1 = 0#32 ∧
      (s.desc.keylen.toNat ≠ 0 → t.phase = .bfKeyld) ∧ (s.desc.keylen.toNat = 0 → t.phase = .bfSplit) ∧
      t = { s with t0 := 0#32, t1 := 0#32, f0 := 0#32, f1 := 0#32, phase := t.phase }

/-- R114: encoder and initializer together, from PB.ZERO, leave `state_init(pb_encode(..))`, for every width and `IV`. -/
def Obligations.InitializerComputesStateInit : Prop :=
  ∀ (W : Widths) (P : Params) (s : State W), firstFailure s.desc = none →
    s.rangeOk s.desc.saltPtr.toNat s.desc.saltlen.toNat = true →
    s.rangeOk s.desc.persPtr.toNat s.desc.perslen.toNat = true →
      ∃ t pb,
        andThen (execPbZero s) (fun a => andThen (execPbHdr a) fun b => andThen (execPbSalt b) fun c =>
          andThen (execPbPers c) fun d => andThen (siXoriv P d) execSiClrtf) = .next t ∧
        pbEncode s.desc.hashlen.toNat s.desc.keylen.toNat (readBytes s.mem s.desc.saltPtr.toNat s.desc.saltlen.toNat)
          (readBytes s.mem s.desc.persPtr.toNat s.desc.perslen.toNat) = some pb ∧
        stateInit P pb = { h := t.h, counter := t.counter, f0 := t.f0, f1 := t.f1 } ∧
        t = { s with h := t.h, t0 := t.t0, t1 := t.t1, f0 := t.f0, f1 := t.f1, phase := t.phase }

/-- Different parameter blocks give different initial states, for every `IV` (95_test_vectors.md L1-7). -/
def Obligations.InitialStateDeterminesTheBlock : Prop :=
  ∀ (P : Params) (a b : ParamBlock), (stateInit P a).h = (stateInit P b).h → a = b

/-! ## Block feeder -/

/-- R121: BF.KEYLD copies the key and pads it; all 64 bytes are written. That it runs for KEYLEN = 0 too, which R121 (a) says
never reaches it, and then loads zeros, is the model's choice (notes/assumptions/10.md). -/
def Obligations.BfKeyldLoadsThePaddedKey : Prop :=
  decode (.seq 0b01000#5) = .ok .bfKeyld ∧
    ∀ s : State, s.desc.keylen.toNat ≤ 32 → s.rangeOk s.desc.keyPtr.toNat s.desc.keylen.toNat = true →
      ∃ t, exec .bfKeyld s = .next t ∧
        (∀ i : Fin 64, t.buf[i] =
          if i.val < s.desc.keylen.toNat then Memory.read s.mem (s.desc.keyPtr.toNat + i.val) else 0x00#8) ∧
        t = { s with buf := t.buf, phase := .bfKeyfin }

/-- R122: BF.KEYFIN sets the flag exactly when the message is empty. -/
def Obligations.BfKeyfinFlagsAnEmptyMessage : Prop :=
  decode (.seq 0b01001#5) = .ok .bfKeyfin ∧
    ∀ s : State, ∃ t, exec .bfKeyfin s = .next t ∧ (s.desc.datalen.toNat = 0 → t.f0 = 0xFFFFFFFF#32) ∧
      (s.desc.datalen.toNat ≠ 0 → t.f0 = s.f0) ∧ t = { s with f0 := t.f0, phase := .bfKeycmp }

/-- R152: the counter is incremented first, modulo 2^64 over both halves, and `F` sees the incremented value; the flags and
everything else are as before. -/
def Obligations.CompressAdvancesTheCounterFirst : Prop :=
  ∀ (W : Widths) (P : Params) (blk : Block) (inc : Nat) (s : State W), 1 ≤ inc → inc ≤ 64 →
    (compress1 P blk inc s).counter.toNat = (s.t1.toNat * 2 ^ 32 + s.t0.toNat + inc) % 2 ^ 64 ∧
    (compress1 P blk inc s).h = P.compress s.h blk (compress1 P blk inc s).counter s.f0 s.f1 ∧
    compress1 P blk inc s =
      { s with
        h := (compress1 P blk inc s).h, t0 := (compress1 P blk inc s).t0, t1 := (compress1 P blk inc s).t1 }

/-- R123: BF.KEYCMP compresses the buffer with increment 64 whatever KEYLEN is, for every width and `F`. -/
def Obligations.BfKeycmpCompressesTheKeyBlock : Prop :=
  decode (.seq 0b01010#5) = .ok .bfKeycmp ∧ (∀ s : State, ∃ t, exec .bfKeycmp s = .next t ∧ bfKeycmp params s = .next t) ∧
    ∀ (W : Widths) (P : Params) (s : State W), ∃ t, bfKeycmp P s = .next t ∧ t.counter = s.counter + 64#64 ∧
      t.h = P.compress s.h s.buf (s.counter + 64#64) s.f0 s.f1 ∧
      t = { s with h := t.h, t0 := t.t0, t1 := t.t1, phase := .bfWipe }

/-- R124: BF.WIPE zeroes all 64 bytes of the buffer and branches on DATALEN. -/
def Obligations.BfWipeClearsTheBuffer : Prop :=
  decode (.seq 0b01011#5) = .ok .bfWipe ∧
    ∀ s : State, ∃ t, exec .bfWipe s = .next t ∧ (∀ i : Fin 64, t.buf[i] = 0x00#8) ∧
      (s.desc.datalen.toNat ≠ 0 → t.phase = .bfSplit) ∧ (s.desc.datalen.toNat = 0 → t.phase = .bfDigest) ∧
      t = { s with buf := t.buf, phase := t.phase }

/-- R227, R124 (b): after BF.KEYCMP the CORE's next step clears the buffer, in every case, for every width and `F`. -/
def Obligations.KeyIsWipedRightAfterItsCompression : Prop :=
  ∀ (W : Widths) (P : Params) (s : State W), s.phase = .bfKeycmp →
    ∃ a t, coreStep P s = .next a ∧ coreStep P a = .next t ∧ a.buf = s.buf ∧ ∀ i : Fin 64, t.buf[i] = 0#8

/-- R125: BF.SPLIT at every width, with the tail in 1 to 64 and the closed forms of (f). That it is refused with DATALEN = 0, where
R125 (b) says only that the expression is not defined and never evaluated, is the model's reading (notes/assumptions/10.md). -/
def Obligations.BfSplitDefersTheLastBlock : Prop :=
  decode (.seq 0b01100#5) = .ok .bfSplit ∧
    (∀ s : State, 1 ≤ s.desc.datalen.toNat → ∃ t, exec .bfSplit s = .next t ∧ execBfSplit s = .next t) ∧
    (∀ (W : Widths) (s : State W), 1 ≤ s.desc.datalen.toNat →
      ∃ t, execBfSplit s = .next t ∧ t.nint.toNat = (s.desc.datalen.toNat - 1) / 64 ∧
        t.span.toNat = t.nint.toNat * 64 ∧ t.span.toNat + t.taillen.toNat = s.desc.datalen.toNat ∧
        1 ≤ t.taillen.toNat ∧ t.taillen.toNat ≤ 64 ∧ t.taillen.toNat = (s.desc.datalen.toNat - 1) % 64 + 1 ∧
        t.nint.toNat = (s.desc.datalen.toNat + 63) / 64 - 1 ∧
        t = { s with nint := t.nint, span := t.span, taillen := t.taillen, phase := .bfTailld }) ∧
    ∀ s : State, s.desc.datalen.toNat = 0 → exec .bfSplit s = .refused .feederOutsideContract

/-- R126: BF.TAILLD copies the last TAILLEN bytes of the message and pads them; all 64 bytes are written. -/
def Obligations.BfTailldLoadsThePaddedTail : Prop :=
  decode (.seq 0b01101#5) = .ok .bfTailld ∧
    ∀ s : State, s.taillen.toNat ≤ 64 →
      s.rangeOk (s.desc.dataPtr.toNat + s.span.toNat) s.taillen.toNat = true →
      ∃ t, exec .bfTailld s = .next t ∧
        (∀ i : Fin 64, t.buf[i] =
          if i.val < s.taillen.toNat then Memory.read s.mem (s.desc.dataPtr.toNat + s.span.toNat + i.val) else 0x00#8) ∧
        t = { s with buf := t.buf, phase := .bfIntcmp }

/-- R127: BF.INTCMP is NINT single-block calls in message order, each with increment 64, straight from host memory, for
every width and `F`. -/
def Obligations.BfIntcmpCompressesTheInteriorInOrder : Prop :=
  decode (.seq 0b01110#5) = .ok .bfIntcmp ∧
    (∀ s : State, s.rangeOk s.desc.dataPtr.toNat (64 * s.nint.toNat) = true →
      ∃ t, exec .bfIntcmp s = .next t ∧ bfIntcmp params s = .next t) ∧
    ∀ (W : Widths) (P : Params) (s : State W), s.rangeOk s.desc.dataPtr.toNat (64 * s.nint.toNat) = true →
      ∃ t, bfIntcmp P s = .next t ∧
        t = { (List.range s.nint.toNat).foldl
                (fun u j =>
                  compress1 P (Vector.ofFn fun k : Fin 64 => Memory.read s.mem (s.desc.dataPtr.toNat + 64 * j + k.val)) 64 u) s
              with phase := .bfSetfin } ∧
        t.counter = s.counter + BitVec.ofNat 64 (64 * s.nint.toNat) ∧
        t = { s with h := t.h, t0 := t.t0, t1 := t.t1, phase := .bfSetfin }

/-- R128: BF.SETFIN. -/
def Obligations.BfSetfinSetsTheFlag : Prop :=
  decode (.seq 0b01111#5) = .ok .bfSetfin ∧
    ∀ s : State, exec .bfSetfin s = .next { s with f0 := 0xFFFFFFFF#32, phase := .bfTailcmp }

/-- R129: BF.TAILCMP compresses the buffer with increment TAILLEN, for every width and `F`. That it runs for every 7-bit TAILLEN,
0 and 65 to 127 among them, where R152 gives the increment the range 1 to 64, is the model's choice (notes/assumptions/10.md). -/
def Obligations.BfTailcmpCompressesTheTail : Prop :=
  decode (.seq 0b10000#5) = .ok .bfTailcmp ∧
    (∀ s : State, ∃ t, exec .bfTailcmp s = .next t ∧ bfTailcmp params s = .next t) ∧
    ∀ (W : Widths) (P : Params) (s : State W),
      ∃ t, bfTailcmp P s = .next t ∧ t.counter = s.counter + s.taillen.setWidth 64 ∧
      t.h = P.compress s.h s.buf (s.counter + s.taillen.setWidth 64) s.f0 s.f1 ∧
      t = { s with h := t.h, t0 := t.t0, t1 := t.t1, phase := .bfDigest }

/-- R130, R77, R175: BF.DIGEST writes exactly HASHLEN bytes, byte `i` of the byte view of `h` at `OUT_PTR + i`, and no other
byte of host memory. -/
def Obligations.BfDigestWritesExactlyHashlenBytes : Prop :=
  decode (.seq 0b10001#5) = .ok .bfDigest ∧
    ∀ s : State, s.desc.hashlen.toNat ≤ 32 → Memory.wf defaultWidths s.mem = true →
      s.rangeOk s.desc.outPtr.toNat s.desc.hashlen.toNat = true →
      ∃ t, exec .bfDigest s = .next t ∧
        (∀ i < s.desc.hashlen.toNat, Memory.read t.mem (s.desc.outPtr.toNat + i) = byteAt s.h i) ∧
        (∀ a, (a < s.desc.outPtr.toNat ∨ s.desc.outPtr.toNat + s.desc.hashlen.toNat ≤ a) →
          Memory.read t.mem a = Memory.read s.mem a) ∧
        t = { s with mem := t.mem, phase := .done }

/-- R133, R135, R132: of the calls of one invocation exactly the last carries the flag, their number is `k + ceil(len/64)`, and
their increments add up to `64k + len`. -/
def Obligations.FlagOnTheLastCallOnly : Prop :=
  ∀ key msg : List Byte, 0 < key.length + msg.length →
    (∃ front last, feedCalls key msg = front ++ [last] ∧ last.f0 = 0xFFFFFFFF#32 ∧ ∀ c ∈ front, c.f0 = 0#32) ∧
    (feedCalls key msg).length = (if 0 < key.length then 1 else 0) + (msg.length + 63) / 64 ∧
    ((feedCalls key msg).map Call.inc).sum = (if 0 < key.length then 64 else 0) + msg.length ∧
    ∀ c ∈ feedCalls key msg, 1 ≤ c.inc ∧ c.inc ≤ 64

/-- R134: the interior blocks in order followed by the tail are the message, and the tail is 1 to 64 bytes long. -/
def Obligations.EveryMessageByteOnceInOrder : Prop :=
  ∀ msg : List Byte, msg ≠ [] →
    ((List.range (interiorCount msg)).map (messageChunk msg)).flatten ++ msg.drop (64 * interiorCount msg) = msg ∧
    (∀ j < interiorCount msg, (messageChunk msg j).length = 64) ∧
    1 ≤ (msg.drop (64 * interiorCount msg)).length ∧ (msg.drop (64 * interiorCount msg)).length ≤ 64

/-! ## Host operations -/

/-- R171: START is accepted in IDLE, DONE and ERROR, clearing ERR and going to VALID, and refused while busy. -/
def Obligations.StartBeginsAnInvocation : Prop :=
  decode (.command 0x01#8 []) = .ok .start ∧
    ∀ s : State,
      ((s.phase = .idle ∨ s.phase = .done ∨ s.phase = .error) →
        exec .start s = .next { s with err := none, phase := .valid }) ∧
      (1 ≤ s.phase.selector.toNat → s.phase.selector.toNat ≤ 17 → exec .start s = .refused .startWhileBusy)

/-- R179: WR sets one descriptor register to the value truncated to its width, at every `AW` and `LENW`, and changes nothing else;
while busy it is refused. -/
def Obligations.WrWritesOneDescriptorRegister : Prop :=
  (∀ (s : State) (r : BitVec 4) (v : HostValue), r.toNat ≤ 9 → s.phase.busy = false →
    ∃ t, exec (.wr r v) s = .next t ∧ execWr r v s = .next t) ∧
  (∀ (W : Widths) (s : State W) (r : BitVec 4) (v : HostValue), r.toNat ≤ 9 → s.phase.busy = false →
    ∃ t, execWr r v s = .next t ∧ t.desc.read r = some (v % 2 ^ (if r.toNat % 2 = 0 then W.aw else W.lenw)) ∧
      (∀ r' : BitVec 4, r' ≠ r → t.desc.read r' = s.desc.read r') ∧ t = { s with desc := t.desc }) ∧
  ∀ (s : State) (r : BitVec 4) (v : HostValue), r.toNat ≤ 9 → s.phase.busy = true →
    exec (.wr r v) s = .refused .descriptorWriteWhileBusy

/-- R32: RD STATUS returns PHASE in bits [4:0], ERR in bits [7:5] and zeros above, in every phase, and changes nothing else;
the numbers of PHASE and ERR are those of R30 and R191; `busy` is `1 <= PHASE <= 17`; a write of STATUS is refused. -/
def Obligations.StatusShowsPhaseAndErr : Prop :=
  (∀ s : State, ∃ t, exec .rdStatus s = .next t ∧
      t.hostRead = s.phase.selector.toNat + 32 * (errCode s.err).toNat ∧ t = { s with hostRead := t.hostRead }) ∧
    ([Phase.idle, .valid, .pbZero, .pbHdr, .pbSalt, .pbPers, .siXoriv, .siClrtf, .bfKeyld, .bfKeyfin, .bfKeycmp, .bfWipe,
      .bfSplit, .bfTailld, .bfIntcmp, .bfSetfin, .bfTailcmp, .bfDigest, .done, .error].map fun p => p.selector.toNat) =
      List.range 20 ∧
    ([none, some .invalidDigestLength, some .invalidKeyLength, some .invalidSaltLength, some .invalidPersonalizationLength,
      some .nullBufferWithNonzeroLength, some .emptyUnkeyedInput].map fun e => (errCode e).toNat) = List.range 7 ∧
    (∀ p : Phase, p.busy = true ↔ 1 ≤ p.selector.toNat ∧ p.selector.toNat ≤ 17) ∧
    ∀ (s : State) (v : HostValue) (rest : List HostMove), s.script = .write 11#4 v :: rest →
      step s = .refused (.undecodable .writeToStatus)

/-- R34, R37, R81 (d): a descriptor register reads back, in every phase; CMD reads as 0; registers 12 and above are refused. -/
def Obligations.ReadBackOfTheOtherRegisters : Prop :=
  ∀ (s : State) (r : BitVec 4) (rest : List HostMove), s.script = .read r :: rest →
    (r.toNat ≤ 9 → ∃ v, s.desc.read r = some v ∧ step s = .next { s with script := rest, hostRead := v }) ∧
    (r.toNat = 10 → step s = .next { s with script := rest, hostRead := 0 }) ∧
    (12 ≤ r.toNat → step s = .refused (.noSuchRegister r))

/-- R174 for every width, `IV` and `F`: from an accepted START the CORE runs to DONE and leaves in host memory what `hash_ex` says,
whatever its working state was; ERR is 0 and STATUS reads 0x12; the descriptor and the environment are unchanged. -/
def Obligations.InvocationComputesHashEx : Prop :=
  ∀ (W : Widths) (P : Params) (s : State W), s.phase.busy = false → firstFailure s.desc = none → s.rangesOk = true →
    ∃ t d m, andThen (startInvocation s) (waitDone P invocationFuel) = .next t ∧
      hashEx P s.desc s.mem = some (.ok d m) ∧ d.length = s.desc.hashlen.toNat ∧ t.mem = m ∧ t.phase = .done ∧
      t.err = none ∧ t.hostRead = 0x12 ∧ t.desc = s.desc ∧ t.absent = s.absent ∧ t.script = s.script ∧
      t.freeCount = s.freeCount

/-- HASH_EX completes (R84, R170, R174): with operands VALID accepts and ranges that exist, in any phase that is not busy, it
answers a next state with the result of `hash_ex`; while busy its first WR line is refused (R179, R226). That the whole line is
one step is the model's choice (notes/assumptions/9.md), and `IV` and `F` are the defaults (notes/assumptions/6.md). -/
def Obligations.HashExCompletesWithTheDigest : Prop :=
  ∀ (s : State) (out hl data dl key kl salt sl pers pl : HostValue),
    (∀ d : Descriptor,
      d = { outPtr := .ofNat _ out, hashlen := .ofNat _ hl, dataPtr := .ofNat _ data, datalen := .ofNat _ dl,
            keyPtr := .ofNat _ key, keylen := .ofNat _ kl, saltPtr := .ofNat _ salt, saltlen := .ofNat _ sl,
            persPtr := .ofNat _ pers, perslen := .ofNat _ pl } →
      s.phase.busy = false → firstFailure d = none → State.rangesOk { s with desc := d } = true →
        ∃ t dg m, exec (.hashEx out hl data dl key kl salt sl pers pl) s = .next t ∧
          hashEx params d s.mem = some (.ok dg m) ∧ t.mem = m ∧ t.phase = .done ∧ t.err = none ∧ t.desc = d ∧
          t.absent = s.absent ∧ t.script = s.script ∧ t.freeCount = s.freeCount) ∧
    (s.phase.busy = true →
      exec (.hashEx out hl data dl key kl salt sl pers pl) s = .refused .descriptorWriteWhileBusy)

/-- R172: HASH is HASH_EX with null, zero-length salt and personalization, and completes as it does; a HASH_EX with zero
lengths leaves the same host memory whatever the two pointers hold; while busy HASH is refused (R179, R226). That the line
reaches DONE in one step is the model's choice (notes/assumptions/9.md), and `IV` and `F` are the defaults
(notes/assumptions/6.md). -/
def Obligations.HashIsHashExWithoutSalt : Prop :=
  ∀ (s : State) (out hl data dl key kl : HostValue),
    exec (.hash out hl data dl key kl) s = exec (.hashEx out hl data dl key kl 0 0 0 0) s ∧
    (s.phase.busy = true → exec (.hash out hl data dl key kl) s = .refused .descriptorWriteWhileBusy) ∧
    (s.phase.busy = false →
      ∀ d : Descriptor,
        d = { outPtr := .ofNat _ out, hashlen := .ofNat _ hl, dataPtr := .ofNat _ data, datalen := .ofNat _ dl,
              keyPtr := .ofNat _ key, keylen := .ofNat _ kl, saltPtr := 0, saltlen := 0, persPtr := 0, perslen := 0 } →
        firstFailure d = none → s.rangeOk d.outPtr.toNat d.hashlen.toNat = true →
        s.rangeOk d.dataPtr.toNat d.datalen.toNat = true → s.rangeOk d.keyPtr.toNat d.keylen.toNat = true →
        ∃ t, exec (.hash out hl data dl key kl) s = .next t ∧ t.phase = .done ∧
          ∀ saltPtr persPtr : HostValue,
            ∃ u, exec (.hashEx out hl data dl key kl saltPtr 0 persPtr 0) s = .next u ∧ u.phase = .done ∧ u.mem = t.mem)

/-- R62, R225: while busy, a store by the host or another agent into any of the five declared ranges, and a load from the output
range, are refused. A store elsewhere and a load from outside the output range, the input ranges included, complete and touch
nothing else, as all do when the CORE is not busy, where the byte exists. One that does not exist is stuck, and there is no
address from `2^AW` on (R50, R59). At every width. -/
def Obligations.HostLeavesTheDeclaredRangesAlone : Prop :=
  ∀ (W : Widths) (s : State W) (a : Nat) (v : Byte),
    (a < 2 ^ W.aw →
      (s.phase.busy = true → (∃ r ∈ s.desc.outputRange :: s.desc.inputRanges, r.1 ≤ a ∧ a < r.1 + r.2) →
        hostStore a v s = .refused .ownedRangeTouched) ∧
      (s.phase.busy = true → s.desc.outPtr.toNat ≤ a → a < s.desc.outPtr.toNat + s.desc.hashlen.toNat →
        hostLoad a s = .refused .ownedRangeTouched) ∧
      ((s.phase.busy = false ∨ ∀ r ∈ s.desc.outputRange :: s.desc.inputRanges, a < r.1 ∨ r.1 + r.2 ≤ a) →
        (s.rangeExists a 1 = true → hostStore a v s = .next { s with mem := Memory.write s.mem a v }) ∧
        (s.rangeExists a 1 = false → hostStore a v s = .fault .accessOutsideMemory)) ∧
      ((s.phase.busy = false ∨ a < s.desc.outPtr.toNat ∨ s.desc.outPtr.toNat + s.desc.hashlen.toNat ≤ a) →
        (s.rangeExists a 1 = true → hostLoad a s = .next { s with hostRead := (Memory.read s.mem a).toNat }) ∧
        (s.rangeExists a 1 = false → hostLoad a s = .fault .accessOutsideMemory))) ∧
    (2 ^ W.aw ≤ a → hostStore a v s = .refused .noSuchAddress ∧ hostLoad a s = .refused .noSuchAddress)

/-! ## Reset -/

/-- R220, R36: a reset at any time puts the CORE into IDLE with ERR 0, `buf` and the descriptor zero; outside BF.DIGEST it
does not touch host memory. The values of `h`, `t`, `f`, NINT, SPAN, TAILLEN are left open. -/
def Obligations.ResetLeavesTheSpecifiedState : Prop :=
  ∀ (s : State) (rest : List HostMove), s.script = .reset :: rest →
    ∃ t, step s = .next t ∧ t.phase = .idle ∧ t.err = none ∧ (∀ i : Fin 64, t.buf[i] = 0x00#8) ∧
      (∀ r : BitVec 4, r.toNat ≤ 9 → t.desc.read r = some 0) ∧ (s.phase ≠ .bfDigest → t.mem = s.mem) ∧
      t.absent = s.absent ∧ t.script = rest

/-- R222, U11: a reset inside BF.DIGEST leaves each byte of the output range either as it was or as the digest byte, and
every other byte as it was. -/
def Obligations.ResetInsideDigestLeavesAMixture : Prop :=
  ∀ (s : State) (rest : List HostMove), s.script = .reset :: rest → s.phase = .bfDigest →
    Memory.wf defaultWidths s.mem = true →
    s.desc.hashlen.toNat ≤ 32 → s.rangeOk s.desc.outPtr.toNat s.desc.hashlen.toNat = true →
    ∃ t, step s = .next t ∧
      (∀ i < s.desc.hashlen.toNat,
        Memory.read t.mem (s.desc.outPtr.toNat + i) = Memory.read s.mem (s.desc.outPtr.toNat + i) ∨
        Memory.read t.mem (s.desc.outPtr.toNat + i) = byteAt s.h i) ∧
      ∀ a, (a < s.desc.outPtr.toNat ∨ s.desc.outPtr.toNat + s.desc.hashlen.toNat ≤ a) →
        Memory.read t.mem a = Memory.read s.mem a

/-! ## Host memory -/

/-- A read after a store gives the byte stored, a store leaves every other address alone and keeps the canonical form; and
two memories in that form that read the same at every address are equal data. -/
def Obligations.MemoryReadsBackWhatWasStored : Prop :=
  ∀ W : Widths,
    (∀ (m : Memory) (a : Nat) (v : Byte), Memory.wf W m = true → a < 2 ^ W.aw →
      Memory.read (Memory.write m a v) a = v ∧ (∀ x, x ≠ a → Memory.read (Memory.write m a v) x = Memory.read m x) ∧
        Memory.wf W (Memory.write m a v) = true) ∧
    ∀ m m' : Memory, Memory.wf W m = true → Memory.wf W m' = true → (∀ a, Memory.read m a = Memory.read m' a) → m = m'

/-- R59, U7: a range that wraps is refused, and one with a byte that does not exist is stuck, for every micro-operation that
accesses host memory, at every width. That the micro-operation is refused or stuck as a whole, and that a wrapping range with a
missing byte is refused, is the model's choice (notes/assumptions/19.md). -/
def Obligations.BrokenRangeDutyGivesNoStep : Prop :=
  ∀ (W : Widths) (P : Params) (s : State W) (p n : Nat), firstFailure s.desc = none → s.taillen.toNat ≤ 64 →
    ((s.phase = .pbSalt ∧ p = s.desc.saltPtr.toNat ∧ n = s.desc.saltlen.toNat) ∨
      (s.phase = .pbPers ∧ p = s.desc.persPtr.toNat ∧ n = s.desc.perslen.toNat) ∨
      (s.phase = .bfKeyld ∧ p = s.desc.keyPtr.toNat ∧ n = s.desc.keylen.toNat) ∨
      (s.phase = .bfTailld ∧ p = s.desc.dataPtr.toNat + s.span.toNat ∧ n = s.taillen.toNat) ∨
      (s.phase = .bfIntcmp ∧ p = s.desc.dataPtr.toNat ∧ n = 64 * s.nint.toNat) ∨
      (s.phase = .bfDigest ∧ p = s.desc.outPtr.toNat ∧ n = s.desc.hashlen.toNat)) →
    (2 ^ W.aw < p + n → coreStep P s = .refused .wrappingRange) ∧
    (p + n ≤ 2 ^ W.aw → (∃ g ∈ s.absent, ∃ a, p ≤ a ∧ a < p + n ∧ g.base ≤ a ∧ a < g.base + g.size) →
      coreStep P s = .fault .accessOutsideMemory)

/-- R51: the CORE's step depends on host memory only through the bytes it reads, and changes no byte but those it writes,
for every width, `IV` and `F`. -/
def Obligations.CoreTouchesOnlyItsRanges : Prop :=
  ∀ (W : Widths) (P : Params) (s t : State W) (m : Memory), coreStep P s = .next t →
    (∀ a ∈ coreReads s, Memory.read m a = Memory.read s.mem a) →
    (∃ u, coreStep P { s with mem := m } = .next u ∧ { u with mem := t.mem } = t) ∧
    ∀ a, a ∉ coreWrites s → Memory.read t.mem a = Memory.read s.mem a

/-! ## The whole machine -/

/-- The write columns of R29: what each micro-operation may change, and that the descriptor, the environment and the host's
own fields are never changed by the CORE. -/
def Obligations.CoreWritesAsTheAccessTableSays : Prop :=
  ∀ (W : Widths) (P : Params) (s t : State W), s.phase.busy = true → coreStep P s = .next t →
    (s.phase ∉ [.pbZero, .pbHdr, .pbSalt, .pbPers, .siXoriv, .bfKeycmp, .bfIntcmp, .bfTailcmp] → t.h = s.h) ∧
    (s.phase ∉ [.siClrtf, .bfKeycmp, .bfIntcmp, .bfTailcmp] → t.counter = s.counter) ∧
    (s.phase ∉ [.siClrtf, .bfKeyfin, .bfSetfin] → t.f0 = s.f0) ∧ (s.phase ≠ .siClrtf → t.f1 = s.f1) ∧
    (s.phase ∉ [.bfKeyld, .bfWipe, .bfTailld] → t.buf = s.buf) ∧
    (s.phase ≠ .bfSplit → t.nint = s.nint ∧ t.span = s.span ∧ t.taillen = s.taillen) ∧
    (s.phase ≠ .valid → t.err = s.err) ∧ (s.phase ≠ .bfDigest → t.mem = s.mem) ∧
    t.desc = s.desc ∧ t.absent = s.absent ∧ t.script = s.script ∧ t.hostRead = s.hostRead ∧ t.freeCount = s.freeCount

/-- R232, R231: every micro-operation writes a PHASE value greater than its own, so 17 of them end every invocation: WAIT
with that much fuel never answers a busy state. For every width, `IV` and `F`. -/
def Obligations.EveryInvocationEnds : Prop :=
  (∀ (W : Widths) (P : Params) (s t : State W), s.phase.busy = true → coreStep P s = .next t →
    s.phase.selector.toNat < t.phase.selector.toNat) ∧
  ∀ (W : Widths) (P : Params) (s t : State W), waitDone P invocationFuel s = .next t → t.phase.busy = false

/-- In a state of the invariant whose ranges exist, a busy CORE always has a step: no contract of a sub-block is ever
broken (R90, R97, R120, R137, R190). -/
def Obligations.BusyCoreAlwaysHasAStep : Prop :=
  ∀ (W : Widths) (P : Params) (s : State W), Inv s → s.phase.busy = true → s.rangesOk = true → ∃ t, coreStep P s = .next t

/-- R174: an accepted invocation goes through exactly the PHASE values of its kind of input, and a rejected one through
VALID and ERROR. -/
def Obligations.InvocationFollowsOneOfFourPaths : Prop :=
  ∀ (W : Widths) (P : Params) (s : State W), s.phase = .valid →
    (firstFailure s.desc ≠ none → phasePath P invocationFuel s = [.valid, .error]) ∧
    (firstFailure s.desc = none → s.rangesOk = true →
      phasePath P invocationFuel s =
        [.valid, .pbZero, .pbHdr, .pbSalt, .pbPers, .siXoriv, .siClrtf] ++
        (if s.desc.keylen.toNat ≠ 0 then [.bfKeyld, .bfKeyfin, .bfKeycmp, .bfWipe] else []) ++
        (if s.desc.datalen.toNat ≠ 0 then [.bfSplit, .bfTailld, .bfIntcmp, .bfSetfin, .bfTailcmp] else []) ++
        [.bfDigest, .done])

/-- R132: when an accepted invocation is done, `T` is DATALEN, plus 64 with a key. -/
def Obligations.CounterTotalsTheInput : Prop :=
  ∀ (W : Widths) (P : Params) (s t : State W), s.phase = .valid → firstFailure s.desc = none →
    waitDone P invocationFuel s = .next t →
    t.phase = .done ∧
      t.counter.toNat = (s.desc.datalen.toNat + if 0 < s.desc.keylen.toNat then 64 else 0) % 2 ^ 64

/-- R177: two invocations with the same five lengths and the same bytes in their input ranges write the same digest, wherever
the buffers are, whatever host memory holds elsewhere, and whatever either CORE's state was. -/
def Obligations.EqualInputsGiveEqualDigests : Prop :=
  ∀ (W : Widths) (P : Params) (s s' : State W), s.phase.busy = false → s'.phase.busy = false → Memory.wf W s.mem = true →
    Memory.wf W s'.mem = true → firstFailure s.desc = none → firstFailure s'.desc = none → s.rangesOk = true →
    s'.rangesOk = true → s.desc.hashlen = s'.desc.hashlen → s.desc.datalen = s'.desc.datalen →
    s.desc.keylen = s'.desc.keylen → s.desc.saltlen = s'.desc.saltlen → s.desc.perslen = s'.desc.perslen →
    (∀ k < s.desc.datalen.toNat,
      Memory.read s.mem (s.desc.dataPtr.toNat + k) = Memory.read s'.mem (s'.desc.dataPtr.toNat + k)) →
    (∀ k < s.desc.keylen.toNat,
      Memory.read s.mem (s.desc.keyPtr.toNat + k) = Memory.read s'.mem (s'.desc.keyPtr.toNat + k)) →
    (∀ k < s.desc.saltlen.toNat,
      Memory.read s.mem (s.desc.saltPtr.toNat + k) = Memory.read s'.mem (s'.desc.saltPtr.toNat + k)) →
    (∀ k < s.desc.perslen.toNat,
      Memory.read s.mem (s.desc.persPtr.toNat + k) = Memory.read s'.mem (s'.desc.persPtr.toNat + k)) →
    ∃ t t', andThen (startInvocation s) (waitDone P invocationFuel) = .next t ∧
      andThen (startInvocation s') (waitDone P invocationFuel) = .next t' ∧
      ∀ i < s.desc.hashlen.toNat,
        Memory.read t.mem (s.desc.outPtr.toNat + i) = Memory.read t'.mem (s'.desc.outPtr.toNat + i)

/-- R33: nothing but a host line and reset changes the descriptor. -/
def Obligations.OnlyTheHostChangesTheDescriptor : Prop :=
  ∀ s t : State, step s = .next t → t.desc ≠ s.desc →
    (∃ r v rest, s.script = .write r v :: rest) ∨ (∃ c ops rest, s.script = .command c ops :: rest) ∨
      ∃ rest, s.script = .reset :: rest

/-- R30: IDLE, DONE and ERROR are left only by a host line that begins an invocation, or by reset. The line is START, after which
PHASE is VALID, in its own encoding or as a plain write of CMD; or HASH or HASH_EX, which in this model reach DONE or ERROR in one
step (notes/assumptions/9.md). -/
def Obligations.OnlyStartLeavesARestingPhase : Prop :=
  ∀ s t : State, s.phase.busy = false → step s = .next t → t.phase ≠ s.phase →
    (∃ ops rest, s.script = .command 0x01#8 ops :: rest ∧ (ops = [] → t.phase = .valid) ∧
      (ops ≠ [] → t.phase = .done ∨ t.phase = .error)) ∨
      (∃ rest, s.script = .write 10#4 0x01 :: rest ∧ t.phase = .valid) ∨
      ∃ rest, s.script = .reset :: rest ∧ t.phase = .idle

/-- The invariant holds after reset, at every width and whatever the free values are. -/
def Obligations.InvariantHoldsAtReset : Prop := Inv State.reset ∧ ∀ W : Widths, Inv (State.resetAt W)

/-- Every step, whoever moves, keeps the invariant, and so does every CORE step at every width, `IV` and `F`: the canonical form of
memory, ERR exactly in ERROR, an accepted descriptor from PB.ZERO on, the split, the counter total, the flags, the zero tail of
the buffer (R23, R27, R28, R31, R76, R90, R120, R132, R133, R227). -/
def Obligations.EveryStepKeepsTheInvariant : Prop :=
  (∀ s t : State, Inv s → step s = .next t → Inv t) ∧
    ∀ (W : Widths) (P : Params) (s t : State W), Inv s → coreStep P s = .next t → Inv t

/-- Every step, from any state at all, keeps host memory in its canonical form. -/
def Obligations.EveryStepKeepsMemoryCanonical : Prop :=
  ∀ s t : State, Memory.wf defaultWidths s.mem = true → step s = .next t → Memory.wf defaultWidths t.mem = true
end

