-- ==== Sys2Proof/Laws/State.lean ====
section
/-! SUPPORT. One lemma per field per named update of State, each true by rfl, so that no proof unfolds an update. -/

/-! The fixed sizes as numbers (R5). -/

namespace Sys2Proof.Config

@[simp] theorem blockBytes_eq : blockBytes = 64 := rfl
@[simp] theorem outMax_eq : outMax = 32 := rfl
@[simp] theorem keyMax_eq : keyMax = 32 := rfl
@[simp] theorem saltMax_eq : saltMax = 8 := rfl
@[simp] theorem persMax_eq : persMax = 8 := rfl

end Sys2Proof.Config

namespace Sys2Proof.Machine

open Sys2Proof.Config

variable {W : Widths}

@[simp] theorem setFinal_h (s : State W) : (setFinal s).h = s.h := rfl
@[simp] theorem setFinal_t0 (s : State W) : (setFinal s).t0 = s.t0 := rfl
@[simp] theorem setFinal_t1 (s : State W) : (setFinal s).t1 = s.t1 := rfl
@[simp] theorem setFinal_f0 (s : State W) : (setFinal s).f0 = allOnes := rfl
@[simp] theorem setFinal_f1 (s : State W) : (setFinal s).f1 = s.f1 := rfl
@[simp] theorem setFinal_buf (s : State W) : (setFinal s).buf = s.buf := rfl
@[simp] theorem setFinal_nint (s : State W) : (setFinal s).nint = s.nint := rfl
@[simp] theorem setFinal_span (s : State W) : (setFinal s).span = s.span := rfl
@[simp] theorem setFinal_taillen (s : State W) : (setFinal s).taillen = s.taillen := rfl
@[simp] theorem setFinal_phase (s : State W) : (setFinal s).phase = s.phase := rfl
@[simp] theorem setFinal_err (s : State W) : (setFinal s).err = s.err := rfl
@[simp] theorem setFinal_desc (s : State W) : (setFinal s).desc = s.desc := rfl
@[simp] theorem setFinal_mem (s : State W) : (setFinal s).mem = s.mem := rfl
@[simp] theorem setFinal_absent (s : State W) : (setFinal s).absent = s.absent := rfl
@[simp] theorem setFinal_script (s : State W) : (setFinal s).script = s.script := rfl
@[simp] theorem setFinal_hostRead (s : State W) : (setFinal s).hostRead = s.hostRead := rfl
@[simp] theorem setFinal_freeCount (s : State W) : (setFinal s).freeCount = s.freeCount := rfl

@[simp] theorem clearCounterAndFlags_h (s : State W) : (clearCounterAndFlags s).h = s.h := rfl
@[simp] theorem clearCounterAndFlags_t0 (s : State W) : (clearCounterAndFlags s).t0 = 0#32 := rfl
@[simp] theorem clearCounterAndFlags_t1 (s : State W) : (clearCounterAndFlags s).t1 = 0#32 := rfl
@[simp] theorem clearCounterAndFlags_f0 (s : State W) : (clearCounterAndFlags s).f0 = 0#32 := rfl
@[simp] theorem clearCounterAndFlags_f1 (s : State W) : (clearCounterAndFlags s).f1 = 0#32 := rfl
@[simp] theorem clearCounterAndFlags_buf (s : State W) : (clearCounterAndFlags s).buf = s.buf := rfl
@[simp] theorem clearCounterAndFlags_nint (s : State W) : (clearCounterAndFlags s).nint = s.nint := rfl
@[simp] theorem clearCounterAndFlags_span (s : State W) : (clearCounterAndFlags s).span = s.span := rfl
@[simp] theorem clearCounterAndFlags_taillen (s : State W) : (clearCounterAndFlags s).taillen = s.taillen := rfl
@[simp] theorem clearCounterAndFlags_phase (s : State W) : (clearCounterAndFlags s).phase = s.phase := rfl
@[simp] theorem clearCounterAndFlags_err (s : State W) : (clearCounterAndFlags s).err = s.err := rfl
@[simp] theorem clearCounterAndFlags_desc (s : State W) : (clearCounterAndFlags s).desc = s.desc := rfl
@[simp] theorem clearCounterAndFlags_mem (s : State W) : (clearCounterAndFlags s).mem = s.mem := rfl
@[simp] theorem clearCounterAndFlags_absent (s : State W) : (clearCounterAndFlags s).absent = s.absent := rfl
@[simp] theorem clearCounterAndFlags_script (s : State W) : (clearCounterAndFlags s).script = s.script := rfl
@[simp] theorem clearCounterAndFlags_hostRead (s : State W) : (clearCounterAndFlags s).hostRead = s.hostRead := rfl
@[simp] theorem clearCounterAndFlags_freeCount (s : State W) : (clearCounterAndFlags s).freeCount = s.freeCount := rfl

@[simp] theorem setCounter_h (v : Counter) (s : State W) : (setCounter v s).h = s.h := rfl
@[simp] theorem setCounter_t0 (v : Counter) (s : State W) : (setCounter v s).t0 = v.extractLsb' 0 32 := rfl
@[simp] theorem setCounter_t1 (v : Counter) (s : State W) : (setCounter v s).t1 = v.extractLsb' 32 32 := rfl
@[simp] theorem setCounter_f0 (v : Counter) (s : State W) : (setCounter v s).f0 = s.f0 := rfl
@[simp] theorem setCounter_f1 (v : Counter) (s : State W) : (setCounter v s).f1 = s.f1 := rfl
@[simp] theorem setCounter_buf (v : Counter) (s : State W) : (setCounter v s).buf = s.buf := rfl
@[simp] theorem setCounter_nint (v : Counter) (s : State W) : (setCounter v s).nint = s.nint := rfl
@[simp] theorem setCounter_span (v : Counter) (s : State W) : (setCounter v s).span = s.span := rfl
@[simp] theorem setCounter_taillen (v : Counter) (s : State W) : (setCounter v s).taillen = s.taillen := rfl
@[simp] theorem setCounter_phase (v : Counter) (s : State W) : (setCounter v s).phase = s.phase := rfl
@[simp] theorem setCounter_err (v : Counter) (s : State W) : (setCounter v s).err = s.err := rfl
@[simp] theorem setCounter_desc (v : Counter) (s : State W) : (setCounter v s).desc = s.desc := rfl
@[simp] theorem setCounter_mem (v : Counter) (s : State W) : (setCounter v s).mem = s.mem := rfl
@[simp] theorem setCounter_absent (v : Counter) (s : State W) : (setCounter v s).absent = s.absent := rfl
@[simp] theorem setCounter_script (v : Counter) (s : State W) : (setCounter v s).script = s.script := rfl
@[simp] theorem setCounter_hostRead (v : Counter) (s : State W) : (setCounter v s).hostRead = s.hostRead := rfl
@[simp] theorem setCounter_freeCount (v : Counter) (s : State W) : (setCounter v s).freeCount = s.freeCount := rfl

@[simp] theorem raise_h (k : ErrorKind) (s : State W) : (raise k s).h = s.h := rfl
@[simp] theorem raise_t0 (k : ErrorKind) (s : State W) : (raise k s).t0 = s.t0 := rfl
@[simp] theorem raise_t1 (k : ErrorKind) (s : State W) : (raise k s).t1 = s.t1 := rfl
@[simp] theorem raise_f0 (k : ErrorKind) (s : State W) : (raise k s).f0 = s.f0 := rfl
@[simp] theorem raise_f1 (k : ErrorKind) (s : State W) : (raise k s).f1 = s.f1 := rfl
@[simp] theorem raise_buf (k : ErrorKind) (s : State W) : (raise k s).buf = s.buf := rfl
@[simp] theorem raise_nint (k : ErrorKind) (s : State W) : (raise k s).nint = s.nint := rfl
@[simp] theorem raise_span (k : ErrorKind) (s : State W) : (raise k s).span = s.span := rfl
@[simp] theorem raise_taillen (k : ErrorKind) (s : State W) : (raise k s).taillen = s.taillen := rfl
@[simp] theorem raise_phase (k : ErrorKind) (s : State W) : (raise k s).phase = .error := rfl
@[simp] theorem raise_err (k : ErrorKind) (s : State W) : (raise k s).err = some k := rfl
@[simp] theorem raise_desc (k : ErrorKind) (s : State W) : (raise k s).desc = s.desc := rfl
@[simp] theorem raise_mem (k : ErrorKind) (s : State W) : (raise k s).mem = s.mem := rfl
@[simp] theorem raise_absent (k : ErrorKind) (s : State W) : (raise k s).absent = s.absent := rfl
@[simp] theorem raise_script (k : ErrorKind) (s : State W) : (raise k s).script = s.script := rfl
@[simp] theorem raise_hostRead (k : ErrorKind) (s : State W) : (raise k s).hostRead = s.hostRead := rfl
@[simp] theorem raise_freeCount (k : ErrorKind) (s : State W) : (raise k s).freeCount = s.freeCount := rfl

@[simp] theorem beginInvocation_h (s : State W) : (beginInvocation s).h = s.h := rfl
@[simp] theorem beginInvocation_t0 (s : State W) : (beginInvocation s).t0 = s.t0 := rfl
@[simp] theorem beginInvocation_t1 (s : State W) : (beginInvocation s).t1 = s.t1 := rfl
@[simp] theorem beginInvocation_f0 (s : State W) : (beginInvocation s).f0 = s.f0 := rfl
@[simp] theorem beginInvocation_f1 (s : State W) : (beginInvocation s).f1 = s.f1 := rfl
@[simp] theorem beginInvocation_buf (s : State W) : (beginInvocation s).buf = s.buf := rfl
@[simp] theorem beginInvocation_nint (s : State W) : (beginInvocation s).nint = s.nint := rfl
@[simp] theorem beginInvocation_span (s : State W) : (beginInvocation s).span = s.span := rfl
@[simp] theorem beginInvocation_taillen (s : State W) : (beginInvocation s).taillen = s.taillen := rfl
@[simp] theorem beginInvocation_phase (s : State W) : (beginInvocation s).phase = .valid := rfl
@[simp] theorem beginInvocation_err (s : State W) : (beginInvocation s).err = none := rfl
@[simp] theorem beginInvocation_desc (s : State W) : (beginInvocation s).desc = s.desc := rfl
@[simp] theorem beginInvocation_mem (s : State W) : (beginInvocation s).mem = s.mem := rfl
@[simp] theorem beginInvocation_absent (s : State W) : (beginInvocation s).absent = s.absent := rfl
@[simp] theorem beginInvocation_script (s : State W) : (beginInvocation s).script = s.script := rfl
@[simp] theorem beginInvocation_hostRead (s : State W) : (beginInvocation s).hostRead = s.hostRead := rfl
@[simp] theorem beginInvocation_freeCount (s : State W) : (beginInvocation s).freeCount = s.freeCount := rfl

@[simp] theorem pollStatus_h (s : State W) : (pollStatus s).h = s.h := rfl
@[simp] theorem pollStatus_t0 (s : State W) : (pollStatus s).t0 = s.t0 := rfl
@[simp] theorem pollStatus_t1 (s : State W) : (pollStatus s).t1 = s.t1 := rfl
@[simp] theorem pollStatus_f0 (s : State W) : (pollStatus s).f0 = s.f0 := rfl
@[simp] theorem pollStatus_f1 (s : State W) : (pollStatus s).f1 = s.f1 := rfl
@[simp] theorem pollStatus_buf (s : State W) : (pollStatus s).buf = s.buf := rfl
@[simp] theorem pollStatus_nint (s : State W) : (pollStatus s).nint = s.nint := rfl
@[simp] theorem pollStatus_span (s : State W) : (pollStatus s).span = s.span := rfl
@[simp] theorem pollStatus_taillen (s : State W) : (pollStatus s).taillen = s.taillen := rfl
@[simp] theorem pollStatus_phase (s : State W) : (pollStatus s).phase = s.phase := rfl
@[simp] theorem pollStatus_err (s : State W) : (pollStatus s).err = s.err := rfl
@[simp] theorem pollStatus_desc (s : State W) : (pollStatus s).desc = s.desc := rfl
@[simp] theorem pollStatus_mem (s : State W) : (pollStatus s).mem = s.mem := rfl
@[simp] theorem pollStatus_absent (s : State W) : (pollStatus s).absent = s.absent := rfl
@[simp] theorem pollStatus_script (s : State W) : (pollStatus s).script = s.script := rfl
@[simp] theorem pollStatus_hostRead (s : State W) : (pollStatus s).hostRead = s.status.toNat := rfl
@[simp] theorem pollStatus_freeCount (s : State W) : (pollStatus s).freeCount = s.freeCount := rfl

@[simp] theorem compress1_h (P : Config.Params) (blk : Block) (inc : Nat) (s : State W) : (compress1 P blk inc s).h = P.compress s.h blk (s.counter + BitVec.ofNat 64 inc) s.f0 s.f1 := rfl
@[simp] theorem compress1_t0 (P : Config.Params) (blk : Block) (inc : Nat) (s : State W) : (compress1 P blk inc s).t0 = (s.counter + BitVec.ofNat 64 inc).extractLsb' 0 32 := rfl
@[simp] theorem compress1_t1 (P : Config.Params) (blk : Block) (inc : Nat) (s : State W) : (compress1 P blk inc s).t1 = (s.counter + BitVec.ofNat 64 inc).extractLsb' 32 32 := rfl
@[simp] theorem compress1_f0 (P : Config.Params) (blk : Block) (inc : Nat) (s : State W) : (compress1 P blk inc s).f0 = s.f0 := rfl
@[simp] theorem compress1_f1 (P : Config.Params) (blk : Block) (inc : Nat) (s : State W) : (compress1 P blk inc s).f1 = s.f1 := rfl
@[simp] theorem compress1_buf (P : Config.Params) (blk : Block) (inc : Nat) (s : State W) : (compress1 P blk inc s).buf = s.buf := rfl
@[simp] theorem compress1_nint (P : Config.Params) (blk : Block) (inc : Nat) (s : State W) : (compress1 P blk inc s).nint = s.nint := rfl
@[simp] theorem compress1_span (P : Config.Params) (blk : Block) (inc : Nat) (s : State W) : (compress1 P blk inc s).span = s.span := rfl
@[simp] theorem compress1_taillen (P : Config.Params) (blk : Block) (inc : Nat) (s : State W) : (compress1 P blk inc s).taillen = s.taillen := rfl
@[simp] theorem compress1_phase (P : Config.Params) (blk : Block) (inc : Nat) (s : State W) : (compress1 P blk inc s).phase = s.phase := rfl
@[simp] theorem compress1_err (P : Config.Params) (blk : Block) (inc : Nat) (s : State W) : (compress1 P blk inc s).err = s.err := rfl
@[simp] theorem compress1_desc (P : Config.Params) (blk : Block) (inc : Nat) (s : State W) : (compress1 P blk inc s).desc = s.desc := rfl
@[simp] theorem compress1_mem (P : Config.Params) (blk : Block) (inc : Nat) (s : State W) : (compress1 P blk inc s).mem = s.mem := rfl
@[simp] theorem compress1_absent (P : Config.Params) (blk : Block) (inc : Nat) (s : State W) : (compress1 P blk inc s).absent = s.absent := rfl
@[simp] theorem compress1_script (P : Config.Params) (blk : Block) (inc : Nat) (s : State W) : (compress1 P blk inc s).script = s.script := rfl
@[simp] theorem compress1_hostRead (P : Config.Params) (blk : Block) (inc : Nat) (s : State W) : (compress1 P blk inc s).hostRead = s.hostRead := rfl
@[simp] theorem compress1_freeCount (P : Config.Params) (blk : Block) (inc : Nat) (s : State W) : (compress1 P blk inc s).freeCount = s.freeCount := rfl

end Sys2Proof.Machine
end

