-- ==== Sys2Proof/Laws/Memory.lean ====
section
/-! SUPPORT. Host memory: what a read gives after a store, that every memory operation keeps the canonical form, and what the
multi-byte operations do byte by byte. -/

namespace Sys2Proof.Machine

open Sys2Proof.Config

variable {W : Widths}

@[simp] theorem Memory.read_nil (x : Nat) : Memory.read [] x = unlistedByte := rfl

theorem Memory.read_cons (a : Nat) (b : Byte) (m : Memory) (x : Nat) :
    Memory.read ((a, b) :: m) x = if x = a then b else Memory.read m x := rfl

theorem Memory.wf_cons {a : Nat} {b : Byte} {m : Memory} :
    Memory.wf W ((a, b) :: m) = true ↔
      a < 2 ^ W.aw ∧ b ≠ unlistedByte ∧ (∀ c ∈ m, a < c.1) ∧ Memory.wf W m = true := by
  simp [Memory.wf, and_assoc]

/-- An address below every listed one reads as unlisted. -/
theorem Memory.read_of_below {m : Memory} {x : Nat} (h : ∀ c ∈ m, x < c.1) : Memory.read m x = unlistedByte := by
  induction m with
  | nil => rfl
  | cons c m ih =>
    obtain ⟨a, b⟩ := c
    have ha : x < a := h (a, b) (by simp)
    rw [Memory.read_cons, if_neg (by omega)]
    exact ih fun c hc => h c (by simp [hc])

/-- A store leaves every other address alone (whatever the form of the memory). -/
theorem Memory.read_write_other {x y : Nat} (h : y ≠ x) (m : Memory) (v : Byte) :
    Memory.read (Memory.write m x v) y = Memory.read m y := by
  induction m with
  | nil => by_cases hv : v = unlistedByte <;> simp [Memory.write, Memory.read_cons, hv, h]
  | cons c m ih =>
    obtain ⟨a, b⟩ := c
    unfold Memory.write
    split
    · split <;> simp [Memory.read_cons, h]
    · split
      · rename_i hxa
        subst hxa
        split <;> simp [Memory.read_cons, h]
      · simp [Memory.read_cons, ih]

/-- A read after a store to the same place gives the value stored. -/
theorem Memory.read_write_same {m : Memory} (hm : Memory.wf W m = true) (x : Nat) (v : Byte) :
    Memory.read (Memory.write m x v) x = v := by
  induction m with
  | nil => by_cases hv : v = unlistedByte <;> simp [Memory.write, Memory.read_cons, hv]
  | cons c m ih =>
    obtain ⟨a, b⟩ := c
    obtain ⟨-, -, hlt, hwf⟩ := Memory.wf_cons.1 hm
    unfold Memory.write
    split
    · split
      · rename_i hxa hv
        rw [Memory.read_cons, if_neg (by omega), Memory.read_of_below, hv]
        exact fun c hc => by have := hlt c hc; omega
      · simp [Memory.read_cons]
    · split
      · rename_i hxa
        subst hxa
        split
        · rename_i hv
          rw [Memory.read_of_below hlt, hv]
        · simp [Memory.read_cons]
      · rename_i hxa
        rw [Memory.read_cons, if_neg hxa, ih hwf]

/-- The entries of a memory after a store are its own and the stored one. -/
theorem Memory.mem_write {m : Memory} {x : Nat} {v : Byte} {c : Host.Cell} (h : c ∈ Memory.write m x v) :
    c = (x, v) ∨ c ∈ m := by
  induction m with
  | nil =>
    unfold Memory.write at h
    split at h <;> simp_all
  | cons d m ih =>
    obtain ⟨a, b⟩ := d
    unfold Memory.write at h
    split at h
    · split at h
      · exact .inr h
      · simpa using h
    · split at h
      · split at h
        · exact .inr (by simp [h])
        · rcases List.mem_cons.1 h with h | h
          · exact .inl h
          · exact .inr (by simp [h])
      · rcases List.mem_cons.1 h with h | h
        · exact .inr (by simp [h])
        · rcases ih h with h | h
          · exact .inl h
          · exact .inr (by simp [h])

/-- A store inside the address space keeps the canonical form. -/
theorem Memory.wf_write {m : Memory} (hm : Memory.wf W m = true) {x : Nat} (hx : x < 2 ^ W.aw) (v : Byte) :
    Memory.wf W (Memory.write m x v) = true := by
  induction m with
  | nil =>
    unfold Memory.write
    split
    · rfl
    · rename_i hv
      exact Memory.wf_cons.2 ⟨hx, hv, by simp, rfl⟩
  | cons c m ih =>
    obtain ⟨a, b⟩ := c
    obtain ⟨ha, hb, hlt, hwf⟩ := Memory.wf_cons.1 hm
    unfold Memory.write
    split
    · rename_i hxa
      split
      · exact hm
      · rename_i hv
        refine Memory.wf_cons.2 ⟨hx, hv, fun c hc => ?_, hm⟩
        rcases List.mem_cons.1 hc with rfl | hc
        · exact hxa
        · have := hlt c hc
          omega
    · split
      · rename_i hxa
        subst hxa
        split
        · exact hwf
        · rename_i hv
          exact Memory.wf_cons.2 ⟨hx, hv, hlt, hwf⟩
      · rename_i hxa hne
        refine Memory.wf_cons.2 ⟨ha, hb, fun c hc => ?_, ih hwf⟩
        rcases Memory.mem_write hc with rfl | hc
        · simp only
          omega
        · exact hlt c hc

/-! Several bytes. -/

@[simp] theorem readBytes_length (m : Memory) (p n : Nat) : (readBytes m p n).length = n := by simp [readBytes]

@[simp] theorem readBytes_zero (m : Memory) (p : Nat) : readBytes m p 0 = [] := rfl

theorem readBytes_getElem (m : Memory) (p n k : Nat) (h : k < (readBytes m p n).length) :
    (readBytes m p n)[k] = Memory.read m (p + k) := by simp [readBytes]

/-- The `k`-th byte read, or the default past the end. -/
theorem readBytes_getD (m : Memory) (p n k : Nat) (d : Byte) :
    (readBytes m p n).getD k d = if k < n then Memory.read m (p + k) else d := by
  by_cases h : k < n <;> simp [readBytes, List.getD_eq_getElem?_getD, h]

/-- Reading again after memory changed elsewhere gives the same bytes. -/
theorem readBytes_congr {m m' : Memory} {p n : Nat} (h : ∀ k < n, Memory.read m (p + k) = Memory.read m' (p + k)) :
    readBytes m p n = readBytes m' p n := by
  simp only [readBytes]
  exact List.map_congr_left fun k hk => h k (List.mem_range.1 hk)

theorem storeBytes_wf {m : Memory} (hm : Memory.wf W m = true) {p : Nat} {bs : List Byte} (h : p + bs.length ≤ 2 ^ W.aw) :
    Memory.wf W (storeBytes m p bs) = true := by
  induction bs generalizing m p with
  | nil => exact hm
  | cons b bs ih =>
    simp only [List.length_cons] at h
    exact ih (Memory.wf_write hm (by omega) b) (by omega)

/-- Every byte outside the stored ones reads as before. -/
theorem read_storeBytes_other {p x : Nat} {bs : List Byte} (h : x < p ∨ p + bs.length ≤ x) (m : Memory) :
    Memory.read (storeBytes m p bs) x = Memory.read m x := by
  induction bs generalizing m p with
  | nil => rfl
  | cons b bs ih =>
    simp only [List.length_cons] at h
    rw [storeBytes, ih (by omega), Memory.read_write_other (by omega)]

/-- The stored bytes read back. -/
theorem read_storeBytes_same {m : Memory} (hm : Memory.wf W m = true) {p k : Nat} {bs : List Byte}
    (hp : p + bs.length ≤ 2 ^ W.aw) (hk : k < bs.length) :
    Memory.read (storeBytes m p bs) (p + k) = bs[k] := by
  induction bs generalizing m p k with
  | nil => simp at hk
  | cons b bs ih =>
    simp only [List.length_cons] at hp hk
    cases k with
    | zero => rw [storeBytes, read_storeBytes_other (by omega), Nat.add_zero, Memory.read_write_same hm]; rfl
    | succ k =>
      have := ih (Memory.wf_write hm (x := p) (by omega) b) (p := p + 1) (k := k) (by omega) (by omega)
      rw [storeBytes, show p + (k + 1) = p + 1 + k by omega, this]
      rfl

/-- A masked store changes only addresses of its range, each to the byte given for it. -/
theorem read_storeMasked {m : Memory} (hm : Memory.wf W m = true) (mask : BitVec 32) {p k : Nat} {bs : List Byte}
    (hp : p + k + bs.length ≤ 2 ^ W.aw) (x : Nat) :
    Memory.read (storeMasked mask m p k bs) x = Memory.read m x ∨
      ∃ j, ∃ h : j < bs.length, x = p + k + j ∧ Memory.read (storeMasked mask m p k bs) x = bs[j] := by
  induction bs generalizing m k with
  | nil => exact .inl rfl
  | cons b bs ih =>
    simp only [List.length_cons] at hp
    have hw : Memory.wf W (if mask.getLsbD k then Memory.write m (p + k) b else m) = true := by
      split
      · exact Memory.wf_write hm (by omega) b
      · exact hm
    rcases ih hw (k := k + 1) (by omega) with h | ⟨j, hj, hx, hr⟩
    · by_cases hx : x = p + k
      · by_cases hb : mask.getLsbD k = true
        · refine .inr ⟨0, by simp, by simpa using hx, ?_⟩
          subst hx
          rw [storeMasked, h, if_pos hb, Memory.read_write_same hm]
          rfl
        · exact .inl (by rw [storeMasked, h, if_neg hb])
      · refine .inl ?_
        rw [storeMasked, h]
        split
        · rw [Memory.read_write_other hx]
        · rfl
    · exact .inr ⟨j + 1, by simpa using hj, by omega, by rw [storeMasked, hr]; rfl⟩

theorem storeMasked_wf {m : Memory} (hm : Memory.wf W m = true) (mask : BitVec 32) {p k : Nat} {bs : List Byte}
    (hp : p + k + bs.length ≤ 2 ^ W.aw) : Memory.wf W (storeMasked mask m p k bs) = true := by
  induction bs generalizing m k with
  | nil => exact hm
  | cons b bs ih =>
    simp only [List.length_cons] at hp
    refine ih ?_ (by omega)
    split
    · exact Memory.wf_write hm (by omega) b
    · exact hm

/-- Memory at reset is in the canonical form. -/
theorem reset_memory_wf : Memory.wf W State.reset.mem = true := rfl

end Sys2Proof.Machine
end

