-- ==== Sys2Proof/Laws/Bytes.lean ====
section
/-! SUPPORT. Bytes of words (00_scope.md R8, R9): what replacing a byte changes, that a word and a chaining state are determined
by their bytes, and what the byte-wise writes of the parameter block change. -/

namespace Sys2Proof.Machine

open Sys2Proof.Config

variable {W : Widths}

theorem byteOf_replaceByte (w : Word) (v : Byte) {k l : Nat} (hk : k < 4) (hl : l < 4) :
    byteOf l (replaceByte w k v) = if l = k then v else byteOf l w := by
  ext i hi
  simp only [byteOf, replaceByte, BitVec.getElem_setWidth, BitVec.getLsbD_ushiftRight, BitVec.getLsbD_or,
    BitVec.getLsbD_and, BitVec.getLsbD_not, BitVec.getLsbD_shiftLeft, BitVec.getLsbD_setWidth]
  split
  · subst_vars
    have : (0xFF#32).getLsbD i = true := by interval_cases i <;> rfl
    simp [this, show 8 * l + i < 32 by omega, hi, show i < 32 by omega, BitVec.getLsbD_eq_getElem]
  · have h255 : ∀ j, (0xFF#32).getLsbD j = decide (j < 8) := by
      intro j
      by_cases hj : j < 8
      · interval_cases j <;> rfl
      · simp only [hj, decide_false]
        have : (0xFF#32 : BitVec 32) = (0xFF#8).setWidth 32 := by decide
        rw [this, BitVec.getLsbD_setWidth, BitVec.getLsbD_of_ge _ _ (by omega)]; simp
    rcases Nat.lt_or_gt_of_ne ‹¬ l = k› with h | h
    · simp [show 8 * l + i < 8 * k by omega, show 8 * l + i < 32 by omega, BitVec.getElem_setWidth]
    · rw [h255]
      simp [show ¬ 8 * l + i < 8 * k by omega, show ¬ (8 * l + i - 8 * k < 8) by omega, show 8 * l + i < 32 by omega, BitVec.getLsbD_of_ge v (8 * l + i - 8 * k) (by omega)]

theorem byteOf_le32 (b0 b1 b2 b3 : Byte) :
    byteOf 0 (le32 b0 b1 b2 b3) = b0 ∧ byteOf 1 (le32 b0 b1 b2 b3) = b1 ∧ byteOf 2 (le32 b0 b1 b2 b3) = b2 ∧
      byteOf 3 (le32 b0 b1 b2 b3) = b3 := by
  refine ⟨?_, ?_, ?_, ?_⟩ <;> ext i hi <;> 
    simp only [byteOf, le32, BitVec.getElem_setWidth, BitVec.getLsbD_ushiftRight, BitVec.getLsbD_or, BitVec.getLsbD_shiftLeft, BitVec.getLsbD_setWidth] <;>
    interval_cases i <;> simp 

theorem word_ext_bytes {v w : Word} (h : ∀ k < 4, byteOf k v = byteOf k w) : v = w := by
  apply BitVec.eq_of_getLsbD_eq
  intro i hi
  have := congrArg (fun b : Byte => b.getLsbD (i % 8)) (h (i / 8) (by omega))
  simpa [byteOf, BitVec.getLsbD_setWidth, BitVec.getLsbD_ushiftRight, Nat.mod_lt, Nat.div_add_mod] using this
/-- Eight words are determined by their 32 bytes. -/
theorem chain_ext_bytes {g h : Chain} (e : ∀ j < 32, byteAt g j = byteAt h j) : g = h := by
  ext1 i hi
  refine word_ext_bytes fun k hk => ?_
  have := e (4 * i + k) (by omega)
  simpa [byteAt, show (4 * i + k) % 4 = k by omega, show (4 * i + k) / 4 = i by omega, hi] using this

theorem byteAt_eq {h : Chain} {i k : Nat} (hi : i < 8) (hk : k < 4) : byteAt h (4 * i + k) = byteOf k h[i] := by
  simp [byteAt, show (4 * i + k) % 4 = k by omega, show (4 * i + k) / 4 = i by omega, hi]

/-- `Pb[j] <- v` writes byte `j` and no other (R9). -/
theorem byteAt_setPb (h : Chain) {j l : Nat} (v : Byte) (hj : j < 32) :
    byteAt (setPb h j v) l = if l = j then v else byteAt h l := by
  have hj4 : j / 4 < 8 := by omega
  by_cases hw : l / 4 = j / 4
  · simp only [byteAt, setPb, hw]
    rw [Vector.getElem?_setIfInBounds_self_of_lt hj4]
    simp only [Option.getD_some]
    rw [byteOf_replaceByte _ _ (by omega) (by omega)]
    by_cases hlj : l = j
    · simp [hlj]
    · simp [hlj, show ¬ l % 4 = j % 4 by omega]
  · have hne : l ≠ j := by rintro rfl; exact hw rfl
    simp only [byteAt, setPb, hne, if_false]
    rw [Vector.getElem?_setIfInBounds_ne (Ne.symm hw)]

/-- The bytes of a chain after a run of byte writes. -/
theorem byteAt_writePb (bs : List Byte) (h : Chain) {off l : Nat} (ho : off + bs.length ≤ 32) :
    byteAt (writePb h off bs) l = if off ≤ l ∧ l < off + bs.length then bs.getD (l - off) 0#8 else byteAt h l := by
  induction bs generalizing h off with
  | nil => simp [writePb, show ¬ (off ≤ l ∧ l < off) by omega]
  | cons b bs ih =>
    simp only [List.length_cons] at ho
    rw [writePb, ih _ (by omega), byteAt_setPb _ _ (by omega)]
    by_cases h1 : off + 1 ≤ l ∧ l < off + 1 + bs.length
    · rw [if_pos h1, if_pos (by simp only [List.length_cons]; omega), show l - off = (l - (off + 1)) + 1 by omega]
      simp
    · by_cases h2 : l = off
      · subst h2
        simp
      · rw [if_neg h1, if_neg h2, if_neg (by simp only [List.length_cons]; omega)]

/-! The parameter block's bytes. -/

/-- The bytes of the eight words of a block are the block's. -/
theorem byteAt_blockWords (pb : ParamBlock) {j : Nat} (hj : j < 32) : byteAt (blockWords pb) j = pb[j] := by
  obtain ⟨i, k, hi, hk, rfl⟩ : ∃ i k, i < 8 ∧ k < 4 ∧ j = 4 * i + k := ⟨j / 4, j % 4, by omega, by omega, by omega⟩
  rw [byteAt_eq hi hk]
  simp only [blockWords, Vector.getElem_ofFn]
  obtain ⟨e0, e1, e2, e3⟩ := byteOf_le32 pb[4 * i] pb[4 * i + 1] pb[4 * i + 2] pb[4 * i + 3]
  interval_cases k <;> simp [*]

/-- A block is determined by its eight words. -/
theorem blockWords_injective {a b : ParamBlock} (h : blockWords a = blockWords b) : a = b := by
  ext1 j hj
  rw [← byteAt_blockWords a hj, h, byteAt_blockWords b hj]

theorem byteAt_zeroChain {j : Nat} (hj : j < 32) : byteAt (Vector.replicate 8 0#32) j = 0#8 :=
  (show ∀ j < 32, byteAt (Vector.replicate 8 0#32) j = 0#8 by decide) j hj

/-- Setting the first word sets bytes 0 to 3 and no other. -/
theorem byteAt_setFirst (h : Chain) (w : Word) {j : Nat} (hj : j < 32) :
    byteAt (h.set 0 w) j = if j < 4 then byteOf j w else byteAt h j := by
  obtain ⟨i, k, hi, hk, rfl⟩ : ∃ i k, i < 8 ∧ k < 4 ∧ j = 4 * i + k := ⟨j / 4, j % 4, by omega, by omega, by omega⟩
  rw [byteAt_eq hi hk, byteAt_eq hi hk]
  by_cases h0 : i = 0
  · subst h0
    simp [hk]
  · rw [Vector.getElem_set_ne _ _ (by omega), if_neg (by omega)]

/-- The bytes of the first word of the parameter block, for lengths in range (R73, R92). -/
theorem byteOf_headerWord (d : Descriptor W) (h2 : d.hashlen.toNat ≤ 32) (h3 : d.keylen.toNat ≤ 32) :
    byteOf 0 (headerWord d) = BitVec.ofNat 8 d.hashlen.toNat ∧ byteOf 1 (headerWord d) = BitVec.ofNat 8 d.keylen.toNat ∧
      byteOf 2 (headerWord d) = 1#8 ∧ byteOf 3 (headerWord d) = 1#8 := by
  have all : ∀ a < 33, ∀ b < 33,
      (fun w : Word => byteOf 0 w = BitVec.ofNat 8 a ∧ byteOf 1 w = BitVec.ofNat 8 b ∧ byteOf 2 w = 1#8 ∧ byteOf 3 w = 1#8)
        ((BitVec.ofNat 8 a).setWidth 32 ||| ((BitVec.ofNat 8 b).setWidth 32 <<< 8) ||| 0x00010000#32 ||| 0x01000000#32) := by
    decide +kernel
  have := all d.hashlen.toNat (by omega) d.keylen.toNat (by omega)
  simpa only [headerWord, BitVec.ofNat_toNat] using this

/-- The digest's bytes. -/
theorem digest_length (h : Chain) (n : Nat) : (digest h n).length = n := by simp [digest]

theorem digest_getElem (h : Chain) (n i : Nat) (hi : i < (digest h n).length) : (digest h n)[i] = byteAt h i := by
  simp [digest]

/-- A block padded with zeros, byte by byte. -/
theorem pad64_getElem (bs : List Byte) (i : Nat) (hi : i < 64) : (pad64 bs)[i] = bs.getD i 0#8 := by
  simp [pad64]

/-- A padded buffer of bytes read from host memory, byte by byte (R121, R126). -/
theorem pad64_readBytes_getElem (m : Memory) (p n i : Nat) (hi : i < 64) :
    (pad64 (readBytes m p n))[i] = if i < n then Memory.read m (p + i) else 0#8 := by
  rw [pad64_getElem, readBytes_getD]

@[simp] theorem zeroBlock_getElem (i : Nat) (hi : i < 64) : zeroBlock[i] = 0#8 := by simp [zeroBlock]

end Sys2Proof.Machine
end

