-- ==== Sys2Proof/Laws/Ops.lean ====
section
/-! SUPPORT. One lemma per shared operation that says what it does: sequencing, the range duty, the counter, the compressor
call, validation, and the numbers of the PHASE values. -/

namespace Sys2Proof.Machine

open Sys2Proof.Config

variable {W : Widths}

/-! Sequencing. -/

@[simp] theorem andThen_next (s : State W) (k : State W → Result W) : andThen (.next s) k = k s := rfl
@[simp] theorem andThen_fault (f : Fault) (k : State W → Result W) : andThen (.fault f) k = .fault f := rfl
@[simp] theorem andThen_refused (r : Refusal) (k : State W → Result W) : andThen (.refused r) k = .refused r := rfl

/-- A sequence answers a next state exactly when both parts do. -/
theorem andThen_eq_next {o : Result W} {k : State W → Result W} {t : State W} :
    andThen o k = .next t ↔ ∃ s, o = .next s ∧ k s = .next t := by
  cases o <;> simp [andThen]

/-! Ranges. -/

theorem rangeOk_iff {s : State W} {p n : Nat} :
    s.rangeOk p n = true ↔ p + n ≤ 2 ^ W.aw ∧ s.rangeExists p n = true := by
  simp [State.rangeOk, inSpace]

theorem withRange_of_ok {s : State W} {p n : Nat} (h : s.rangeOk p n = true) (k : Result W) : withRange s p n k = k := by
  obtain ⟨h1, h2⟩ := rangeOk_iff.1 h
  simp [withRange, inSpace, h1, h2]

theorem withRange_eq_next {s : State W} {p n : Nat} {k : Result W} {t : State W} :
    withRange s p n k = .next t ↔ s.rangeOk p n = true ∧ k = .next t := by
  rw [rangeOk_iff]
  by_cases h1 : p + n ≤ 2 ^ W.aw <;> by_cases h2 : s.rangeExists p n = true <;> simp [withRange, inSpace, h1, h2]

/-- A range that wraps is refused (R59, U7). -/
theorem withRange_of_wraps {s : State W} {p n : Nat} (h : 2 ^ W.aw < p + n) (k : Result W) :
    withRange s p n k = .refused .wrappingRange := by
  rw [withRange, if_neg]
  simpa [inSpace] using h

/-- A range with a byte that does not exist is stuck (R59, U7). -/
theorem withRange_of_absent {s : State W} {p n a : Nat} {g : Region} (h : p + n ≤ 2 ^ W.aw) (hg : g ∈ s.absent)
    (hp : p ≤ a ∧ a < p + n) (ha : g.base ≤ a ∧ a < g.base + g.size) (k : Result W) :
    withRange s p n k = .fault .accessOutsideMemory := by
  have hx : ¬ s.rangeExists p n = true := by
    simp only [State.rangeExists, List.all_eq_true]
    intro hall
    have := hall g hg
    simp only [Region.meets, Bool.not_eq_true', decide_eq_false_iff_not, Nat.not_lt] at this
    omega
  rw [withRange, if_pos (by simpa [inSpace] using h), if_neg hx]

/-- A part of a range that exists exists. -/
theorem rangeOk_sub {s : State W} {p n q k : Nat} (h : s.rangeOk p n = true) (hpq : p ≤ q) (hk : q + k ≤ p + n) :
    s.rangeOk q k = true := by
  obtain ⟨h1, h2⟩ := rangeOk_iff.1 h
  refine rangeOk_iff.2 ⟨by omega, ?_⟩
  simp only [State.rangeExists, List.all_eq_true] at h2 ⊢
  intro g hg
  have := h2 g hg
  simp only [Region.meets, Bool.not_eq_true', decide_eq_false_iff_not, Nat.not_lt] at this ⊢
  omega

/-! The counter and the compressor call. -/

@[simp] theorem setCounter_counter (v : Counter) (s : State W) : (setCounter v s).counter = v := by
  refine BitVec.eq_of_getLsbD_eq fun i hi => ?_
  simp only [State.counter, setCounter_t0, setCounter_t1, BitVec.getLsbD_append, BitVec.getLsbD_extractLsb']
  by_cases h : i < 32
  · simp [h]
  · simp [h, show 32 + (i - 32) = i by omega, show i - 32 < 32 by omega]

@[simp] theorem clearCounterAndFlags_counter (s : State W) : (clearCounterAndFlags s).counter = 0#64 := by
  simp [State.counter]

/-- `Compress1` leaves the counter at `T +64 inc` (R152). -/
@[simp] theorem compress1_counter (P : Params) (blk : Block) (inc : Nat) (s : State W) :
    (compress1 P blk inc s).counter = s.counter + BitVec.ofNat 64 inc :=
  setCounter_counter _ s

/-- The interior loop touches `h` and `T` only. -/
theorem compressInterior_frame (P : Params) (p n : Nat) (s : State W) :
    compressInterior P p n s =
      { s with
        h := (compressInterior P p n s).h
        t0 := (compressInterior P p n s).t0
        t1 := (compressInterior P p n s).t1 } := by
  induction n with
  | zero => rfl
  | succ n ih =>
    simp only [compressInterior]
    rw [ih]
    rfl

/-- The interior loop advances the counter by 64 per block (R127 (c)). -/
theorem compressInterior_counter (P : Params) (p n : Nat) (s : State W) :
    (compressInterior P p n s).counter = s.counter + BitVec.ofNat 64 (64 * n) := by
  induction n with
  | zero => simp [compressInterior]
  | succ n ih =>
    simp only [compressInterior, compress1_counter, ih, BitVec.add_assoc]
    congr 1
    rw [← BitVec.ofNat_add]
    congr 1

/-! Validation. -/

/-- The code of an error kind as a number, the order of VALID's checks (R191, R199). -/
theorem firstFailure_cases (d : Descriptor W) :
    (firstFailure d = none ∧ ∀ k, ¬ violates k d) ∨
      ∃ k, firstFailure d = some k ∧ violates k d ∧
        ∀ k', violates k' d → (errCode (some k)).toNat ≤ (errCode (some k')).toNat := by
  have h1 : d.hashlen.toNat < 1 ∨ outMax < d.hashlen.toNat ↔ violates .invalidDigestLength d := Iff.rfl
  have h2 : keyMax < d.keylen.toNat ↔ violates .invalidKeyLength d := Iff.rfl
  have h3 : saltMax < d.saltlen.toNat ↔ violates .invalidSaltLength d := Iff.rfl
  have h4 : persMax < d.perslen.toNat ↔ violates .invalidPersonalizationLength d := Iff.rfl
  have h5 : d.outPtr.toNat = 0 ∨ absentBuffer d.dataPtr d.datalen ∨ absentBuffer d.keyPtr d.keylen
      ∨ absentBuffer d.saltPtr d.saltlen ∨ absentBuffer d.persPtr d.perslen ↔
      violates .nullBufferWithNonzeroLength d := Iff.rfl
  have h6 : d.keylen.toNat = 0 ∧ d.datalen.toNat = 0 ↔ violates .emptyUnkeyedInput d := Iff.rfl
  simp only [firstFailure, h1, h2, h3, h4, h5, h6]
  split_ifs with v1 v2 v3 v4 v5 v6
  on_goal 7 => refine .inl ⟨rfl, fun k => ?_⟩
  on_goal 7 => cases k <;> assumption
  all_goals
    refine .inr ⟨_, rfl, by assumption, fun k' hk' => ?_⟩
    cases k' <;> first | (exact absurd hk' ‹_›) | (simp [errCode])

/-- A descriptor is accepted exactly when no condition of R191 holds. -/
theorem firstFailure_eq_none {d : Descriptor W} : firstFailure d = none ↔ ∀ k, ¬ violates k d := by
  rcases firstFailure_cases d with ⟨h, hk⟩ | ⟨k, h, hk, -⟩
  · simp [h, hk]
  · simp only [h, reduceCtorEq, false_iff]
    exact fun hn => hn k hk

/-- A kind is reported exactly when its condition holds and no kind with a lower code applies (R199). -/
theorem firstFailure_eq_some {d : Descriptor W} {k : ErrorKind} :
    firstFailure d = some k ↔
      violates k d ∧ ∀ k', violates k' d → (errCode (some k)).toNat ≤ (errCode (some k')).toNat := by
  rcases firstFailure_cases d with ⟨h, hk⟩ | ⟨j, h, hj, hmin⟩
  · simp [h, hk]
  · rw [h, Option.some.injEq]
    refine ⟨fun e => e ▸ ⟨hj, hmin⟩, fun ⟨hk, hk'⟩ => ?_⟩
    have e := Nat.le_antisymm (hmin k hk) (hk' j hj)
    cases j <;> cases k <;> simp [errCode] at e <;> rfl

/-- What an accepted descriptor satisfies, as numbers (R90, R120). -/
theorem accepted_bounds {d : Descriptor W} (h : firstFailure d = none) :
    1 ≤ d.hashlen.toNat ∧ d.hashlen.toNat ≤ 32 ∧ d.keylen.toNat ≤ 32 ∧ d.saltlen.toNat ≤ 8 ∧ d.perslen.toNat ≤ 8 ∧
      (d.keylen.toNat ≠ 0 ∨ d.datalen.toNat ≠ 0) := by
  have h := firstFailure_eq_none.1 h
  have h1 := h .invalidDigestLength
  have h2 := h .invalidKeyLength
  have h3 := h .invalidSaltLength
  have h4 := h .invalidPersonalizationLength
  have h6 := h .emptyUnkeyedInput
  simp only [violates] at h1 h2 h3 h4 h6
  omega

/-! The numbers of the PHASE values. -/

@[simp] theorem ofSelector_selector (p : Phase) : Phase.ofSelector p.selector = some p := by cases p <;> rfl

/-- `busy` is `1 <= PHASE <= 17` (R32). -/
theorem busy_iff_selector (p : Phase) : p.busy = true ↔ 1 ≤ p.selector.toNat ∧ p.selector.toNat ≤ 17 := by
  cases p <;> decide

end Sys2Proof.Machine
end

