-- ==== Sys2Proof/Laws/Exec.lean ====
section
/-! SUPPORT. One lemma per meaning that says everything it can do when it answers a next state; the proofs cite these and do
not unfold the meanings. -/

namespace Sys2Proof.Machine

open Sys2Proof.Config

variable {W : Widths}

theorem next_inj {s t : State W} : (Host.Outcome.next s : Result W) = .next t ↔ t = s :=
  ⟨fun h => by cases h; rfl, fun h => by rw [h]⟩

theorem ite_refused_eq_next {c : Prop} [Decidable c] {o : Result W} {r : Refusal} {t : State W} :
    (if c then o else .refused r) = .next t ↔ c ∧ o = .next t := by
  split <;> simp [*]

theorem execValid_eq_next {s t : State W} :
    execValid s = .next t ↔
      (∃ k, firstFailure s.desc = some k ∧ t = raise k s) ∨
        (firstFailure s.desc = none ∧ t = { s with phase := .pbZero }) := by
  unfold execValid
  split <;> simp [*, eq_comm]

theorem execPbZero_eq_next {s t : State W} :
    execPbZero s = .next t ↔ t = { s with h := Vector.replicate 8 0#32, phase := .pbHdr } := next_inj

theorem execPbHdr_eq_next {s t : State W} :
    execPbHdr s = .next t ↔
      (1 ≤ s.desc.hashlen.toNat ∧ s.desc.hashlen.toNat ≤ 32 ∧ s.desc.keylen.toNat ≤ 32) ∧
        t = { s with h := s.h.set 0 (headerWord s.desc), phase := .pbSalt } := by
  unfold execPbHdr
  rw [ite_refused_eq_next, next_inj]
  rfl

theorem execPbSalt_eq_next {s t : State W} :
    execPbSalt s = .next t ↔
      (s.desc.saltlen.toNat ≤ 8 ∧ s.rangeOk s.desc.saltPtr.toNat s.desc.saltlen.toNat = true) ∧
        t = { s with
          h := writePb s.h 16 (readBytes s.mem s.desc.saltPtr.toNat s.desc.saltlen.toNat), phase := .pbPers } := by
  unfold execPbSalt
  rw [ite_refused_eq_next, withRange_eq_next, next_inj, ← and_assoc]
  rfl

theorem execPbPers_eq_next {s t : State W} :
    execPbPers s = .next t ↔
      (s.desc.perslen.toNat ≤ 8 ∧ s.rangeOk s.desc.persPtr.toNat s.desc.perslen.toNat = true) ∧
        t = { s with
          h := writePb s.h 24 (readBytes s.mem s.desc.persPtr.toNat s.desc.perslen.toNat), phase := .siXoriv } := by
  unfold execPbPers
  rw [ite_refused_eq_next, withRange_eq_next, next_inj, ← and_assoc]
  rfl

theorem siXoriv_eq_next {P : Params} {s t : State W} :
    siXoriv P s = .next t ↔ t = { s with h := Vector.ofFn fun i : Fin 8 => s.h[i] ^^^ P.iv[i], phase := .siClrtf } :=
  next_inj

theorem execSiClrtf_eq_next {s t : State W} :
    execSiClrtf s = .next t ↔
      t = { clearCounterAndFlags s with phase := if s.desc.keylen.toNat ≠ 0 then .bfKeyld else .bfSplit } := next_inj

theorem execBfKeyld_eq_next {s t : State W} :
    execBfKeyld s = .next t ↔
      (s.desc.keylen.toNat ≤ 32 ∧ s.rangeOk s.desc.keyPtr.toNat s.desc.keylen.toNat = true) ∧
        t = { s with buf := pad64 (readBytes s.mem s.desc.keyPtr.toNat s.desc.keylen.toNat), phase := .bfKeyfin } := by
  unfold execBfKeyld
  rw [ite_refused_eq_next, withRange_eq_next, next_inj, ← and_assoc]
  rfl

theorem execBfKeyfin_eq_next {s t : State W} :
    execBfKeyfin s = .next t ↔
      t = { s with f0 := if s.desc.datalen.toNat = 0 then allOnes else s.f0, phase := .bfKeycmp } := by
  simp only [execBfKeyfin, next_inj]
  split <;> rfl

theorem bfKeycmp_eq_next {P : Params} {s t : State W} :
    bfKeycmp P s = .next t ↔ t = { compress1 P s.buf 64 s with phase := .bfWipe } := next_inj

theorem execBfWipe_eq_next {s t : State W} :
    execBfWipe s = .next t ↔
      t = { s with buf := zeroBlock, phase := if s.desc.datalen.toNat ≠ 0 then .bfSplit else .bfDigest } := next_inj

/-- The split in numbers (R125). -/
theorem split_toNat {x : BitVec W.lenw} (hx : x.toNat ≠ 0) :
    ((x - 1) / 64).toNat = (x.toNat - 1) / 64 ∧ ((x - 1) / 64 * 64).toNat = 64 * ((x.toNat - 1) / 64) ∧
      ((x - (x - 1) / 64 * 64).setWidth 7).toNat = x.toNat - 64 * ((x.toNat - 1) / 64) := by
  have hlt := x.isLt
  have h64 : (64 : BitVec W.lenw).toNat = 64 := by
    rw [show (64 : BitVec W.lenw) = BitVec.ofNat W.lenw 64 from rfl, BitVec.toNat_ofNat]
    exact Nat.mod_eq_of_lt (Nat.lt_of_lt_of_le (by decide) (Nat.pow_le_pow_right (by decide) W.lenw_ge))
  have hone : (1 : BitVec W.lenw).toNat = 1 := by
    rw [show (1 : BitVec W.lenw) = BitVec.ofNat W.lenw 1 from rfl, BitVec.toNat_ofNat]
    exact Nat.mod_eq_of_lt (Nat.lt_of_lt_of_le (by decide) (Nat.pow_le_pow_right (by decide) W.lenw_ge))
  have h1 : (x - 1).toNat = x.toNat - 1 := by
    rw [BitVec.toNat_sub_of_le (by rw [BitVec.le_def, hone]; omega), hone]
  have h2 : ((x - 1) / 64).toNat = (x.toNat - 1) / 64 := by
    rw [BitVec.toNat_udiv, h1, h64]
  have h3 : ((x - 1) / 64 * 64).toNat = 64 * ((x.toNat - 1) / 64) := by
    rw [BitVec.toNat_mul, h2, h64, Nat.mul_comm]
    exact Nat.mod_eq_of_lt (by omega)
  refine ⟨h2, h3, ?_⟩
  rw [BitVec.toNat_setWidth, BitVec.toNat_sub_of_le (by rw [BitVec.le_def, h3]; omega), h3]
  exact Nat.mod_eq_of_lt (by omega)

theorem execBfSplit_eq_next {s t : State W} :
    execBfSplit s = .next t ↔
      s.desc.datalen.toNat ≠ 0 ∧
        t = { s with
          nint := (s.desc.datalen - 1) / 64
          span := (s.desc.datalen - 1) / 64 * 64
          taillen := (s.desc.datalen - (s.desc.datalen - 1) / 64 * 64).setWidth 7
          phase := .bfTailld } := by
  unfold execBfSplit
  split
  · simp [*]
  · simp only [next_inj, ne_eq, *, not_false_eq_true, true_and]

theorem execBfTailld_eq_next {s t : State W} :
    execBfTailld s = .next t ↔
      (s.taillen.toNat ≤ 64 ∧ s.rangeOk (s.desc.dataPtr.toNat + s.span.toNat) s.taillen.toNat = true) ∧
        t = { s with
          buf := pad64 (readBytes s.mem (s.desc.dataPtr.toNat + s.span.toNat) s.taillen.toNat), phase := .bfIntcmp } := by
  unfold execBfTailld
  rw [ite_refused_eq_next, withRange_eq_next, next_inj, ← and_assoc]
  rfl

theorem bfIntcmp_eq_next {P : Params} {s t : State W} :
    bfIntcmp P s = .next t ↔
      s.rangeOk s.desc.dataPtr.toNat (64 * s.nint.toNat) = true ∧
        t = { compressInterior P s.desc.dataPtr.toNat s.nint.toNat s with phase := .bfSetfin } := by
  simp only [bfIntcmp, withRange_eq_next, next_inj]

theorem execBfSetfin_eq_next {s t : State W} :
    execBfSetfin s = .next t ↔ t = { setFinal s with phase := .bfTailcmp } := next_inj

theorem bfTailcmp_eq_next {P : Params} {s t : State W} :
    bfTailcmp P s = .next t ↔ t = { compress1 P s.buf s.taillen.toNat s with phase := .bfDigest } := next_inj

theorem execBfDigest_eq_next {s t : State W} :
    execBfDigest s = .next t ↔
      (s.desc.hashlen.toNat ≤ 32 ∧ s.rangeOk s.desc.outPtr.toNat s.desc.hashlen.toNat = true) ∧
        t = { s with
          mem := storeBytes s.mem s.desc.outPtr.toNat (digest s.h s.desc.hashlen.toNat), phase := .done } := by
  unfold execBfDigest
  rw [ite_refused_eq_next, withRange_eq_next, next_inj, ← and_assoc]
  rfl

theorem startInvocation_eq_next {s t : State W} :
    startInvocation s = .next t ↔ s.phase.busy = false ∧ t = beginInvocation s := by
  unfold startInvocation
  split
  · simp [*]
  · simp only [next_inj, *, true_and]

theorem writeRegister_eq_next {r : BitVec 4} {v : HostValue} {s t : State W} :
    writeRegister r v s = .next t ↔ s.phase.busy = false ∧ ∃ d, s.desc.write r v = some d ∧ t = { s with desc := d } := by
  unfold writeRegister
  split
  · simp [*]
  · split <;> simp [*, eq_comm]

/-- Several WR lines write the descriptor and nothing else. -/
theorem writeRegisters_eq_next {ws : List (BitVec 4 × HostValue)} {s t : State W} (h : writeRegisters ws s = .next t) :
    t = { s with desc := t.desc } ∧ (ws ≠ [] → s.phase.busy = false) := by
  induction ws generalizing s with
  | nil => simp only [writeRegisters, next_inj] at h; subst h; simp
  | cons w ws ih =>
    obtain ⟨u, hu, ht⟩ := andThen_eq_next.1 h
    obtain ⟨hb, d, -, rfl⟩ := writeRegister_eq_next.1 hu
    obtain ⟨e, -⟩ := ih ht
    exact ⟨by rw [e], fun _ => hb⟩

theorem hostLoad_eq_next {a : Nat} {s t : State W} (h : hostLoad a s = .next t) :
    t = { s with hostRead := (Memory.read s.mem a).toNat } := by
  unfold hostLoad at h
  repeat' (split at h)
  all_goals simp_all

theorem hostStore_eq_next {a : Nat} {v : Byte} {s t : State W} (h : hostStore a v s = .next t) :
    a < 2 ^ W.aw ∧ t = { s with mem := Memory.write s.mem a v } := by
  unfold hostStore at h
  split at h
  · simp at h
  · repeat' (split at h)
    all_goals first | (simp at h; done) | exact ⟨by omega, next_inj.1 h⟩

theorem readBack_eq_next {r : BitVec 4} {s t : State W} (h : readBack r s = .next t) :
    t = { s with hostRead := t.hostRead } := by
  unfold readBack at h
  repeat' (split at h)
  all_goals first | (simp at h; done) | (rw [next_inj] at h; subst h; rfl)

/-! The micro-operation of each PHASE value (R30, R80). -/

theorem coreStep_idle {P : Params} {s : State W} (h : s.phase = .idle) : coreStep P s = execIdle s := by simp only [coreStep, h]
theorem coreStep_valid {P : Params} {s : State W} (h : s.phase = .valid) : coreStep P s = execValid s := by simp only [coreStep, h]
theorem coreStep_pbZero {P : Params} {s : State W} (h : s.phase = .pbZero) : coreStep P s = execPbZero s := by simp only [coreStep, h]
theorem coreStep_pbHdr {P : Params} {s : State W} (h : s.phase = .pbHdr) : coreStep P s = execPbHdr s := by simp only [coreStep, h]
theorem coreStep_pbSalt {P : Params} {s : State W} (h : s.phase = .pbSalt) : coreStep P s = execPbSalt s := by simp only [coreStep, h]
theorem coreStep_pbPers {P : Params} {s : State W} (h : s.phase = .pbPers) : coreStep P s = execPbPers s := by simp only [coreStep, h]
theorem coreStep_siXoriv {P : Params} {s : State W} (h : s.phase = .siXoriv) : coreStep P s = siXoriv P s := by simp only [coreStep, h]
theorem coreStep_siClrtf {P : Params} {s : State W} (h : s.phase = .siClrtf) : coreStep P s = execSiClrtf s := by simp only [coreStep, h]
theorem coreStep_bfKeyld {P : Params} {s : State W} (h : s.phase = .bfKeyld) : coreStep P s = execBfKeyld s := by simp only [coreStep, h]
theorem coreStep_bfKeyfin {P : Params} {s : State W} (h : s.phase = .bfKeyfin) : coreStep P s = execBfKeyfin s := by simp only [coreStep, h]
theorem coreStep_bfKeycmp {P : Params} {s : State W} (h : s.phase = .bfKeycmp) : coreStep P s = bfKeycmp P s := by simp only [coreStep, h]
theorem coreStep_bfWipe {P : Params} {s : State W} (h : s.phase = .bfWipe) : coreStep P s = execBfWipe s := by simp only [coreStep, h]
theorem coreStep_bfSplit {P : Params} {s : State W} (h : s.phase = .bfSplit) : coreStep P s = execBfSplit s := by simp only [coreStep, h]
theorem coreStep_bfTailld {P : Params} {s : State W} (h : s.phase = .bfTailld) : coreStep P s = execBfTailld s := by simp only [coreStep, h]
theorem coreStep_bfIntcmp {P : Params} {s : State W} (h : s.phase = .bfIntcmp) : coreStep P s = bfIntcmp P s := by simp only [coreStep, h]
theorem coreStep_bfSetfin {P : Params} {s : State W} (h : s.phase = .bfSetfin) : coreStep P s = execBfSetfin s := by simp only [coreStep, h]
theorem coreStep_bfTailcmp {P : Params} {s : State W} (h : s.phase = .bfTailcmp) : coreStep P s = bfTailcmp P s := by simp only [coreStep, h]
theorem coreStep_bfDigest {P : Params} {s : State W} (h : s.phase = .bfDigest) : coreStep P s = execBfDigest s := by simp only [coreStep, h]
theorem coreStep_done {P : Params} {s : State W} (h : s.phase = .done) : coreStep P s = execDone s := by simp only [coreStep, h]
theorem coreStep_error {P : Params} {s : State W} (h : s.phase = .error) : coreStep P s = execError s := by simp only [coreStep, h]

/-- What WAIT answers it answers after some CORE steps, as the state they leave with STATUS read. -/
theorem waitDone_induction {P : Params} {motive : State W → Prop}
    (core : ∀ s t, motive s → s.phase.busy = true → coreStep P s = .next t → motive t)
    (poll : ∀ s, motive s → motive (pollStatus s)) {n : Nat} {s t : State W} (hs : motive s)
    (h : waitDone P n s = .next t) : motive t := by
  induction n generalizing s with
  | zero =>
    rw [waitDone, next_inj] at h
    exact h ▸ poll s hs
  | succ n ih =>
    rw [waitDone] at h
    split at h
    · obtain ⟨u, hu, hw⟩ := andThen_eq_next.1 h
      exact ih (core s u hs ‹_› hu) hw
    · rw [next_inj] at h
      exact h ▸ poll s hs

end Sys2Proof.Machine
end

