-- ==== Sys2Proof/Laws/PerInstr.lean ====
section
/-! SUPPORT. The family `RoundTrip`, one lemma per instruction: a well-formed instruction is what its encoding decodes to. -/

namespace Sys2Proof.Laws.RoundTrip

open Sys2Proof

/-- Decoding the encoding of `i` gives `i` back. -/
def Statement (i : Instr) : Prop := i.wellFormed = true → decode (encode i) = .ok i

theorem idle : Statement .idle := fun _ => rfl
theorem valid : Statement .valid := fun _ => rfl
theorem pbZero : Statement .pbZero := fun _ => rfl
theorem pbHdr : Statement .pbHdr := fun _ => rfl
theorem pbSalt : Statement .pbSalt := fun _ => rfl
theorem pbPers : Statement .pbPers := fun _ => rfl
theorem siXoriv : Statement .siXoriv := fun _ => rfl
theorem siClrtf : Statement .siClrtf := fun _ => rfl
theorem bfKeyld : Statement .bfKeyld := fun _ => rfl
theorem bfKeyfin : Statement .bfKeyfin := fun _ => rfl
theorem bfKeycmp : Statement .bfKeycmp := fun _ => rfl
theorem bfWipe : Statement .bfWipe := fun _ => rfl
theorem bfSplit : Statement .bfSplit := fun _ => rfl
theorem bfTailld : Statement .bfTailld := fun _ => rfl
theorem bfIntcmp : Statement .bfIntcmp := fun _ => rfl
theorem bfSetfin : Statement .bfSetfin := fun _ => rfl
theorem bfTailcmp : Statement .bfTailcmp := fun _ => rfl
theorem bfDigest : Statement .bfDigest := fun _ => rfl
theorem done : Statement .done := fun _ => rfl
theorem error : Statement .error := fun _ => rfl
theorem start : Statement .start := fun _ => rfl
theorem hashEx (out hashlen data datalen key keylen salt saltlen pers perslen : HostValue) :
    Statement (.hashEx out hashlen data datalen key keylen salt saltlen pers perslen) := fun _ => rfl
theorem hash (out hashlen data datalen key keylen : HostValue) : Statement (.hash out hashlen data datalen key keylen) :=
  fun _ => rfl
theorem wr (r : BitVec 4) (value : HostValue) : Statement (.wr r value) := by
  intro h
  have hr : r.toNat ≤ 9 := by simpa [Instr.wellFormed] using h
  simp only [encode, decode, decodeWrite, hr, if_true]
theorem rdStatus : Statement .rdStatus := fun _ => rfl

end Sys2Proof.Laws.RoundTrip
end

