-- ==== Sys2Proof/Laws/Step.lean ====
section
/-! SUPPORT. What a step of the whole machine can do: the CORE's turn is one `coreStep` with the default parameters, and one
lemma per host move says what it answers when it answers a next state. -/

namespace Sys2Proof.Machine

open Sys2Proof.Config

/-- The twenty selectors of PHASE all decode. -/
theorem decode_selector (p : Phase) : ∃ i, decode (.seq p.selector) = .ok i := by
  cases p <;> exact ⟨_, rfl⟩

/-- The instruction PHASE selects runs as the CORE's step. -/
theorem exec_selected {s : State} {i : Instr} (h : decode (.seq s.phase.selector) = .ok i) : exec i s = coreStep params s := by
  obtain ⟨p, hp⟩ : ∃ p, s.phase = p := ⟨_, rfl⟩
  rw [hp] at h
  cases p <;> cases h <;> simp only [coreStep, hp] <;> rfl

/-- The CORE's turn. -/
theorem sequencerStep_eq (s : State) : sequencerStep s = coreStep params s := by
  obtain ⟨i, hi⟩ := decode_selector s.phase
  rw [← exec_selected hi]
  simp only [sequencerStep, runCode, hi]

/-- With no host move pending the step is the CORE's. -/
theorem step_of_no_script {s : State} (h : s.script = []) : step s = coreStep params s := by
  rw [← sequencerStep_eq]
  simp only [step, h]

/-- With a host move pending the step is that move. -/
theorem step_of_script {s : State} {m : HostMove} {rest : List HostMove} (h : s.script = m :: rest) :
    step s = hostStep m { s with script := rest } := by
  simp only [step, h]

/-- A register write that completes is a descriptor write, or START written to CMD. -/
theorem runCode_regWrite_eq_next {r : BitVec 4} {v : HostValue} {s t : State} (h : runCode (.regWrite r v) s = .next t) :
    writeRegister r v s = .next t ∨ (r = 10#4 ∧ v = 0x01 ∧ startInvocation s = .next t) := by
  simp only [runCode, decode, decodeWrite] at h
  split at h
  · rename_i i hi
    split at hi
    · cases hi
      exact .inl h
    · split at hi
      · split at hi
        · cases hi
          rename_i hr hv
          exact .inr ⟨BitVec.eq_of_toNat_eq hr, hv, h⟩
        · cases hi
      · split at hi <;> cases hi
  · cases h

/-- A command line that completes has the code of START; without operands it is START, and with operands a public operation
with its ten WR lines. -/
theorem runCode_command_eq_next {c : BitVec 8} {ops : List HostValue} {s t : State} (h : runCode (.command c ops) s = .next t) :
    c = 0x01#8 ∧ (ops = [] ∧ startInvocation s = .next t ∨
      ops ≠ [] ∧ ∃ ws, ws ≠ [] ∧ publicOperation params ws s = .next t) := by
  simp only [runCode, decode, decodeCommand] at h
  split at h
  · rename_i i hi
    split at hi
    · rename_i hc
      refine ⟨hc, ?_⟩
      split at hi
      · cases hi
        exact .inl ⟨rfl, h⟩
      · cases hi
        exact .inr ⟨List.cons_ne_nil _ _, _, by simp [hashLines], h⟩
      · cases hi
        exact .inr ⟨List.cons_ne_nil _ _, _, by simp [hashExLines], h⟩
      · cases hi
    · cases hi
  · cases h

/-- A register read that completes writes the host's read value and nothing else. -/
theorem hostStep_read_eq_next {r : BitVec 4} {s t : State} (h : hostStep (.read r) s = .next t) :
    t = { s with hostRead := t.hostRead } := by
  simp only [hostStep] at h
  split at h
  · rename_i i hi
    simp only [decode, decodeRead] at hi
    split at hi
    · cases hi
      cases h
      rfl
    · split at hi <;> cases hi
  · exact readBack_eq_next h

/-- WAIT ends with STATUS read, or hands the step to the CORE and stays pending. -/
theorem hostStep_wait (s : State) :
    hostStep .wait s =
      if s.phase.busy then coreStep params (pollStatus { s with script := .wait :: s.script }) else .next (pollStatus s) := by
  simp only [hostStep, sequencerStep_eq]

/-- While busy the first of any WR lines is refused. -/
theorem writeRegisters_of_busy {W : Widths} {s : State W} (hb : s.phase.busy = true) (r : BitVec 4) (v : HostValue)
    (ws : List (BitVec 4 × HostValue)) : writeRegisters ((r, v) :: ws) s = .refused .descriptorWriteWhileBusy := by
  simp [writeRegisters, writeRegister, hb]

/-- The ten WR lines of HASH_EX write the whole descriptor. -/
theorem writeRegisters_hashExLines {W : Widths} {s : State W} (hb : s.phase.busy = false)
    (out hl data dl key kl salt sl pers pl : HostValue) :
    writeRegisters (hashExLines out hl data dl key kl salt sl pers pl) s =
      .next { s with
        desc := ⟨.ofNat W.aw out, .ofNat W.lenw hl, .ofNat W.aw data, .ofNat W.lenw dl, .ofNat W.aw key, .ofNat W.lenw kl,
          .ofNat W.aw salt, .ofNat W.lenw sl, .ofNat W.aw pers, .ofNat W.lenw pl⟩ } := by
  have one : ∀ (d d' : Descriptor W) (r : BitVec 4) (v : HostValue) ws, d.write r v = some d' →
      writeRegisters ((r, v) :: ws) { s with desc := d } = writeRegisters ws { s with desc := d' } := by
    intro d d' r v ws h
    have : writeRegister r v { s with desc := d } = .next { s with desc := d' } :=
      writeRegister_eq_next.2 ⟨hb, d', h, rfl⟩
    rw [writeRegisters, this, andThen_next]
  rw [show s = { s with desc := s.desc } from rfl, hashExLines, one _ _ _ _ _ rfl, one _ _ _ _ _ rfl, one _ _ _ _ _ rfl,
    one _ _ _ _ _ rfl, one _ _ _ _ _ rfl, one _ _ _ _ _ rfl, one _ _ _ _ _ rfl, one _ _ _ _ _ rfl, one _ _ _ _ _ rfl,
    one _ _ _ _ _ rfl]
  rfl

/-- A reset keeps host memory in its canonical form. -/
theorem memoryAfterReset_wf {W : Widths} {s : State W} (hm : Memory.wf W s.mem = true) : Memory.wf W (memoryAfterReset s) = true := by
  unfold memoryAfterReset
  split
  · rename_i c
    exact storeMasked_wf hm _ (by rw [digest_length]; have := (rangeOk_iff.1 c.2.2).1; omega)
  · exact hm

/-- One step of WAIT while busy. -/
theorem waitDone_of_step {W : Widths} {P : Params} {n : Nat} {s u : State W} (hb : s.phase.busy = true) (h : coreStep P s = .next u) :
    waitDone P (n + 1) s = waitDone P n u := by
  rw [waitDone, if_pos hb, h, andThen_next]

/-- The five declared ranges, one by one. -/
theorem rangesOk_iff {W : Widths} {s : State W} :
    s.rangesOk = true ↔
      s.rangeOk s.desc.outPtr.toNat s.desc.hashlen.toNat = true ∧ s.rangeOk s.desc.saltPtr.toNat s.desc.saltlen.toNat = true ∧
        s.rangeOk s.desc.persPtr.toNat s.desc.perslen.toNat = true ∧
        s.rangeOk s.desc.keyPtr.toNat s.desc.keylen.toNat = true ∧
        s.rangeOk s.desc.dataPtr.toNat s.desc.datalen.toNat = true := by
  simp [State.rangesOk, Descriptor.outputRange, Descriptor.inputRanges]

end Sys2Proof.Machine
end

