-- ==== Sys2Proof/Tests/Slice0.lean ====
section
/-! SUPPORT. Tests, each on one small state with the expected result taken from the spec (95_test_vectors.md where it has a
vector), and one witness for every obligation that has hypotheses. -/

namespace Sys2Proof.Tests

open Sys2Proof Sys2Proof.Machine Sys2Proof.Config

/-! Helpers. -/

/-- What `f` shows of the next state, if there is one. -/
def view {α : Type} {W : Widths} (o : Result W) (f : State W → α) : Option α :=
  match o with
  | .next s => some (f s)
  | .fault _ => none
  | .refused _ => none

theorem view_eq_some {α : Type} {W : Widths} {o : Result W} {f : State W → α} {a : α} (h : view o f = some a) : ∃ t, o = .next t ∧ f t = a := by
  cases o <;> simp_all [view]

/-- `h0` of V-PB1. -/
def chainPb1 : Chain :=
  #v[0x6B08E647#32, 0xBB67AE85#32, 0x3C6EF372#32, 0xA54FF53A#32, 0x510E527F#32, 0x9B05688C#32, 0x1F83D9AB#32, 0x5BE0CD19#32]

/-- The base descriptor of 95_test_vectors.md section 4.5. -/
def base : Descriptor := ⟨0x100, 32, 0x1000, 3, 0, 0, 0, 0, 0, 0⟩

/-- The message "abc" at 0x1000. -/
def abc : Memory := [(0x1000, 0x61#8), (0x1001, 0x62#8), (0x1002, 0x63#8)]

/-- A small state of any widths: PHASE, descriptor, host memory, with junk in the working state. -/
def st {W : Widths} (p : Phase) (d : Descriptor W) (m : Memory) : State W where
  h := chainPb1
  t0 := 0xDEADBEEF#32
  t1 := 0x12345678#32
  f0 := 0xFFFFFFFF#32
  f1 := 0xFFFFFFFF#32
  buf := Vector.replicate 64 0xEE#8
  nint := 7
  span := 9
  taillen := 64#7
  phase := p
  err := none
  desc := d
  mem := m
  absent := []
  script := []
  hostRead := 0
  freeCount := 1

/-- A compressor that changes nothing, for the witnesses. -/
def still : Params := { iv := defaultIv, compress := fun h _ _ _ _ => h }

/-- The descriptor of V-E20 with a one-byte message: every length at its upper edge. -/
def full : Descriptor := ⟨0x100, 32, 0x1000, 1, 0x200, 32, 0x300, 8, 0x400, 8⟩

/-! Well-formedness: the one check, and the term it refuses. -/

theorem test_wellFormed_refuses_register_10 : Instr.wellFormed (.wr 10#4 0) = false := by decide
theorem test_wellFormed_accepts_register_9 : Instr.wellFormed (.wr 9#4 0xFFFFFFFFFFFFFFFF) = true := by decide

/-! Decoding: every constructor, by the word the spec's tables give it (R78, R79, R80, R84). -/

theorem test_decode_seq_first_half :
    [0b00000, 0b00001, 0b00010, 0b00011, 0b00100, 0b00101, 0b00110, 0b00111, 0b01000, 0b01001].map (decodeTableWord 8) =
      [some .idle, some .valid, some .pbZero, some .pbHdr, some .pbSalt, some .pbPers, some .siXoriv, some .siClrtf,
        some .bfKeyld, some .bfKeyfin] := by decide
theorem test_decode_seq_second_half :
    [0b01010, 0b01011, 0b01100, 0b01101, 0b01110, 0b01111, 0b10000, 0b10001, 0b10010, 0b10011].map (decodeTableWord 8) =
      [some .bfKeycmp, some .bfWipe, some .bfSplit, some .bfTailld, some .bfIntcmp, some .bfSetfin, some .bfTailcmp,
        some .bfDigest, some .done, some .error] := by decide
theorem test_decode_start : decode (.command 0x01#8 []) = .ok .start := rfl
theorem test_decode_hash : decode (.command 0x01#8 [1, 2, 3, 4, 5, 6]) = .ok (.hash 1 2 3 4 5 6) := rfl
theorem test_decode_hashEx :
    decode (.command 0x01#8 [1, 2, 3, 4, 5, 6, 7, 8, 9, 10]) = .ok (.hashEx 1 2 3 4 5 6 7 8 9 10) := rfl
theorem test_decode_wr_perslen : decode (.regWrite 0b1001#4 8) = .ok (.wr 9#4 8) := rfl
theorem test_decode_rd_status : decode (.regRead 0b1011#4) = .ok .rdStatus := rfl
theorem test_decode_reserved_selector : decodeTableWord 8 0b10100 = none := by decide
theorem test_decode_reserved_command : decode (.command 0x02#8 []) = .error (.reservedCommand 2) := rfl
theorem test_decode_write_to_status : decode (.regWrite 11#4 0) = .error .writeToStatus := rfl

/-! VALID: the vectors V-E0 to V-E20. -/

theorem test_valid_accepts : firstFailure base = none ∧ firstFailure { base with hashlen := 1 } = none ∧ firstFailure full = none := by
  decide
theorem test_valid_digest_length :
    firstFailure { base with hashlen := 0 } = some .invalidDigestLength ∧
      firstFailure { base with hashlen := 33 } = some .invalidDigestLength ∧
      firstFailure { base with hashlen := 0x120 } = some .invalidDigestLength := by decide
theorem test_valid_priority :
    firstFailure { base with datalen := 0, dataPtr := 0, keylen := 33, saltlen := 9, perslen := 9 } = some .invalidKeyLength ∧
      firstFailure { base with datalen := 0, dataPtr := 0, saltlen := 9, perslen := 9 } = some .invalidSaltLength ∧
      firstFailure { base with outPtr := 0, datalen := 0, dataPtr := 0 } = some .nullBufferWithNonzeroLength := by decide
theorem test_valid_empty_unkeyed :
    firstFailure { base with datalen := 0, dataPtr := 0x1234, keyPtr := 0x200 } = some .emptyUnkeyedInput := by decide
theorem test_valid_status : view (exec .valid (st .valid { base with keylen := 33, keyPtr := 0x200 } [])) State.status = some 0x53#32 := by
  decide

/-! Other widths: the split of the longest message LENW = 64 admits, a write truncated to 8 and to 40 bits, a range at the top
of a 16-bit address space. -/

/-- A narrow machine. -/
abbrev narrow : Widths := ⟨16, 8, by decide, by decide⟩

/-- A wide machine. -/
abbrev wide : Widths := ⟨40, 64, by decide, by decide⟩

theorem test_split_of_the_longest_message :
    view (execBfSplit (st (W := wide) .bfSplit ⟨1, 32, 1, 0xFFFFFFFFFFFFFFFF, 0, 0, 0, 0, 0, 0⟩ []))
      (fun t => (t.nint.toNat, t.span.toNat, t.taillen.toNat)) = some (0x3FFFFFFFFFFFFFF, 0xFFFFFFFFFFFFFFC0, 63) := by decide
theorem test_wr_truncates_to_the_width :
    view (execWr 1#4 0x121 (st (W := narrow) .idle ⟨0, 0, 0, 0, 0, 0, 0, 0, 0, 0⟩ [])) (·.desc.hashlen) = some 0x21#8 ∧
      view (execWr 0#4 0x123456789AB (st (W := wide) .idle ⟨0, 0, 0, 0, 0, 0, 0, 0, 0, 0⟩ [])) (·.desc.outPtr) =
        some 0x23456789AB#40 := by decide
theorem test_range_at_the_top_of_a_narrow_space :
    (st (W := narrow) .idle ⟨0, 0, 0, 0, 0, 0, 0, 0, 0, 0⟩ []).rangeOk 0xFFF8 8 = true ∧
      (st (W := narrow) .idle ⟨0, 0, 0, 0, 0, 0, 0, 0, 0, 0⟩ []).rangeOk 0xFFF8 9 = false := by decide

/-! Parameter block: V-PB3, V-PB4 step by step. -/

theorem test_pb_hdr : view (exec .pbHdr (st .pbHdr { full with hashlen := 16 } [])) (·.h[0]) = some 0x01012010#32 := by decide
theorem test_pb_salt :
    view (exec .pbSalt { st .pbSalt { base with saltPtr := 0x300, saltlen := 3 } [(0x300, 0xF1), (0x301, 0xF2), (0x302, 0xF3)] with
      h := Vector.replicate 8 0#32 }) (fun t => (t.h[4], t.h[5], t.h[6])) = some (0x00F3F2F1#32, 0#32, 0#32) := by decide
theorem test_pb_pers :
    view (exec .pbPers { st .pbPers { base with persPtr := 0x400, perslen := 5 }
      [(0x400, 0x41), (0x401, 0x42), (0x402, 0x43), (0x403, 0x44), (0x404, 0x45)] with h := Vector.replicate 8 0#32 })
      (fun t => (t.h[4], t.h[6], t.h[7])) = some (0#32, 0x44434241#32, 0x00000045#32) := by decide

/-! State initializer: V-SI2, V-SI3, V-SI4. -/

theorem test_si_xoriv :
    view (exec .siXoriv { st .siXoriv base [] with
      h := #v[0x01012010#32, 0, 0, 0, 0x04030201#32, 0x08070605#32, 0x44434241#32, 0x00000045#32] }) (·.h) =
      some #v[0x6B08C677#32, 0xBB67AE85#32, 0x3C6EF372#32, 0xA54FF53A#32, 0x550D507E#32, 0x93026E89#32, 0x5BC09BEA#32,
        0x5BE0CD5C#32] := by decide
theorem test_si_clrtf :
    view (exec .siClrtf (st .siClrtf base [])) (fun t => (t.counter, t.f0, t.f1, t.phase)) = some (0#64, 0#32, 0#32, .bfSplit) ∧
      view (exec .siClrtf (st .siClrtf full [])) (·.phase) = some .bfKeyld := by decide

/-! Block feeder: V-K1, V-K2, V-K6, V-SP4 to V-SP12, V-M1, V-M2, V-M4, V-HL1. -/

theorem test_bf_keyld :
    view (exec .bfKeyld (st .bfKeyld { full with keylen := 1 } [(0x200, 0xAA#8)])) (fun t => (t.buf[0], t.buf[1], t.buf[63])) =
      some (0xAA#8, 0#8, 0#8) := by decide
theorem test_bf_keyfin :
    view (exec .bfKeyfin { st .bfKeyfin { full with datalen := 0 } [] with f0 := 0 }) (·.f0) = some 0xFFFFFFFF#32 ∧
      view (exec .bfKeyfin { st .bfKeyfin full [] with f0 := 0 }) (·.f0) = some 0#32 := by decide
theorem test_bf_wipe :
    view (exec .bfWipe (st .bfWipe full [])) (fun t => (t.buf[0], t.buf[63], t.phase)) = some (0#8, 0#8, .bfSplit) ∧
      view (exec .bfWipe (st .bfWipe { full with datalen := 0 } [])) (·.phase) = some .bfDigest := by decide
theorem test_bf_split_boundaries :
    [64, 65, 128, 129].map (fun n => view (exec .bfSplit (st .bfSplit { base with datalen := n } []))
      (fun t => (t.nint.toNat, t.span.toNat, t.taillen.toNat))) =
      [some (0, 0, 64), some (1, 64, 1), some (1, 64, 64), some (2, 128, 1)] := by decide
theorem test_bf_split_largest :
    view (exec .bfSplit (st .bfSplit { base with datalen := 0xFFFFFFFF } [])) (fun t => (t.nint.toNat, t.span.toNat, t.taillen.toNat)) =
      some (67108863, 4294967232, 63) := by decide
theorem test_bf_tailld :
    view (exec .bfTailld { st .bfTailld base abc with span := 0, taillen := 3#7 })
      (fun t => (t.buf[0], t.buf[2], t.buf[3], t.buf[63])) = some (0x61#8, 0x63#8, 0#8, 0#8) := by decide
theorem test_bf_intcmp_without_blocks :
    view (exec .bfIntcmp { st .bfIntcmp base abc with nint := 0 }) (fun t => (t.h, t.t0, t.phase)) =
      some (chainPb1, 0xDEADBEEF#32, .bfSetfin) := by decide
theorem test_bf_setfin :
    view (exec .bfSetfin { st .bfSetfin base [] with f0 := 0, f1 := 0 }) (fun t => (t.f0, t.f1)) = some (0xFFFFFFFF#32, 0#32) := by
  decide
theorem test_bf_digest :
    view (exec .bfDigest { st .bfDigest { base with hashlen := 6 } [] with
      h := #v[0x8C5E8C50#32, 0xE2147C32#32, 0xA32BA7E1#32, 0, 0, 0, 0, 0] }) (·.mem) =
      some [(0x100, 0x50), (0x101, 0x8C), (0x102, 0x5E), (0x103, 0x8C), (0x104, 0x32), (0x105, 0x7C)] := by decide
theorem test_counter_carries :
    (compress1 still zeroBlock 64 { st .bfIntcmp base [] with t0 := 0xFFFFFFC0#32, t1 := 0 }).t0 = 0#32 ∧
      (compress1 still zeroBlock 64 { st .bfIntcmp base [] with t0 := 0xFFFFFFC0#32, t1 := 0 }).t1 = 1#32 := by decide

/-- V-F1: the reference `F` on "abc", through BF.TAILCMP (R129's example). -/
theorem test_bf_tailcmp_abc :
    view (exec .bfTailcmp { st .bfTailcmp base [] with
      t0 := 0, t1 := 0, f1 := 0, buf := pad64 [0x61#8, 0x62#8, 0x63#8], taillen := 3#7 }) (·.h) =
      some #v[0x8C5E8C50#32, 0xE2147C32#32, 0xA32BA7E1#32, 0x2F45EB4E#32, 0x208B4537#32, 0x293AD69E#32, 0x4C9B994D#32,
        0x82596786#32] := by decide +kernel

/-- Program P2, the key-only invocation of V-K5b: one compression, the flag on the key block. -/
theorem test_hash_key_only :
    view (exec (.hash 0x100 4 0 0 0x200 1) (st .idle base [(0x200, 0x01#8)])) (fun t => (t.phase, t.err, t.counter, t.hostRead)) =
      some (.done, none, 64#64, 0x12) := by decide +kernel

/-! Host operations: V-S1 to V-S5. -/

theorem test_start_after_error :
    view (exec .start { st .error base [] with err := some .emptyUnkeyedInput }) (fun t => (t.phase, t.err)) = some (.valid, none) := by
  decide
theorem test_start_while_busy : exec .start (st .bfTailld base []) = .refused .startWhileBusy := rfl
theorem test_wr_truncates :
    view (exec (.wr 1#4 0x1_0000_0021) (st .done base [])) (·.desc.hashlen) = some 0x21#32 := by decide
theorem test_rd_status : view (exec .rdStatus (st .bfTailld base [])) (·.hostRead) = some 0x0D := by decide
theorem test_reset_keeps_no_key :
    view (step { st .bfKeycmp full abc with script := [.reset] }) (fun t => (t.phase, t.buf[0], t.desc.keylen, t.mem)) =
      some (.idle, 0#8, 0#32, abc) := by decide

/-! Witnesses: for each obligation with hypotheses, concrete values that meet them, each clause at a boundary. -/

theorem witness_SelectorTableDecodes : 20 ≤ (20#5).toNat ∧ 20 ≤ (31#5).toNat := by decide
theorem witness_RegisterPortDecodes :
    (0#4).toNat ≤ 9 ∧ (9#4).toNat ≤ 9 ∧ (0x101 : HostValue) ≠ 0x01 ∧ (10#4).toNat ≤ 10 ∧ 12 ≤ (12#4).toNat ∧ 12 ≤ (15#4).toNat ∧ 0x02#8 ≠ 0x01#8 := by decide
theorem witness_DecodeOfEncode : Instr.wellFormed (.wr 9#4 7) = true ∧ Instr.wellFormed .bfDigest = true := by decide
theorem witness_AcceptedCodesAreEncodings :
    decode (.regWrite 10#4 0x01) = .ok .start ∧ decode (.seq 19#5) = .ok .error ∧ decode (.regRead 11#4) = .ok .rdStatus :=
  ⟨rfl, rfl, rfl⟩
theorem witness_StepRunsTheSelectedMicroOperation :
    decode (.seq (st .bfDigest base []).phase.selector) = .ok .bfDigest ∧ (st .bfDigest base []).script = [] ∧
      ({ st .bfDigest base [] with script := [.core] } : State).script = .core :: [] := ⟨rfl, rfl, rfl⟩
theorem witness_StepRunsTheHostLine :
    decode (.regWrite 9#4 8) = .ok (.wr 9#4 8) ∧ decode (.regWrite 11#4 8) = .error .writeToStatus ∧
      decode (.command 0x01#8 []) = .ok .start ∧ decode (.command 0x00#8 []) = .error (.reservedCommand 0) ∧
      decode (.regRead 11#4) = .ok .rdStatus ∧
      ({ st .idle base [] with script := [.read 11#4] } : State).script = .read 11#4 :: [] := ⟨rfl, rfl, rfl, rfl, rfl, rfl⟩
theorem witness_WaitRunsTheCoreUntilNotBusy :
    Phase.busy .done = false ∧ decode (.seq (Phase.selector .done)) = .ok .done ∧ Phase.busy .bfDigest = true ∧
      decode (.seq (Phase.selector .bfDigest)) = .ok .bfDigest := ⟨rfl, rfl, rfl, rfl⟩
theorem witness_ValidReportsTheLowestCode :
    violates .invalidDigestLength { base with hashlen := 33 } ∧ violates .invalidKeyLength { base with keylen := 33 } ∧
      violates .invalidSaltLength { base with saltlen := 9 } ∧ violates .invalidPersonalizationLength { base with perslen := 9 } ∧
      violates .nullBufferWithNonzeroLength { base with outPtr := 0 } ∧ violates .emptyUnkeyedInput { base with datalen := 0 } ∧
      ∀ k, ¬ violates k base := by
  refine ⟨?_, ?_, ?_, ?_, ?_, ?_, firstFailure_eq_none.1 (by decide)⟩ <;> simp only [violates] <;> decide
theorem witness_RejectedOperationWritesNothing :
    (st .done base abc).phase.busy = false ∧
      view (writeRegisters [(1#4, 33)] (st .done base abc)) (fun t => firstFailure t.desc) = some (some .invalidDigestLength) := by
  decide
theorem witness_PbHdrWritesTheFirstWord :
    1 ≤ ({ base with hashlen := 1 } : Descriptor).hashlen.toNat ∧ full.hashlen.toNat ≤ 32 ∧ full.keylen.toNat ≤ 32 ∧
      full.hashlen.toNat = 32 ∧ full.keylen.toNat = 32 := by decide
theorem witness_PbSaltCopiesTheSalt :
    full.saltlen.toNat ≤ 8 ∧ full.saltlen.toNat = 8 ∧ (st .pbSalt full []).rangeOk 0x300 8 = true ∧
      base.saltlen.toNat = 0 ∧ (st .pbSalt base []).rangeOk 0 0 = true := by decide
theorem witness_PbPersCopiesThePersonalization :
    full.perslen.toNat ≤ 8 ∧ full.perslen.toNat = 8 ∧ (st .pbPers full []).rangeOk 0xFFFFFFF8 8 = true := by decide
theorem witness_EncoderComputesPbEncode :
    1 ≤ full.hashlen.toNat ∧ full.hashlen.toNat ≤ 32 ∧ full.keylen.toNat ≤ 32 ∧ full.saltlen.toNat ≤ 8 ∧ full.perslen.toNat ≤ 8 ∧
      (st .pbZero full []).rangeOk full.saltPtr.toNat full.saltlen.toNat = true ∧
      (st .pbZero full []).rangeOk full.persPtr.toNat full.perslen.toNat = true := by decide
theorem witness_ParameterBlockWordView :
    (pbEncode 1 0 [] []).isSome = true ∧ (pbEncode 32 32 [1, 2, 3, 4, 5, 6, 7, 8] [9, 9, 9, 9, 9, 9, 9, 9]).isSome = true := by decide
theorem witness_SaltAndPersonalizationStayApart :
    full.saltlen.toNat ≤ 8 ∧ full.perslen.toNat ≤ 8 ∧ (st .pbSalt full []).rangeOk 0x300 8 = true ∧
      (st .pbSalt full []).rangeOk 0x400 8 = true ∧ (∃ v ∈ [0#8, 1#8], v ≠ 0#8) ∧ (pbEncode 32 0 [0#8, 1#8] []).isSome = true ∧
      (pbEncode 32 0 [] [0#8, 1#8]).isSome = true := by decide
theorem witness_EncoderRefusedOutsideItsRanges :
    ({ base with hashlen := 33 } : Descriptor).hashlen.toNat = 33 ∧ ({ base with keylen := 33 } : Descriptor).keylen.toNat = 33 ∧
      ({ base with saltlen := 9 } : Descriptor).saltlen.toNat = 9 ∧ ({ base with perslen := 9 } : Descriptor).perslen.toNat = 9 ∧
      view (exec .valid (st .valid base [])) (·.phase) = some .pbZero := by decide
theorem witness_SiClrtfClearsAndBranches : full.keylen.toNat ≠ 0 ∧ base.keylen.toNat = 0 := by decide
theorem witness_InitializerComputesStateInit :
    firstFailure full = none ∧ (st .pbZero full []).rangeOk full.saltPtr.toNat full.saltlen.toNat = true ∧
      (st .pbZero full []).rangeOk full.persPtr.toNat full.perslen.toNat = true := by decide
theorem witness_InitialStateDeterminesTheBlock :
    (stateInit still (Vector.replicate 32 1#8)).h = (stateInit still (Vector.replicate 32 1#8)).h := rfl
theorem witness_BfKeyldLoadsThePaddedKey :
    full.keylen.toNat ≤ 32 ∧ full.keylen.toNat = 32 ∧ (st .bfKeyld full []).rangeOk full.keyPtr.toNat full.keylen.toNat = true := by
  decide
theorem witness_BfKeyfinFlagsAnEmptyMessage :
    ({ full with datalen := 0 } : Descriptor).datalen.toNat = 0 ∧ full.datalen.toNat ≠ 0 := by decide
theorem witness_CompressAdvancesTheCounterFirst : 1 ≤ 1 ∧ 1 ≤ 64 ∧ 64 ≤ 64 := by decide
theorem witness_BfWipeClearsTheBuffer :
    ({ full with datalen := 0 } : Descriptor).datalen.toNat = 0 ∧ full.datalen.toNat ≠ 0 := by decide
theorem witness_KeyIsWipedRightAfterItsCompression : (st .bfKeycmp full []).phase = .bfKeycmp := rfl
theorem witness_BfSplitDefersTheLastBlock :
    1 ≤ ({ base with datalen := 1 } : Descriptor).datalen.toNat ∧ 1 ≤ ({ base with datalen := 0xFFFFFFFF } : Descriptor).datalen.toNat ∧
      ({ base with datalen := 0 } : Descriptor).datalen.toNat = 0 := by decide
theorem witness_BfTailldLoadsThePaddedTail :
    (st .bfTailld base []).taillen.toNat ≤ 64 ∧ (st .bfTailld base []).rangeOk (0x1000 + 9) 64 = true := by decide
theorem witness_BfIntcmpCompressesTheInteriorInOrder :
    (st .bfIntcmp base []).rangeOk base.dataPtr.toNat (64 * (st .bfIntcmp base []).nint.toNat) = true := by decide
theorem witness_BfDigestWritesExactlyHashlenBytes :
    full.hashlen.toNat ≤ 32 ∧ Memory.wf defaultWidths abc = true ∧ (st .bfDigest full abc).rangeOk full.outPtr.toNat full.hashlen.toNat = true ∧
      (st .bfDigest full abc).rangeOk 0xFFFFFFE0 32 = true := by decide
theorem witness_FlagOnTheLastCallOnly : 0 < [1#8].length + ([] : List Byte).length ∧ 0 < ([] : List Byte).length + [0#8].length := by
  decide
theorem witness_EveryMessageByteOnceInOrder : List.replicate 64 0#8 ≠ [] := by decide
theorem witness_StartBeginsAnInvocation :
    (st .idle base []).phase = .idle ∧ (st .done base []).phase = .done ∧ (st .error base []).phase = .error ∧
      1 ≤ (Phase.selector .valid).toNat ∧ (Phase.selector .bfDigest).toNat ≤ 17 := by decide
theorem witness_WrWritesOneDescriptorRegister :
    (0#4).toNat ≤ 9 ∧ (9#4).toNat ≤ 9 ∧ Phase.busy .error = false ∧ Phase.busy .valid = true := by decide
theorem witness_StatusShowsPhaseAndErr :
    ({ st .idle base [] with script := [.write 11#4 0] } : State).script = .write 11#4 0 :: [] := rfl
theorem witness_ReadBackOfTheOtherRegisters :
    ({ st .idle base [] with script := [.read 9#4] } : State).script = .read 9#4 :: [] ∧ (9#4).toNat ≤ 9 ∧ (10#4).toNat = 10 ∧
      12 ≤ (12#4).toNat := ⟨rfl, by decide, by decide, by decide⟩
theorem witness_InvocationComputesHashEx :
    (st .idle full abc).phase.busy = false ∧ firstFailure full = none ∧ (st .idle full abc).rangesOk = true := by decide
theorem witness_HashExCompletesWithTheDigest :
    (st .error base abc).phase.busy = false ∧
      base = ⟨.ofNat _ 0x100, .ofNat _ 32, .ofNat _ 0x1000, .ofNat _ 3, .ofNat _ 0, .ofNat _ 0, .ofNat _ 0, .ofNat _ 0, .ofNat _ 0,
        .ofNat _ 0⟩ ∧
      firstFailure base = none ∧ State.rangesOk { st .error base abc with desc := base } = true ∧
      (st .valid base abc).phase.busy = true := by decide
theorem witness_HashIsHashExWithoutSalt :
    (st .done base abc).phase.busy = false ∧
      base = ⟨.ofNat _ 0x100, .ofNat _ 32, .ofNat _ 0x1000, .ofNat _ 3, .ofNat _ 0, .ofNat _ 0, 0, 0, 0, 0⟩ ∧
      firstFailure base = none ∧ (st .done base abc).rangeOk base.outPtr.toNat base.hashlen.toNat = true ∧
      (st .done base abc).rangeOk base.dataPtr.toNat base.datalen.toNat = true ∧
      (st .done base abc).rangeOk base.keyPtr.toNat base.keylen.toNat = true ∧ (st .bfDigest base abc).phase.busy = true := by
  decide
theorem witness_HostLeavesTheDeclaredRangesAlone :
    0x11F < 2 ^ defaultWidths.aw ∧ 2 ^ defaultWidths.aw ≤ 0x100000000 ∧ (st .pbZero full []).phase.busy = true ∧
      (∃ r ∈ full.outputRange :: full.inputRanges, r.1 ≤ 0x11F ∧ 0x11F < r.1 + r.2) ∧ full.outPtr.toNat ≤ 0x11F ∧
      0x11F < full.outPtr.toNat + full.hashlen.toNat ∧ (st .pbZero full []).rangeExists 0x120 1 = true ∧
      (∀ r ∈ full.outputRange :: full.inputRanges, 0x120 < r.1 ∨ r.1 + r.2 ≤ 0x120) ∧ Phase.busy .idle = false ∧
      full.outPtr.toNat + full.hashlen.toNat ≤ 0x1000 ∧
      ({ st .pbZero full [] with absent := [⟨0x120, 1⟩] } : State).rangeExists 0x120 1 = false := by decide
theorem witness_ResetLeavesTheSpecifiedState :
    ({ st .bfKeycmp base [] with script := [.reset] } : State).script = .reset :: [] ∧ (9#4).toNat ≤ 9 ∧
      (st .bfKeycmp base []).phase ≠ .bfDigest := ⟨rfl, by decide, by decide⟩
theorem witness_ResetInsideDigestLeavesAMixture :
    ({ st .bfDigest full abc with script := [.reset] } : State).script = .reset :: [] ∧ (st .bfDigest full abc).phase = .bfDigest ∧
      Memory.wf defaultWidths abc = true ∧ full.hashlen.toNat ≤ 32 ∧
      (st .bfDigest full abc).rangeOk full.outPtr.toNat full.hashlen.toNat = true := ⟨rfl, rfl, by decide, by decide, by decide⟩
theorem witness_MemoryReadsBackWhatWasStored :
    Memory.wf defaultWidths abc = true ∧ 0xFFFFFFFF < 2 ^ defaultWidths.aw ∧ ∀ a, Memory.read abc a = Memory.read abc a := ⟨by decide, by decide, fun _ => rfl⟩

/-- One descriptor whose five ranges all wrap, and with it one for each access. -/
theorem witness_BrokenRangeDutyGivesNoStep_wraps :
    (let d : Descriptor := ⟨0xFFFFFFFF, 32, 0xFFFFFFFF, 65, 0xFFFFFFFF, 32, 0xFFFFFFFF, 8, 0xFFFFFFFF, 8⟩
     firstFailure d = none ∧ (st .pbSalt d []).taillen.toNat ≤ 64 ∧ 2 ^ defaultWidths.aw < d.saltPtr.toNat + d.saltlen.toNat ∧
      2 ^ defaultWidths.aw < d.persPtr.toNat + d.perslen.toNat ∧ 2 ^ defaultWidths.aw < d.keyPtr.toNat + d.keylen.toNat ∧
      2 ^ defaultWidths.aw < d.dataPtr.toNat + (st .bfTailld d []).span.toNat + (st .bfTailld d []).taillen.toNat ∧
      2 ^ defaultWidths.aw < d.dataPtr.toNat + 64 * (st .bfIntcmp d []).nint.toNat ∧
      2 ^ defaultWidths.aw < d.outPtr.toNat + d.hashlen.toNat) := by decide
theorem witness_BrokenRangeDutyGivesNoStep_absent :
    firstFailure full = none ∧ full.saltPtr.toNat + full.saltlen.toNat ≤ 2 ^ defaultWidths.aw ∧
      ∃ g ∈ ({ st .pbSalt full [] with absent := [⟨0x307, 1⟩] } : State).absent,
        ∃ a, full.saltPtr.toNat ≤ a ∧ a < full.saltPtr.toNat + full.saltlen.toNat ∧ g.base ≤ a ∧ a < g.base + g.size :=
  ⟨by decide, by decide, ⟨0x307, 1⟩, by decide, 0x307, by decide⟩
theorem witness_CoreTouchesOnlyItsRanges :
    (∃ t, coreStep still (st .pbSalt full abc) = .next t) ∧
      ∀ a ∈ coreReads (st .pbSalt full abc), Memory.read [] a = Memory.read (st .pbSalt full abc).mem a :=
  ⟨⟨_, rfl⟩, by decide⟩
theorem witness_CoreWritesAsTheAccessTableSays :
    (st .bfSetfin base []).phase.busy = true ∧ ∃ t, coreStep still (st .bfSetfin base []) = .next t := ⟨rfl, _, rfl⟩
theorem witness_EveryInvocationEnds :
    (st .bfSetfin base []).phase.busy = true ∧ (∃ t, coreStep still (st .bfSetfin base []) = .next t) ∧
      ∃ t, waitDone still invocationFuel (st .valid { full with datalen := 0 } []) = .next t :=
  ⟨rfl, ⟨_, rfl⟩, (view_eq_some (f := State.phase) (a := .done) (by decide +kernel)).imp fun _ h => h.1⟩

/-- A state of the invariant in VALID. -/
theorem witness_Inv_valid : Inv (st .valid full abc) := by
  constructor
  case memory => decide
  case accepted => exact fun _ => by decide
  all_goals
    simp [st, Phase.keyStep, Phase.messageStep, State.splitDone, Phase.blockBuilt, expectedCounter, expectedFlag, expectedFill]

/-- A state of the invariant in BF.WIPE, with the key block compressed. -/
theorem witness_Inv_wipe : Inv { st .bfWipe full abc with t0 := 64#32, t1 := 0#32, f0 := 0#32, f1 := 0#32 } := by
  constructor
  case memory => decide
  case accepted => exact fun _ => by decide
  all_goals
    simp [st, full, Phase.keyStep, Phase.messageStep, State.splitDone, Phase.blockBuilt,
      expectedCounter, expectedFlag, expectedFill, State.counter]

theorem witness_BusyCoreAlwaysHasAStep :
    Inv (st .valid full abc) ∧ (st .valid full abc).phase.busy = true ∧ (st .valid full abc).rangesOk = true :=
  ⟨witness_Inv_valid, rfl, by decide⟩
theorem witness_InvocationFollowsOneOfFourPaths :
    (st .valid base abc).phase = .valid ∧ firstFailure { base with hashlen := 33 } ≠ none ∧ firstFailure base = none ∧
      firstFailure full = none ∧ firstFailure { full with datalen := 0 } = none ∧ (st .valid full abc).rangesOk = true := by decide
theorem witness_CounterTotalsTheInput :
    (st .valid { full with datalen := 0 } []).phase = .valid ∧ firstFailure { full with datalen := 0 } = none ∧
      ∃ t, waitDone still invocationFuel (st .valid { full with datalen := 0 } []) = .next t :=
  ⟨rfl, by decide, (view_eq_some (f := State.phase) (a := .done) (by decide +kernel)).imp fun _ h => h.1⟩

/-- The same three message bytes at two places, under two working states. -/
theorem witness_EqualInputsGiveEqualDigests :
    (let d : Descriptor := { base with dataPtr := 0x2000, outPtr := 0x2002 }
     let m : Memory := [(0x1000, 0x99#8), (0x2000, 0x61#8), (0x2001, 0x62#8), (0x2002, 0x63#8)]
     (st .done base abc).phase.busy = false ∧ (st .error d m).phase.busy = false ∧ Memory.wf defaultWidths abc = true ∧ Memory.wf defaultWidths m = true ∧
      firstFailure base = none ∧ firstFailure d = none ∧ (st .done base abc).rangesOk = true ∧ (st .error d m).rangesOk = true ∧
      base.hashlen = d.hashlen ∧ base.datalen = d.datalen ∧ base.keylen = d.keylen ∧ base.saltlen = d.saltlen ∧
      base.perslen = d.perslen ∧ ∀ k < base.datalen.toNat, Memory.read abc (base.dataPtr.toNat + k) = Memory.read m (d.dataPtr.toNat + k)) := by
  decide
theorem witness_OnlyTheHostChangesTheDescriptor :
    view (step { st .done base [] with script := [.write 1#4 1] }) (fun t => t.desc == base) = some false ∧
      view (step { st .done base [] with script := [.command 1#8 [0, 0, 0, 0, 0, 0]] }) (fun t => t.desc == base) = some false ∧
      view (step { st .done base [] with script := [.reset] }) (fun t => t.desc == base) = some false := by decide
theorem witness_OnlyStartLeavesARestingPhase :
    (st .done base []).phase.busy = false ∧
      view (step { st .done base [] with script := [.write 10#4 1] }) (·.phase) = some .valid ∧
      view (step { st .done base [] with script := [.command 1#8 []] }) (·.phase) = some .valid ∧
      view (step { st .done base [] with script := [.command 1#8 [0, 0, 0, 0, 0, 0]] }) (·.phase) = some .error ∧
      view (step { st .done base [] with script := [.reset] }) (·.phase) = some .idle := by decide
theorem witness_EveryStepKeepsTheInvariant :
    Inv (st .valid full abc) ∧ (∃ t, step (st .valid full abc) = .next t) ∧
      Inv { st .bfWipe full abc with t0 := 64#32, t1 := 0#32, f0 := 0#32, f1 := 0#32 } ∧
      ∃ t, step { st .bfWipe full abc with t0 := 64#32, t1 := 0#32, f0 := 0#32, f1 := 0#32 } = .next t :=
  ⟨witness_Inv_valid, ⟨_, rfl⟩, witness_Inv_wipe, ⟨_, rfl⟩⟩
theorem witness_EveryStepKeepsMemoryCanonical :
    Memory.wf defaultWidths abc = true ∧ (∃ t, step (st .bfDigest full abc) = .next t) ∧
      ∃ t, step { st .done full abc with script := [.store 0x1001 0#8] } = .next t :=
  ⟨by decide, (view_eq_some (f := State.phase) (a := .done) (by decide)).imp fun _ h => h.1,
    (view_eq_some (f := State.phase) (a := .done) (by decide)).imp fun _ h => h.1⟩

end Sys2Proof.Tests
end

section
/-! The status register (10_state.md R30 to R32, R191): the value STATUS shows, the numbers of PHASE and ERR, and the refusal of
a write to it. -/

namespace Sys2Proof.Machine

open Sys2Proof.Config

variable {W : Widths}

/-- PHASE stands in bits [4:0] of STATUS, ERR in bits [7:5], and the bits above are zero (R32). -/
theorem status_toNat (s : State W) : s.status.toNat = s.phase.selector.toNat + 32 * (errCode s.err).toNat := by
  have hphase : s.phase.selector.toNat < 2 ^ 5 := s.phase.selector.isLt
  calc s.status.toNat
    _ = (0#24 ++ errCode s.err).toNat <<< 5 ||| s.phase.selector.toNat := BitVec.toNat_append _ _
    _ = (errCode s.err).toNat <<< 5 + s.phase.selector.toNat := by
      rw [← Nat.shiftLeft_add_eq_or_of_lt hphase, BitVec.toNat_append]
      simp
    _ = s.phase.selector.toNat + 32 * (errCode s.err).toNat := by
      rw [Nat.shiftLeft_eq]
      omega

/-- RD STATUS reads STATUS and changes nothing else, in every phase (R32, R83). -/
theorem exec_rdStatus (s : State) : exec .rdStatus s = .next { s with hostRead := s.status.toNat } := rfl

/-- The PHASE values in R30's order are numbered 0 to 19. -/
theorem phase_selectors_eq_range :
    ([Phase.idle, .valid, .pbZero, .pbHdr, .pbSalt, .pbPers, .siXoriv, .siClrtf, .bfKeyld, .bfKeyfin, .bfKeycmp, .bfWipe,
      .bfSplit, .bfTailld, .bfIntcmp, .bfSetfin, .bfTailcmp, .bfDigest, .done, .error].map fun p => p.selector.toNat) =
      List.range 20 := by decide

/-- "No error" and the six kinds in R191's order are numbered 0 to 6. -/
theorem errCodes_eq_range :
    ([none, some .invalidDigestLength, some .invalidKeyLength, some .invalidSaltLength, some .invalidPersonalizationLength,
      some .nullBufferWithNonzeroLength, some .emptyUnkeyedInput].map fun e => (errCode e).toNat) = List.range 7 := by decide

/-- The decoder gives a write of STATUS no instruction (R81 (e)). -/
theorem decode_regWrite_status (v : HostValue) : decode (.regWrite 11#4 v) = .error .writeToStatus := rfl

/-- A host line that writes STATUS is refused by name, in every state. -/
theorem step_write_status {s : State} {v : HostValue} {rest : List HostMove} (h : s.script = .write 11#4 v :: rest) :
    step s = .refused (.undecodable .writeToStatus) := by
  rw [step_of_script h]
  simp only [hostStep, runCode, decode_regWrite_status]

/-- Settles O39: the value read from `status_toNat`, the numbers by listing them, `busy` from `busy_iff_selector`. -/
theorem statusShowsPhaseAndErr : Obligations.StatusShowsPhaseAndErr := by
  unfold Obligations.StatusShowsPhaseAndErr
  refine ⟨fun s => ?_, phase_selectors_eq_range, errCodes_eq_range, busy_iff_selector, fun _ _ _ => step_write_status⟩
  exact ⟨_, exec_rdStatus s, status_toNat s, rfl⟩

end Sys2Proof.Machine
end

section
/-! The parameter block `pb_encode` answers (30_encoding.md R71 to R74): its bytes by offset, then its word view. -/

namespace Sys2Proof.Machine

/-- Lanes that do not overlap add up. -/
theorem or_two_pow_mul {i b : Nat} (hb : b < 2 ^ i) (a : Nat) : b ||| 2 ^ i * a = b + 2 ^ i * a := by
  rw [Nat.or_comm, Nat.add_comm, Nat.two_pow_add_eq_or_of_lt hb]

/-- A byte moved up by `k` bits within a word. -/
theorem toNat_setWidth_shiftLeft (b : Byte) {k : Nat} (hk : k ≤ 24) :
    (b.setWidth 32 <<< k : Word).toNat = 2 ^ k * b.toNat := by
  have hlt : b.toNat * 2 ^ k < 2 ^ 32 :=
    calc b.toNat * 2 ^ k
      _ < 2 ^ 8 * 2 ^ k := by gcongr; exact b.isLt
      _ ≤ 2 ^ 8 * 2 ^ 24 := by gcongr; omega
  rw [BitVec.toNat_shiftLeft, BitVec.toNat_setWidth_of_le (by omega), Nat.shiftLeft_eq, Nat.mod_eq_of_lt hlt, Nat.mul_comm]

/-- `LE32` as a number (R8). -/
theorem le32_toNat (b0 b1 b2 b3 : Byte) :
    (le32 b0 b1 b2 b3).toNat = b0.toNat + 2 ^ 8 * b1.toNat + 2 ^ 16 * b2.toNat + 2 ^ 24 * b3.toNat := by
  have h0 := b0.isLt
  have h1 := b1.isLt
  have h2 := b2.isLt
  simp only [le32, BitVec.toNat_or, toNat_setWidth_shiftLeft, BitVec.toNat_setWidth_of_le, Nat.reduceLeDiff]
  rw [or_two_pow_mul (i := 8) h0, or_two_pow_mul (i := 16) (by omega), or_two_pow_mul (i := 24) (by omega)]

/-- Word `i` of a block is `LE32` of its bytes `4i` to `4i + 3` (R70). -/
theorem getElem_blockWords (pb : ParamBlock) {i : Nat} (hi : i < 8) :
    (blockWords pb)[i] = le32 pb[4 * i] pb[4 * i + 1] pb[4 * i + 2] pb[4 * i + 3] := by
  simp [blockWords]

/-- Two neighbouring words read an eight-byte field of the block (R70, R72). -/
theorem blockWords_of_field {pb : ParamBlock} {w : Nat} {field : List Byte} (hw : w < 7)
    (hfield : ∀ k, (hk : k < 8) → pb[4 * w + k] = field.getD k 0) :
    (blockWords pb)[w] = le32 (field.getD 0 0) (field.getD 1 0) (field.getD 2 0) (field.getD 3 0) ∧
      (blockWords pb)[w + 1] = le32 (field.getD 4 0) (field.getD 5 0) (field.getD 6 0) (field.getD 7 0) := by
  constructor
  · rw [getElem_blockWords pb (by omega), ← hfield 0 (by decide), ← hfield 1 (by decide), ← hfield 2 (by decide),
      ← hfield 3 (by decide)]
    rfl
  · rw [getElem_blockWords pb (by omega), ← hfield 4 (by decide), ← hfield 5 (by decide), ← hfield 6 (by decide),
      ← hfield 7 (by decide)]
    rfl

section
variable {hl kl : Nat} {salt pers : List Byte} {pb : ParamBlock}

/-- The encoder answers inside its ranges only (R97). -/
theorem pbEncode_ranges (h : pbEncode hl kl salt pers = some pb) :
    1 ≤ hl ∧ hl ≤ 32 ∧ kl ≤ 32 ∧ salt.length ≤ 8 ∧ pers.length ≤ 8 := by
  unfold pbEncode at h
  split at h
  · assumption
  · cases h

/-- Every byte of an encoded block, by its offset (R71). -/
theorem getElem_of_pbEncode (h : pbEncode hl kl salt pers = some pb) {j : Nat} (hj : j < 32) :
    pb[j] =
      if j = 0 then BitVec.ofNat 8 hl
      else if j = 1 then BitVec.ofNat 8 kl
      else if j = 2 then 1#8
      else if j = 3 then 1#8
      else if j < 16 then 0#8
      else if j < 24 then salt.getD (j - 16) 0#8
      else pers.getD (j - 24) 0#8 := by
  unfold pbEncode at h
  split at h
  · rw [← Option.some.inj h, Vector.getElem_ofFn]
  · cases h

/-- The first word holds HASHLEN, KEYLEN and the two fixed bytes in its four lanes (R73). -/
theorem blockWords_zero_of_pbEncode (h : pbEncode hl kl salt pers = some pb) :
    (blockWords pb)[0].toNat = 0x01010000 + 256 * kl + hl := by
  obtain ⟨-, hhl, hkl, -, -⟩ := pbEncode_ranges h
  rw [getElem_blockWords pb (by omega), le32_toNat]
  simp only [Nat.mul_zero, getElem_of_pbEncode h, BitVec.toNat_ofNat, Nat.reduceAdd, Nat.reduceEqDiff, if_true, if_false]
  omega

/-- Words 1 to 3 are the reserved bytes 4 to 15, all zero (R76). -/
theorem blockWords_reserved_of_pbEncode (h : pbEncode hl kl salt pers = some pb) {i : Nat} (h1 : 1 ≤ i) (h4 : i < 4) :
    (blockWords pb)[i] = 0#32 := by
  have hzero {j : Nat} (hlo : 4 ≤ j) (hhi : j < 16) : pb[j] = 0#8 := by
    rw [getElem_of_pbEncode h (by omega)]
    simp [show j ≠ 0 ∧ j ≠ 1 ∧ j ≠ 2 ∧ j ≠ 3 by omega, hhi]
  rw [getElem_blockWords pb (by omega), hzero (by omega) (by omega), hzero (by omega) (by omega),
    hzero (by omega) (by omega), hzero (by omega) (by omega)]
  rfl

/-- The salt field is the salt padded with zeros (R74). -/
theorem getElem_salt_of_pbEncode (h : pbEncode hl kl salt pers = some pb) {k : Nat} (hk : k < 8) :
    pb[16 + k] = salt.getD k 0 := by
  rw [getElem_of_pbEncode h (by omega)]
  simp [show 16 + k ≠ 0 ∧ 16 + k ≠ 1 ∧ 16 + k ≠ 2 ∧ 16 + k ≠ 3 ∧ ¬ 16 + k < 16 ∧ 16 + k < 24 by omega]

/-- The personalization field is the personalization padded with zeros (R74). -/
theorem getElem_pers_of_pbEncode (h : pbEncode hl kl salt pers = some pb) {k : Nat} (hk : k < 8) :
    pb[24 + k] = pers.getD k 0 := by
  rw [getElem_of_pbEncode h (by omega)]
  simp [show 24 + k ≠ 0 ∧ 24 + k ≠ 1 ∧ 24 + k ≠ 2 ∧ 24 + k ≠ 3 ∧ ¬ 24 + k < 16 ∧ ¬ 24 + k < 24 by omega]

end

/-- Settles O16: the first word as a sum of lanes, the other seven read from the block's fields. -/
theorem parameterBlockWordView : Obligations.ParameterBlockWordView := by
  unfold Obligations.ParameterBlockWordView
  intro hl kl salt pers pb h
  have reserved {i : Nat} (h1 : 1 ≤ i) (h4 : i < 4) := blockWords_reserved_of_pbEncode h h1 h4
  obtain ⟨word4, word5⟩ := blockWords_of_field (w := 4) (by decide) fun _ hk => getElem_salt_of_pbEncode h hk
  obtain ⟨word6, word7⟩ := blockWords_of_field (w := 6) (by decide) fun _ hk => getElem_pers_of_pbEncode h hk
  exact ⟨blockWords_zero_of_pbEncode h, reserved (by decide) (by decide), reserved (by decide) (by decide),
    reserved (by decide) (by decide), word4, word5, word6, word7⟩

end Sys2Proof.Machine
end

section
/-! The parameter block encoder (40_param_block_encoder.md R91 to R96): the bytes each operation writes and leaves, then the
four operations one after another against `pb_encode`. -/

namespace Sys2Proof.Machine

open Sys2Proof.Config

variable {W : Widths}

/-! Bytes of the block under a run of byte writes. -/

/-- From the first byte written on: the bytes written first, then what the field held. -/
theorem byteAt_writePb_field (h : Chain) (bs : List Byte) {off k : Nat} (ho : off + bs.length ≤ 32) :
    byteAt (writePb h off bs) (off + k) = if k < bs.length then bs.getD k 0#8 else byteAt h (off + k) := by
  rw [byteAt_writePb bs h ho, Nat.add_sub_cancel_left]
  simp only [Nat.le_add_right, true_and, Nat.add_lt_add_iff_left]

/-- Outside the bytes written nothing changes (R93, R94). -/
theorem byteAt_writePb_outside (h : Chain) (bs : List Byte) {off j : Nat} (ho : off + bs.length ≤ 32)
    (hj : j < off ∨ off + bs.length ≤ j) : byteAt (writePb h off bs) j = byteAt h j := by
  rw [byteAt_writePb bs h ho, if_neg (by omega)]

/-- A field that was zero holds the bytes written, padded with zeros (R74). -/
theorem byteAt_writePb_zeroField {h : Chain} (bs : List Byte) {off k : Nat} (ho : off + bs.length ≤ 32)
    (hzero : byteAt h (off + k) = 0#8) : byteAt (writePb h off bs) (off + k) = bs.getD k 0 := by
  rw [byteAt_writePb_field h bs ho, hzero]
  split
  · rfl
  · exact (List.getD_eq_default _ _ (by omega)).symm

/-- A field into which bytes of host memory are copied: the bytes read first, then what the field held (R93, R94). -/
theorem byteAt_writePb_readBytes (h : Chain) (m : Memory) (p : Nat) {off n k : Nat} (ho : off + n ≤ 32) :
    byteAt (writePb h off (readBytes m p n)) (off + k) = if k < n then Memory.read m (p + k) else byteAt h (off + k) := by
  rw [byteAt_writePb_field h _ (by rwa [readBytes_length]), readBytes_length]
  split
  · next hk => rw [readBytes_getD, if_pos hk]
  · rfl

/-- Copying bytes of host memory into a field leaves every byte outside as it was (R93, R94). -/
theorem byteAt_writePb_readBytes_outside (h : Chain) (m : Memory) (p : Nat) {off n j : Nat} (ho : off + n ≤ 32)
    (hj : j < off ∨ off + n ≤ j) : byteAt (writePb h off (readBytes m p n)) j = byteAt h j :=
  byteAt_writePb_outside h _ (by rwa [readBytes_length]) (by rwa [readBytes_length])

/-! Each operation answers inside its ranges. -/

theorem exec_pbZero (s : State) : exec .pbZero s = .next { s with h := Vector.replicate 8 0#32, phase := .pbHdr } := rfl

theorem exec_pbHdr {s : State} (h1 : 1 ≤ s.desc.hashlen.toNat) (h32 : s.desc.hashlen.toNat ≤ 32)
    (hk : s.desc.keylen.toNat ≤ 32) :
    exec .pbHdr s = .next { s with h := s.h.set 0 (headerWord s.desc), phase := .pbSalt } :=
  execPbHdr_eq_next.2 ⟨⟨h1, h32, hk⟩, rfl⟩

theorem exec_pbSalt {s : State} (h8 : s.desc.saltlen.toNat ≤ 8)
    (hok : s.rangeOk s.desc.saltPtr.toNat s.desc.saltlen.toNat = true) :
    exec .pbSalt s = .next { s with
      h := writePb s.h 16 (readBytes s.mem s.desc.saltPtr.toNat s.desc.saltlen.toNat), phase := .pbPers } :=
  execPbSalt_eq_next.2 ⟨⟨h8, hok⟩, rfl⟩

theorem exec_pbPers {s : State} (h8 : s.desc.perslen.toNat ≤ 8)
    (hok : s.rangeOk s.desc.persPtr.toNat s.desc.perslen.toNat = true) :
    exec .pbPers s = .next { s with
      h := writePb s.h 24 (readBytes s.mem s.desc.persPtr.toNat s.desc.perslen.toNat), phase := .siXoriv } :=
  execPbPers_eq_next.2 ⟨⟨h8, hok⟩, rfl⟩

/-- PB.SALT and then PB.PERS: both fields copied, the salt first (R93, R94, R96). -/
theorem exec_pbSalt_pbPers {s : State} (hsl : s.desc.saltlen.toNat ≤ 8) (hpl : s.desc.perslen.toNat ≤ 8)
    (hsalt : s.rangeOk s.desc.saltPtr.toNat s.desc.saltlen.toNat = true)
    (hpers : s.rangeOk s.desc.persPtr.toNat s.desc.perslen.toNat = true) :
    andThen (exec .pbSalt s) (exec .pbPers) = .next { s with
      h := writePb (writePb s.h 16 (readBytes s.mem s.desc.saltPtr.toNat s.desc.saltlen.toNat)) 24
        (readBytes s.mem s.desc.persPtr.toNat s.desc.perslen.toNat)
      phase := .siXoriv } :=
  andThen_eq_next.2 ⟨_, exec_pbSalt hsl hsalt, exec_pbPers hpl hpers⟩

/-! The header word. -/

/-- The first word is `LE32` of HASHLEN, KEYLEN, fanout 1 and depth 1 (R73, R92). -/
theorem headerWord_eq_le32 {d : Descriptor W} (hhl : d.hashlen.toNat ≤ 32) (hkl : d.keylen.toNat ≤ 32) :
    headerWord d = le32 (BitVec.ofNat 8 d.hashlen.toNat) (BitVec.ofNat 8 d.keylen.toNat) 1#8 1#8 := by
  obtain ⟨w0, w1, w2, w3⟩ := byteOf_headerWord d hhl hkl
  obtain ⟨e0, e1, e2, e3⟩ := byteOf_le32 (BitVec.ofNat 8 d.hashlen.toNat) (BitVec.ofNat 8 d.keylen.toNat) 1#8 1#8
  refine word_ext_bytes fun k hk => ?_
  interval_cases k
  · rw [w0, e0]
  · rw [w1, e1]
  · rw [w2, e2]
  · rw [w3, e3]

/-- The first word as a sum of its four lanes (R92). -/
theorem headerWord_toNat {d : Descriptor W} (hhl : d.hashlen.toNat ≤ 32) (hkl : d.keylen.toNat ≤ 32) :
    (headerWord d).toNat = d.hashlen.toNat + 256 * d.keylen.toNat + 65536 * 1 + 16777216 * 1 := by
  rw [headerWord_eq_le32 hhl hkl, le32_toNat]
  simp only [BitVec.toNat_ofNat]
  omega

/-! The four operations in a row. -/

/-- What `h` holds after PB.ZERO and PB.HDR (R91, R92). -/
def headerChain (d : Descriptor W) : Chain := (Vector.replicate 8 0#32).set 0 (headerWord d)

/-- What `h` holds after all four operations, for the salt and personalization bytes read (R91 to R94). -/
def encodedChain (d : Descriptor W) (salt pers : List Byte) : Chain := writePb (writePb (headerChain d) 16 salt) 24 pers

/-- The encoder, run as PHASE orders it, leaves `encodedChain` in `h` whatever `h` held (R95). -/
theorem exec_encoder {s : State} (h1 : 1 ≤ s.desc.hashlen.toNat) (h32 : s.desc.hashlen.toNat ≤ 32)
    (hk : s.desc.keylen.toNat ≤ 32) (hsl : s.desc.saltlen.toNat ≤ 8) (hpl : s.desc.perslen.toNat ≤ 8)
    (hsalt : s.rangeOk s.desc.saltPtr.toNat s.desc.saltlen.toNat = true)
    (hpers : s.rangeOk s.desc.persPtr.toNat s.desc.perslen.toNat = true) :
    andThen (exec .pbZero s) (fun a => andThen (exec .pbHdr a) fun b => andThen (exec .pbSalt b) (exec .pbPers)) =
      .next { s with
        h := encodedChain s.desc (readBytes s.mem s.desc.saltPtr.toNat s.desc.saltlen.toNat)
          (readBytes s.mem s.desc.persPtr.toNat s.desc.perslen.toNat)
        phase := .siXoriv } :=
  andThen_eq_next.2 ⟨_, exec_pbZero s, andThen_eq_next.2
    ⟨_, exec_pbHdr h1 h32 hk, exec_pbSalt_pbPers hsl hpl hsalt hpers⟩⟩

/-- Inside its ranges `pb_encode` answers (R95, R97). -/
theorem exists_pbEncode {hl kl : Nat} {salt pers : List Byte} (h1 : 1 ≤ hl) (h32 : hl ≤ 32) (hk : kl ≤ 32)
    (hsalt : salt.length ≤ 8) (hpers : pers.length ≤ 8) : ∃ pb, pbEncode hl kl salt pers = some pb :=
  ⟨_, if_pos ⟨h1, h32, hk, hsalt, hpers⟩⟩

/-- After PB.HDR bytes 4 to 31 are still zero (R91, R92). -/
theorem byteAt_headerChain_zero (d : Descriptor W) {j : Nat} (h4 : 4 ≤ j) (hj : j < 32) : byteAt (headerChain d) j = 0#8 := by
  rw [headerChain, byteAt_setFirst _ _ hj, if_neg (by omega), byteAt_zeroChain hj]

section
variable {d : Descriptor W} {salt pers : List Byte} {pb : ParamBlock}

/-- After PB.HDR the bytes before the salt field are those of `pb_encode`. -/
theorem byteAt_headerChain (h : pbEncode d.hashlen.toNat d.keylen.toNat salt pers = some pb) {j : Nat} (hj : j < 16) :
    byteAt (headerChain d) j = pb[j] := by
  obtain ⟨-, hhl, hkl, -, -⟩ := pbEncode_ranges h
  rw [getElem_of_pbEncode h (by omega)]
  by_cases h4 : j < 4
  · obtain ⟨w0, w1, w2, w3⟩ := byteOf_headerWord d hhl hkl
    rw [headerChain, byteAt_setFirst _ _ (by omega), if_pos h4]
    interval_cases j
    · exact w0
    · exact w1
    · exact w2
    · exact w3
  · rw [byteAt_headerChain_zero d (by omega) (by omega)]
    simp [show j ≠ 0 ∧ j ≠ 1 ∧ j ≠ 2 ∧ j ≠ 3 by omega, hj]

/-- The four operations leave the words of the block `pb_encode` answers: the header, the salt field and the personalization
field agree byte by byte (R95). -/
theorem encodedChain_eq_blockWords (h : pbEncode d.hashlen.toNat d.keylen.toNat salt pers = some pb) :
    encodedChain d salt pers = blockWords pb := by
  obtain ⟨-, -, -, hsalt, hpers⟩ := pbEncode_ranges h
  refine chain_ext_bytes fun j hj => ?_
  rw [byteAt_blockWords pb hj, encodedChain]
  rcases Nat.lt_or_ge j 24 with h24 | h24
  · rw [byteAt_writePb_outside _ pers (by omega) (.inl h24)]
    rcases Nat.lt_or_ge j 16 with h16 | h16
    · rw [byteAt_writePb_outside _ salt (by omega) (.inl h16), byteAt_headerChain h h16]
    · obtain ⟨k, rfl⟩ := Nat.exists_eq_add_of_le h16
      rw [byteAt_writePb_zeroField salt (by omega) (byteAt_headerChain_zero d (by omega) hj),
        getElem_salt_of_pbEncode h (by omega)]
  · obtain ⟨k, rfl⟩ := Nat.exists_eq_add_of_le h24
    have hzero : byteAt (writePb (headerChain d) 16 salt) (24 + k) = 0#8 := by
      rw [byteAt_writePb_outside _ salt (by omega) (.inr (by omega)), byteAt_headerChain_zero d (by omega) hj]
    rw [byteAt_writePb_zeroField pers (by omega) hzero, getElem_pers_of_pbEncode h (by omega)]

end

/-- A byte other than zero tells the block that has it in the salt field from the one that has it in the personalization
field (R75). -/
theorem pbEncode_salt_ne_pers {hl kl : Nat} {x : List Byte} {a b : ParamBlock} (hx : ∃ v ∈ x, v ≠ 0#8)
    (ha : pbEncode hl kl x [] = some a) (hb : pbEncode hl kl [] x = some b) : a ≠ b := by
  obtain ⟨v, hv, hv0⟩ := hx
  obtain ⟨k, hk, rfl⟩ := List.getElem_of_mem hv
  obtain ⟨-, -, -, hlen, -⟩ := pbEncode_ranges ha
  have hk8 : k < 8 := by omega
  rintro rfl
  refine hv0 ?_
  calc x[k]
    _ = x.getD k 0 := (List.getD_eq_getElem x 0 hk).symm
    _ = a[16 + k] := (getElem_salt_of_pbEncode ha hk8).symm
    _ = ([] : List Byte).getD k 0 := getElem_salt_of_pbEncode hb hk8
    _ = 0#8 := rfl

/-- Settles O15: the run from `exec_encoder`, its words from `encodedChain_eq_blockWords`. -/
theorem encoderComputesPbEncode : Obligations.EncoderComputesPbEncode := by
  unfold Obligations.EncoderComputesPbEncode
  intro s h1 h32 hk hsl hpl hsalt hpers
  obtain ⟨pb, hpb⟩ := exists_pbEncode (salt := readBytes s.mem s.desc.saltPtr.toNat s.desc.saltlen.toNat)
    (pers := readBytes s.mem s.desc.persPtr.toNat s.desc.perslen.toNat) h1 h32 hk (by rwa [readBytes_length])
    (by rwa [readBytes_length])
  refine ⟨_, pb, exec_encoder h1 h32 hk hsl hpl hsalt hpers, hpb, fun i => ?_, rfl⟩
  simp only [encodedChain_eq_blockWords hpb]
  exact getElem_blockWords pb i.isLt

/-- Settles O17: PB.PERS writes from byte 24 on, past the salt field, and a byte other than zero tells the two blocks apart. -/
theorem saltAndPersonalizationStayApart : Obligations.SaltAndPersonalizationStayApart := by
  unfold Obligations.SaltAndPersonalizationStayApart
  refine ⟨fun s hsl hpl hsalt hpers => ?_, fun _ _ _ _ _ => pbEncode_salt_ne_pers⟩
  refine ⟨_, exec_pbSalt_pbPers hsl hpl hsalt hpers, fun k hk => ?_, fun k hk => ?_, fun j hj => ?_⟩
  · rw [byteAt_writePb_readBytes_outside _ _ _ (by omega) (.inl (by omega)), byteAt_writePb_readBytes _ _ _ (by omega)]
  · rw [byteAt_writePb_readBytes _ _ _ (by omega), byteAt_writePb_readBytes_outside _ _ _ (by omega) (.inr (by omega))]
  · rw [byteAt_writePb_readBytes_outside _ _ _ (by omega) (.inl (by omega)),
      byteAt_writePb_readBytes_outside _ _ _ (by omega) (.inl (by omega))]

/-- Settles O11: the run is `exec_pbZero`, and every word of the chain it leaves is zero. -/
theorem pbZeroClearsTheBlock : Obligations.PbZeroClearsTheBlock := by
  unfold Obligations.PbZeroClearsTheBlock
  refine ⟨rfl, fun s => ⟨_, exec_pbZero s, fun i => ?_, rfl⟩⟩
  exact Vector.getElem_replicate i.isLt

/-- Settles O12: the first word's value is `headerWord_toNat`, the other words are not set. -/
theorem pbHdrWritesTheFirstWord : Obligations.PbHdrWritesTheFirstWord := by
  unfold Obligations.PbHdrWritesTheFirstWord
  refine ⟨rfl, fun s h1 h32 hk => ⟨_, exec_pbHdr h1 h32 hk, ?_, fun i hi => ?_, rfl⟩⟩
  · rw [Vector.getElem_set_self]
    exact headerWord_toNat h32 hk
  · exact Vector.getElem_set_ne (by decide) i.isLt fun h0 => hi (Fin.ext h0.symm)

/-- Settles O13: the run is `exec_pbSalt`; the bytes from `byteAt_writePb_readBytes` inside what is copied and from
`byteAt_writePb_readBytes_outside` elsewhere. -/
theorem pbSaltCopiesTheSalt : Obligations.PbSaltCopiesTheSalt := by
  unfold Obligations.PbSaltCopiesTheSalt
  refine ⟨rfl, fun s h8 hok => ⟨_, exec_pbSalt h8 hok, fun k hk => ?_, fun j _ hj => ?_, rfl⟩⟩
  · rw [byteAt_writePb_readBytes _ _ _ (by omega), if_pos hk]
  · exact byteAt_writePb_readBytes_outside _ _ _ (by omega) hj

/-- Settles O14: the run is `exec_pbPers`; the two byte lemmas of O13, from byte 24 on. -/
theorem pbPersCopiesThePersonalization : Obligations.PbPersCopiesThePersonalization := by
  unfold Obligations.PbPersCopiesThePersonalization
  refine ⟨rfl, fun s h8 hok => ⟨_, exec_pbPers h8 hok, fun k hk => ?_, fun j _ hj => ?_, rfl⟩⟩
  · rw [byteAt_writePb_readBytes _ _ _ (by omega), if_pos hk]
  · exact byteAt_writePb_readBytes_outside _ _ _ (by omega) hj

end Sys2Proof.Machine
end

section
/-! The state initializer (41_state_initializer.md R112 to R114): each operation's answer, the two in a row, and encoder and
initializer together against `state_init`. -/

namespace Sys2Proof.Machine

open Sys2Proof.Config

variable {W : Widths}

theorem exec_siXoriv (s : State) : exec .siXoriv s = siXoriv params s := rfl

theorem exec_siClrtf (s : State) : exec .siClrtf s = execSiClrtf s := rfl

/-- A chaining state XORed with `IV` word by word (R112). -/
def xorIv (P : Params) (h : Chain) : Chain := Vector.ofFn fun i : Fin 8 => h[i] ^^^ P.iv[i]

@[simp] theorem getElem_xorIv (P : Params) (h : Chain) (i : Fin 8) : (xorIv P h)[i] = h[i] ^^^ P.iv[i] :=
  Vector.getElem_ofFn i.isLt

theorem siXoriv_eq_next_xorIv (P : Params) (s : State W) :
    siXoriv P s = .next { s with h := xorIv P s.h, phase := .siClrtf } :=
  siXoriv_eq_next.2 rfl

/-- `state_init` is the words of the block XORed with `IV`, with counter and flags zero (R114). -/
theorem stateInit_eq_xorIv (P : Params) (pb : ParamBlock) :
    stateInit P pb = { h := xorIv P (blockWords pb), counter := 0#64, f0 := 0#32, f1 := 0#32 } := rfl

/-- The phase in which the feeder is entered: step 1 with a key, step 2 without (R113). -/
def feederEntry (d : Descriptor W) : Phase := if d.keylen.toNat ≠ 0 then .bfKeyld else .bfSplit

theorem execSiClrtf_eq_next_feederEntry (s : State W) :
    execSiClrtf s = .next { clearCounterAndFlags s with phase := feederEntry s.desc } :=
  execSiClrtf_eq_next.2 rfl

/-- The initializer's two operations in a row (R112, R113). -/
theorem siXoriv_siClrtf (P : Params) (s : State W) :
    andThen (siXoriv P s) execSiClrtf =
      .next { clearCounterAndFlags s with h := xorIv P s.h, phase := feederEntry s.desc } :=
  andThen_eq_next.2 ⟨_, siXoriv_eq_next_xorIv P s, execSiClrtf_eq_next_feederEntry _⟩

/-- Once its first part has answered, a sequence answers what the second part does. -/
theorem andThen_eq_of_next {o r : Result W} {s : State W} {k : State W → Result W} (h : o = .next s) (hk : k s = r) :
    andThen o k = r := by
  rw [h, andThen_next, hk]

/-- For an accepted descriptor the encoder goes on with `encodedChain` in `h`, at every width (R95). -/
theorem encoder_andThen {s : State W} (haccepted : firstFailure s.desc = none)
    (hsalt : s.rangeOk s.desc.saltPtr.toNat s.desc.saltlen.toNat = true)
    (hpers : s.rangeOk s.desc.persPtr.toNat s.desc.perslen.toNat = true) (k : State W → Result W) :
    andThen (execPbZero s) (fun a => andThen (execPbHdr a) fun b => andThen (execPbSalt b) fun c => andThen (execPbPers c) k) =
      k { s with
        h := encodedChain s.desc (readBytes s.mem s.desc.saltPtr.toNat s.desc.saltlen.toNat)
          (readBytes s.mem s.desc.persPtr.toNat s.desc.perslen.toNat)
        phase := .siXoriv } := by
  obtain ⟨h1, h32, hk, hsl, hpl, -⟩ := accepted_bounds haccepted
  refine andThen_eq_of_next (execPbZero_eq_next.2 rfl) ?_
  refine andThen_eq_of_next (execPbHdr_eq_next.2 ⟨⟨h1, h32, hk⟩, rfl⟩) ?_
  refine andThen_eq_of_next (execPbSalt_eq_next.2 ⟨⟨hsl, hsalt⟩, rfl⟩) ?_
  exact andThen_eq_of_next (execPbPers_eq_next.2 ⟨⟨hpl, hpers⟩, rfl⟩) rfl

/-- For an accepted descriptor `pb_encode` answers on the bytes read (R95, R97). -/
theorem exists_pbEncode_of_accepted {d : Descriptor W} (haccepted : firstFailure d = none) (m : Memory) :
    ∃ pb, pbEncode d.hashlen.toNat d.keylen.toNat (readBytes m d.saltPtr.toNat d.saltlen.toNat)
      (readBytes m d.persPtr.toNat d.perslen.toNat) = some pb := by
  obtain ⟨h1, h32, hk, hsl, hpl, -⟩ := accepted_bounds haccepted
  exact exists_pbEncode h1 h32 hk (by rwa [readBytes_length]) (by rwa [readBytes_length])

/-- Settles O21: the encoder leaves the words of the block (`encodedChain_eq_blockWords`), the initializer XORs them with `IV`
and zeroes counter and flags. -/
theorem initializerComputesStateInit : Obligations.InitializerComputesStateInit := by
  unfold Obligations.InitializerComputesStateInit
  intro W P s haccepted hsalt hpers
  obtain ⟨pb, hpb⟩ := exists_pbEncode_of_accepted haccepted s.mem
  refine ⟨_, pb, (encoder_andThen haccepted hsalt hpers _).trans (siXoriv_siClrtf P _), hpb, ?_, rfl⟩
  rw [stateInit_eq_xorIv, ← encodedChain_eq_blockWords hpb, ← clearCounterAndFlags_counter s]
  rfl

/-- Settles O19: the run is `siXoriv_eq_next_xorIv`, its words `getElem_xorIv`. -/
theorem siXorivFoldsTheBlockIntoTheIv : Obligations.SiXorivFoldsTheBlockIntoTheIv := by
  unfold Obligations.SiXorivFoldsTheBlockIntoTheIv
  refine ⟨Laws.RoundTrip.siXoriv rfl, fun s => ?_, fun W P s => ?_⟩
  · exact ⟨_, (exec_siXoriv s).trans (siXoriv_eq_next_xorIv params s), siXoriv_eq_next_xorIv params s⟩
  · exact ⟨_, siXoriv_eq_next_xorIv P s, getElem_xorIv P s.h, rfl⟩

/-- Settles O20: counter and flags from `clearCounterAndFlags`, the branch on KEYLEN from `feederEntry`. -/
theorem siClrtfClearsAndBranches : Obligations.SiClrtfClearsAndBranches := by
  unfold Obligations.SiClrtfClearsAndBranches
  refine ⟨Laws.RoundTrip.siClrtf rfl, fun s => ?_⟩
  refine ⟨_, (exec_siClrtf s).trans (execSiClrtf_eq_next_feederEntry s), clearCounterAndFlags_counter s,
    clearCounterAndFlags_f0 s, clearCounterAndFlags_f1 s, fun hkey => ?_, fun hnokey => ?_, rfl⟩
  · exact if_pos hkey
  · exact if_neg (not_not_intro hnokey)

end Sys2Proof.Machine
end

section
/-! The block feeder's loads, flag and digest (42_block_feeder.md R122, R126, R128, R130): each operation's answer and what it
writes byte by byte. -/

namespace Sys2Proof.Machine

open Sys2Proof.Config

theorem exec_bfKeyfin (s : State) :
    exec .bfKeyfin s =
      .next { s with f0 := if s.desc.datalen.toNat = 0 then allOnes else s.f0, phase := .bfKeycmp } :=
  execBfKeyfin_eq_next.2 rfl

theorem exec_bfTailld {s : State} (h64 : s.taillen.toNat ≤ 64)
    (hok : s.rangeOk (s.desc.dataPtr.toNat + s.span.toNat) s.taillen.toNat = true) :
    exec .bfTailld s = .next { s with
      buf := pad64 (readBytes s.mem (s.desc.dataPtr.toNat + s.span.toNat) s.taillen.toNat), phase := .bfIntcmp } :=
  execBfTailld_eq_next.2 ⟨⟨h64, hok⟩, rfl⟩

theorem exec_bfSetfin (s : State) : exec .bfSetfin s = .next { setFinal s with phase := .bfTailcmp } :=
  execBfSetfin_eq_next.2 rfl

theorem exec_bfDigest {s : State} (h32 : s.desc.hashlen.toNat ≤ 32)
    (hok : s.rangeOk s.desc.outPtr.toNat s.desc.hashlen.toNat = true) :
    exec .bfDigest s = .next { s with
      mem := storeBytes s.mem s.desc.outPtr.toNat (digest s.h s.desc.hashlen.toNat), phase := .done } :=
  execBfDigest_eq_next.2 ⟨⟨h32, hok⟩, rfl⟩

section
variable {W : Widths} {m : Memory} {p n : Nat}

/-- A stored digest reads back as the byte view of the chaining state (R130). -/
theorem read_storeBytes_digest (hm : Memory.wf W m = true) (hp : p + n ≤ 2 ^ W.aw) (h : Chain) {i : Nat} (hi : i < n) :
    Memory.read (storeBytes m p (digest h n)) (p + i) = byteAt h i := by
  rw [read_storeBytes_same hm (by rwa [digest_length]) (by rwa [digest_length]), digest_getElem]

/-- Storing a digest of `n` bytes leaves every byte outside the `n` of its range alone (R130). -/
theorem read_storeBytes_digest_outside (h : Chain) {a : Nat} (ha : a < p ∨ p + n ≤ a) :
    Memory.read (storeBytes m p (digest h n)) a = Memory.read m a :=
  read_storeBytes_other (by rwa [digest_length]) m

end

/-- Settles O34: the run is `exec_bfDigest`, the bytes inside and outside the range from the two lemmas above. -/
theorem bfDigestWritesExactlyHashlenBytes : Obligations.BfDigestWritesExactlyHashlenBytes := by
  unfold Obligations.BfDigestWritesExactlyHashlenBytes
  refine ⟨Laws.RoundTrip.bfDigest rfl, fun s h32 hwf hok => ?_⟩
  obtain ⟨hspace, -⟩ := rangeOk_iff.1 hok
  exact ⟨_, exec_bfDigest h32 hok, fun i hi => read_storeBytes_digest hwf hspace s.h hi,
    fun a ha => read_storeBytes_digest_outside s.h ha, rfl⟩

/-- Settles O24: the run is `exec_bfKeyfin`, whose flag is decided by DATALEN. -/
theorem bfKeyfinFlagsAnEmptyMessage : Obligations.BfKeyfinFlagsAnEmptyMessage := by
  unfold Obligations.BfKeyfinFlagsAnEmptyMessage
  refine ⟨Laws.RoundTrip.bfKeyfin rfl, fun s => ⟨_, exec_bfKeyfin s, fun hempty => ?_, fun hmessage => ?_, rfl⟩⟩
  · exact if_pos hempty
  · exact if_neg hmessage

/-- Settles O30: the run is `exec_bfTailld`, its buffer byte by byte `pad64_readBytes_getElem`. -/
theorem bfTailldLoadsThePaddedTail : Obligations.BfTailldLoadsThePaddedTail := by
  unfold Obligations.BfTailldLoadsThePaddedTail
  refine ⟨Laws.RoundTrip.bfTailld rfl, fun s h64 hok => ⟨_, exec_bfTailld h64 hok, fun i => ?_, rfl⟩⟩
  exact pad64_readBytes_getElem s.mem _ _ i i.isLt

/-- Settles O32: the run is `exec_bfSetfin`, and `setFinal` sets `f[0]` alone. -/
theorem bfSetfinSetsTheFlag : Obligations.BfSetfinSetsTheFlag := by
  unfold Obligations.BfSetfinSetsTheFlag
  exact ⟨Laws.RoundTrip.bfSetfin rfl, exec_bfSetfin⟩

end Sys2Proof.Machine
end

section
/-! The interior blocks (42_block_feeder.md R127, R134): BF.INTCMP as a fold of single-block calls, and the chunks of a
message. -/

namespace Sys2Proof.Machine

open Sys2Proof.Config

variable {W : Widths}

/-- A full block read from host memory needs no padding (R127). -/
theorem pad64_readBytes_64 (m : Memory) (p : Nat) :
    pad64 (readBytes m p 64) = Vector.ofFn fun k : Fin 64 => Memory.read m (p + k.val) := by
  ext1 k hk
  rw [pad64_readBytes_getElem _ _ _ _ hk, if_pos hk, Vector.getElem_ofFn]

/-- The interior loop is a fold of single-block calls in message order (R127). -/
theorem compressInterior_eq_foldl (P : Params) (p n : Nat) (s : State W) :
    compressInterior P p n s =
      (List.range n).foldl
        (fun u j => compress1 P (Vector.ofFn fun k : Fin 64 => Memory.read s.mem (p + 64 * j + k.val)) 64 u) s := by
  induction n with
  | zero => rfl
  | succ n ih =>
    rw [List.range_succ, List.foldl_append, ← ih, compressInterior, blockBytes_eq, pad64_readBytes_64]
    rfl

theorem bfIntcmp_of_rangeOk (P : Params) {s : State W} (hok : s.rangeOk s.desc.dataPtr.toNat (64 * s.nint.toNat) = true) :
    bfIntcmp P s = .next { compressInterior P s.desc.dataPtr.toNat s.nint.toNat s with phase := .bfSetfin } :=
  bfIntcmp_eq_next.2 ⟨hok, rfl⟩

theorem exec_bfIntcmp (s : State) : exec .bfIntcmp s = bfIntcmp params s := rfl

/-- Settles O31: the loop as a fold (`compressInterior_eq_foldl`), its counter and its frame. -/
theorem bfIntcmpCompressesTheInteriorInOrder : Obligations.BfIntcmpCompressesTheInteriorInOrder := by
  unfold Obligations.BfIntcmpCompressesTheInteriorInOrder
  refine ⟨Laws.RoundTrip.bfIntcmp rfl, fun s hok => ?_, fun W P s hok => ?_⟩
  · have hrun := bfIntcmp_of_rangeOk params hok
    exact ⟨_, (exec_bfIntcmp s).trans hrun, hrun⟩
  · refine ⟨_, bfIntcmp_of_rangeOk P hok, ?_, compressInterior_counter P _ _ s, ?_⟩
    · rw [compressInterior_eq_foldl]
    · exact congrArg (fun u : State W => { u with phase := .bfSetfin }) (compressInterior_frame P _ _ s)

/-! The message in chunks. -/

/-- The first `n` chunks of 64 bytes, one after another, are the first `64 n` bytes of the message. -/
theorem flatten_messageChunks (msg : List Byte) (n : Nat) :
    ((List.range n).map (messageChunk msg)).flatten = msg.take (64 * n) := by
  induction n with
  | zero => rfl
  | succ n ih =>
    rw [List.range_succ, List.map_append, List.flatten_append, ih, Nat.mul_succ, List.take_add]
    simp [messageChunk]

/-- A chunk that ends inside the message has 64 bytes. -/
theorem messageChunk_length {msg : List Byte} {j : Nat} (h : 64 * j + 64 ≤ msg.length) : (messageChunk msg j).length = 64 := by
  rw [messageChunk, List.length_take, List.length_drop]
  omega

/-- The interior blocks of a message leave a tail of 1 to 64 bytes (R125, R134). -/
theorem interiorCount_bounds {msg : List Byte} (h : msg ≠ []) :
    64 * interiorCount msg + 1 ≤ msg.length ∧ msg.length ≤ 64 * interiorCount msg + 64 := by
  have hpos := List.length_pos_of_ne_nil h
  unfold interiorCount
  omega

/-- Settles O36: the chunks are a prefix of the message (`flatten_messageChunks`) and the tail is the rest; the lengths from
`interiorCount_bounds`. -/
theorem everyMessageByteOnceInOrder : Obligations.EveryMessageByteOnceInOrder := by
  unfold Obligations.EveryMessageByteOnceInOrder
  intro msg hmsg
  obtain ⟨hlo, hhi⟩ := interiorCount_bounds hmsg
  refine ⟨?_, fun j hj => messageChunk_length (by omega), ?_, ?_⟩
  · rw [flatten_messageChunks, List.take_append_drop]
  all_goals
    rw [List.length_drop]
    omega

end Sys2Proof.Machine
end

section
/-! The counter at the end of an invocation (42_block_feeder.md R120, R132): WAIT from the feeder's last operation, from its
message step, from its key step, and from VALID, each with the bytes it adds to `T`. -/

namespace Sys2Proof.Machine

open Sys2Proof.Config

variable {W : Widths} {P : Params} {n : Nat} {s t : State W}

/-- The counter is its two halves (R22). -/
theorem counter_congr (h0 : t.t0 = s.t0) (h1 : t.t1 = s.t1) : t.counter = s.counter := by
  rw [State.counter, State.counter, h0, h1]

/-- A WAIT that answers from a busy state answers from the state after the CORE's step, of which `Q` says what the operation
`o` of that PHASE left. -/
theorem waitDone_succ {p : Phase} {o : Result W} {Q : State W → Prop} (hp : s.phase = p) (hb : p.busy = true)
    (hstep : coreStep P s = o) (hinv : ∀ {u}, o = .next u ↔ Q u) (h : waitDone P (n + 1) s = .next t) :
    ∃ u, Q u ∧ waitDone P n u = .next t := by
  rw [waitDone, hp, if_pos hb, hstep] at h
  obtain ⟨u, hu, h⟩ := andThen_eq_next.1 h
  exact ⟨u, hinv.1 hu, h⟩

/-- WAIT from DONE answers at once, with STATUS read. -/
theorem waitDone_of_done (hp : s.phase = .done) (h : waitDone P n s = .next t) : t = pollStatus s := by
  cases n with
  | zero => exact next_inj.1 h
  | succ n =>
    rw [waitDone, hp] at h
    exact next_inj.1 h

/-- From BF.DIGEST, the feeder's step 3, WAIT ends in DONE and adds nothing to the counter. -/
theorem waitDone_counter_of_bfDigest (hp : s.phase = .bfDigest) (h : waitDone P (n + 1) s = .next t) :
    t.phase = .done ∧ t.counter = s.counter := by
  obtain ⟨a, ⟨-, ha⟩, h⟩ := waitDone_succ hp rfl (coreStep_bfDigest hp) execBfDigest_eq_next h
  have hpa : a.phase = .done := congrArg State.phase ha
  rw [waitDone_of_done hpa h]
  exact ⟨hpa, counter_congr (by rw [ha, pollStatus_t0]) (by rw [ha, pollStatus_t1])⟩

/-- From BF.INTCMP WAIT adds 64 for each interior block, and the tail's length (R127, R129). -/
theorem waitDone_counter_of_bfIntcmp (hp : s.phase = .bfIntcmp) (h : waitDone P (n + 4) s = .next t) :
    t.phase = .done ∧ t.counter = s.counter + BitVec.ofNat 64 (64 * s.nint.toNat + s.taillen.toNat) := by
  obtain ⟨a, ⟨-, ha⟩, h⟩ := waitDone_succ hp rfl (coreStep_bfIntcmp hp) bfIntcmp_eq_next h
  have hpa : a.phase = .bfSetfin := congrArg State.phase ha
  obtain ⟨b, hb, h⟩ := waitDone_succ hpa rfl (coreStep_bfSetfin hpa) execBfSetfin_eq_next h
  have hpb : b.phase = .bfTailcmp := congrArg State.phase hb
  obtain ⟨c, hc, h⟩ := waitDone_succ hpb rfl (coreStep_bfTailcmp hpb) bfTailcmp_eq_next h
  obtain ⟨hdone, hcounter⟩ := waitDone_counter_of_bfDigest (congrArg State.phase hc) h
  have htail : b.taillen = s.taillen := by
    rw [hb, setFinal_taillen, ha, compressInterior_frame]
  refine ⟨hdone, ?_⟩
  calc t.counter
    _ = (compress1 P b.buf b.taillen.toNat b).counter := by rw [hcounter, hc]; rfl
    _ = b.counter + BitVec.ofNat 64 s.taillen.toNat := by rw [compress1_counter, htail]
    _ = (compressInterior P s.desc.dataPtr.toNat s.nint.toNat s).counter + BitVec.ofNat 64 s.taillen.toNat := by
      rw [hb, ha]; rfl
    _ = s.counter + BitVec.ofNat 64 (64 * s.nint.toNat) + BitVec.ofNat 64 s.taillen.toNat := by
      rw [compressInterior_counter]
    _ = s.counter + BitVec.ofNat 64 (64 * s.nint.toNat + s.taillen.toNat) := by
      rw [BitVec.add_assoc, BitVec.ofNat_add]

/-- The interior blocks and the tail BF.SPLIT leaves make up the message (R125). -/
theorem interior_add_tail {x : BitVec W.lenw} (hx : x.toNat ≠ 0) :
    64 * ((x - 1) / 64).toNat + ((x - (x - 1) / 64 * 64).setWidth 7).toNat = x.toNat := by
  obtain ⟨hnint, -, htail⟩ := split_toNat hx
  rw [hnint, htail]
  omega

/-- From BF.SPLIT, the feeder's step 2, WAIT adds the message's length (R125, R132). -/
theorem waitDone_counter_of_bfSplit (hp : s.phase = .bfSplit) (h : waitDone P (n + 6) s = .next t) :
    t.phase = .done ∧ t.counter = s.counter + BitVec.ofNat 64 s.desc.datalen.toNat := by
  obtain ⟨a, ⟨hlen, ha⟩, h⟩ := waitDone_succ hp rfl (coreStep_bfSplit hp) execBfSplit_eq_next h
  have hpa : a.phase = .bfTailld := congrArg State.phase ha
  obtain ⟨b, ⟨-, hb⟩, h⟩ := waitDone_succ hpa rfl (coreStep_bfTailld hpa) execBfTailld_eq_next h
  have hpb : b.phase = .bfIntcmp := congrArg State.phase hb
  have hsame : b.counter = s.counter := counter_congr (by rw [hb, ha]) (by rw [hb, ha])
  have hparts : 64 * b.nint.toNat + b.taillen.toNat = s.desc.datalen.toNat := by
    rw [hb, ha]
    exact interior_add_tail hlen
  rw [← hsame, ← hparts]
  exact waitDone_counter_of_bfIntcmp hpb h

/-- From BF.KEYCMP WAIT adds 64 for the key block, whatever the key's length, and the message's length (R123, R124). -/
theorem waitDone_counter_of_bfKeycmp (hp : s.phase = .bfKeycmp) (h : waitDone P (n + 8) s = .next t) :
    t.phase = .done ∧ t.counter = s.counter + 64#64 + BitVec.ofNat 64 s.desc.datalen.toNat := by
  obtain ⟨a, ha, h⟩ := waitDone_succ hp rfl (coreStep_bfKeycmp hp) bfKeycmp_eq_next h
  have hpa : a.phase = .bfWipe := congrArg State.phase ha
  obtain ⟨b, hb, h⟩ := waitDone_succ hpa rfl (coreStep_bfWipe hpa) execBfWipe_eq_next h
  have hkey : b.counter = s.counter + 64#64 := by
    calc b.counter
      _ = (compress1 P s.buf 64 s).counter := by rw [hb, ha]; rfl
      _ = s.counter + 64#64 := compress1_counter P s.buf 64 s
  have hdesc : b.desc = s.desc := by rw [hb, ha, compress1_desc]
  have hpb : b.phase = if b.desc.datalen.toNat ≠ 0 then .bfSplit else .bfDigest := by rw [hb]
  rw [← hkey, ← hdesc]
  by_cases hlen : b.desc.datalen.toNat = 0
  · rw [hlen, BitVec.add_zero]
    exact waitDone_counter_of_bfDigest (hpb.trans (if_neg (not_not_intro hlen))) h
  · exact waitDone_counter_of_bfSplit (hpb.trans (if_pos hlen)) h

/-- From BF.KEYLD, the feeder's step 1, WAIT adds the same: the load and the flag leave the counter alone (R121, R122). -/
theorem waitDone_counter_of_bfKeyld (hp : s.phase = .bfKeyld) (h : waitDone P (n + 10) s = .next t) :
    t.phase = .done ∧ t.counter = s.counter + 64#64 + BitVec.ofNat 64 s.desc.datalen.toNat := by
  obtain ⟨a, ⟨-, ha⟩, h⟩ := waitDone_succ hp rfl (coreStep_bfKeyld hp) execBfKeyld_eq_next h
  have hpa : a.phase = .bfKeyfin := congrArg State.phase ha
  obtain ⟨b, hb, h⟩ := waitDone_succ hpa rfl (coreStep_bfKeyfin hpa) execBfKeyfin_eq_next h
  have hpb : b.phase = .bfKeycmp := congrArg State.phase hb
  have hsame : b.counter = s.counter := counter_congr (by rw [hb, ha]) (by rw [hb, ha])
  have hdesc : b.desc = s.desc := by rw [hb, ha]
  rw [← hsame, ← hdesc]
  exact waitDone_counter_of_bfKeycmp hpb h

/-- From SI.CLRTF WAIT ends with the message's length in the counter, and 64 more with a key (R113, R132). -/
theorem waitDone_counter_of_siClrtf (hp : s.phase = .siClrtf) (h : waitDone P (n + 11) s = .next t) :
    t.phase = .done ∧
      t.counter = BitVec.ofNat 64 (s.desc.datalen.toNat + if 0 < s.desc.keylen.toNat then 64 else 0) := by
  obtain ⟨a, ha, h⟩ := waitDone_succ hp rfl (coreStep_siClrtf hp) execSiClrtf_eq_next h
  have hzero : a.counter = 0#64 := by
    rw [ha]
    exact clearCounterAndFlags_counter s
  have hdesc : a.desc = s.desc := by rw [ha, clearCounterAndFlags_desc]
  have hpa : a.phase = feederEntry a.desc := by rw [ha]; rfl
  rw [← hdesc]
  by_cases hkey : a.desc.keylen.toNat = 0
  · obtain ⟨hdone, hcounter⟩ := waitDone_counter_of_bfSplit (hpa.trans (if_neg (not_not_intro hkey))) h
    refine ⟨hdone, ?_⟩
    rw [hcounter, hzero, BitVec.zero_add, if_neg (by omega), Nat.add_zero]
  · obtain ⟨hdone, hcounter⟩ := waitDone_counter_of_bfKeyld (hpa.trans (if_pos hkey)) h
    refine ⟨hdone, ?_⟩
    rw [hcounter, hzero, BitVec.zero_add, if_pos (by omega), Nat.add_comm, BitVec.ofNat_add]

/-- With an accepted descriptor VALID, the encoder and SI.XORIV lead WAIT to SI.CLRTF, the descriptor unchanged (R120). -/
theorem waitDone_siClrtf_of_valid (hp : s.phase = .valid) (haccepted : firstFailure s.desc = none)
    (h : waitDone P (n + 6) s = .next t) : ∃ u, u.phase = .siClrtf ∧ u.desc = s.desc ∧ waitDone P n u = .next t := by
  obtain ⟨a, ⟨_, hfail, -⟩ | ⟨-, ha⟩, h⟩ := waitDone_succ hp rfl (coreStep_valid hp) execValid_eq_next h
  · rw [haccepted] at hfail
    cases hfail
  have hpa : a.phase = .pbZero := congrArg State.phase ha
  obtain ⟨b, hb, h⟩ := waitDone_succ hpa rfl (coreStep_pbZero hpa) execPbZero_eq_next h
  have hpb : b.phase = .pbHdr := congrArg State.phase hb
  obtain ⟨c, ⟨-, hc⟩, h⟩ := waitDone_succ hpb rfl (coreStep_pbHdr hpb) execPbHdr_eq_next h
  have hpc : c.phase = .pbSalt := congrArg State.phase hc
  obtain ⟨d, ⟨-, hd⟩, h⟩ := waitDone_succ hpc rfl (coreStep_pbSalt hpc) execPbSalt_eq_next h
  have hpd : d.phase = .pbPers := congrArg State.phase hd
  obtain ⟨e, ⟨-, he⟩, h⟩ := waitDone_succ hpd rfl (coreStep_pbPers hpd) execPbPers_eq_next h
  have hpe : e.phase = .siXoriv := congrArg State.phase he
  obtain ⟨u, hu, h⟩ := waitDone_succ hpe rfl (coreStep_siXoriv hpe) siXoriv_eq_next h
  refine ⟨u, congrArg State.phase hu, ?_, h⟩
  rw [hu, he, hd, hc, hb, ha]

/-- Settles O54: WAIT passes SI.CLRTF with the descriptor VALID accepted, and from there `waitDone_counter_of_siClrtf` gives the
counter. -/
theorem counterTotalsTheInput : Obligations.CounterTotalsTheInput := by
  unfold Obligations.CounterTotalsTheInput
  intro W P s t hp haccepted h
  obtain ⟨u, hpu, hdesc, h⟩ := waitDone_siClrtf_of_valid (n := 11) hp haccepted h
  obtain ⟨hdone, hcounter⟩ := waitDone_counter_of_siClrtf (n := 0) hpu h
  rw [hcounter, hdesc]
  exact ⟨hdone, BitVec.toNat_ofNat _ _⟩

end Sys2Proof.Machine
end

section
/-! The host's operations and VALID (44_host_operations.md R171, R173, R179): VALID's two answers, START, and a descriptor
register written and read back by number. -/

namespace Sys2Proof.Machine

open Sys2Proof.Config

variable {W : Widths}

/-! VALID. -/

theorem exec_valid_of_failure {s : State} {k : ErrorKind} (h : firstFailure s.desc = some k) :
    exec .valid s = .next (raise k s) :=
  execValid_eq_next.2 (.inl ⟨k, h, rfl⟩)

theorem exec_valid_of_accepted {s : State} (h : firstFailure s.desc = none) :
    exec .valid s = .next { s with phase := .pbZero } :=
  execValid_eq_next.2 (.inr ⟨h, rfl⟩)

/-- Settles O9: the kind with the lowest code is the first failing check (`firstFailure_eq_some`), and without a failing check
VALID accepts. -/
theorem validReportsTheLowestCode : Obligations.ValidReportsTheLowestCode := by
  unfold Obligations.ValidReportsTheLowestCode
  refine ⟨Laws.RoundTrip.valid rfl, fun s => ⟨fun k hk hlowest => ?_, fun hnone => ?_⟩⟩
  · exact exec_valid_of_failure (firstFailure_eq_some.2 ⟨hk, hlowest⟩)
  · exact exec_valid_of_accepted (firstFailure_eq_none.2 hnone)

/-! START. -/

theorem startInvocation_of_busy {s : State W} (hb : s.phase.busy = true) : startInvocation s = .refused .startWhileBusy :=
  if_pos hb

/-- IDLE, DONE and ERROR are the phases that are not busy (R32). -/
theorem busy_eq_false_iff {p : Phase} : p.busy = false ↔ p = .idle ∨ p = .done ∨ p = .error := by
  cases p <;> decide

/-- Settles O37: START asks `busy` alone, which `busy_eq_false_iff` gives by phase and `busy_iff_selector` by number. -/
theorem startBeginsAnInvocation : Obligations.StartBeginsAnInvocation := by
  unfold Obligations.StartBeginsAnInvocation
  refine ⟨Laws.RoundTrip.start rfl, fun s => ⟨fun hp => ?_, fun h1 h17 => ?_⟩⟩
  · exact startInvocation_eq_next.2 ⟨busy_eq_false_iff.2 hp, rfl⟩
  · exact startInvocation_of_busy ((busy_iff_selector _).2 ⟨h1, h17⟩)

/-! WR. -/

section
variable {d d' : Descriptor W} {r r' : BitVec 4} {v : HostValue}

/-- The width of descriptor register `r`: pointers have the even numbers, lengths the odd ones (R33, R78). -/
def registerWidth (W : Widths) (r : BitVec 4) : Nat := if r.toNat % 2 = 0 then W.aw else W.lenw

/-- The values of the ten descriptor registers in the order of their numbers (R33, R78). -/
def Descriptor.values (d : Descriptor W) : List HostValue :=
  [d.outPtr.toNat, d.hashlen.toNat, d.dataPtr.toNat, d.datalen.toNat, d.keyPtr.toNat, d.keylen.toNat, d.saltPtr.toNat,
    d.saltlen.toNat, d.persPtr.toNat, d.perslen.toNat]

/-- Reading a register by number is looking the number up in `values`. -/
theorem read_eq_getElem? (d : Descriptor W) (r : BitVec 4) : d.read r = d.values[r.toNat]? := by
  unfold Descriptor.read
  split
  case h_11 =>
    have hr : 10 ≤ r.toNat := by
      simp only [imp_false] at *
      omega
    exact (List.getElem?_eq_none hr).symm
  all_goals simp only [*]; rfl

/-- Writing a register by number sets that entry of `values`, truncated, and no other (R179). -/
theorem values_write (h : d.write r v = some d') : d'.values = d.values.set r.toNat (v % 2 ^ registerWidth W r) := by
  unfold Descriptor.write at h
  split at h <;> cases h
  all_goals simp [Descriptor.values, registerWidth, *]

/-- The numbers 0 to 9 are those of descriptor registers. -/
theorem exists_write_eq_some (d : Descriptor W) (v : HostValue) (hr : r.toNat ≤ 9) : ∃ d', d.write r v = some d' := by
  unfold Descriptor.write
  interval_cases r.toNat
  all_goals exact ⟨_, rfl⟩

/-- A register just written reads back as the value truncated to the register's width (R37, R179). -/
theorem read_write_same (hr : r.toNat ≤ 9) (h : d.write r v = some d') : d'.read r = some (v % 2 ^ registerWidth W r) := by
  rw [read_eq_getElem?, values_write h]
  exact List.getElem?_set_self (Nat.lt_succ_of_le hr)

/-- A write leaves every register with another number as it was (R179). -/
theorem read_write_other (h : d.write r v = some d') (hne : r' ≠ r) : d'.read r' = d.read r' := by
  rw [read_eq_getElem?, read_eq_getElem?, values_write h]
  exact List.getElem?_set_ne fun e => hne (BitVec.eq_of_toNat_eq e.symm)

end

theorem writeRegister_of_busy {s : State W} (hb : s.phase.busy = true) (r : BitVec 4) (v : HostValue) :
    writeRegister r v s = .refused .descriptorWriteWhileBusy :=
  if_pos hb

theorem writeRegister_of_not_busy {s : State W} {r : BitVec 4} {v : HostValue} {d : Descriptor W} (hb : s.phase.busy = false)
    (hd : s.desc.write r v = some d) : writeRegister r v s = .next { s with desc := d } :=
  writeRegister_eq_next.2 ⟨hb, d, hd, rfl⟩

theorem exec_wr (r : BitVec 4) (v : HostValue) (s : State) : exec (.wr r v) s = writeRegister r v s := rfl

/-- Settles O38: WR writes the descriptor alone, and the descriptor's own laws `read_write_same` and `read_write_other` say which
register changes. -/
theorem wrWritesOneDescriptorRegister : Obligations.WrWritesOneDescriptorRegister := by
  unfold Obligations.WrWritesOneDescriptorRegister
  refine ⟨fun s r v hr hb => ?_, fun W s r v hr hb => ?_, fun s r v _ hb => ?_⟩
  · obtain ⟨d, hd⟩ := exists_write_eq_some s.desc v hr
    exact ⟨_, (exec_wr r v s).trans (writeRegister_of_not_busy hb hd), writeRegister_of_not_busy hb hd⟩
  · obtain ⟨d, hd⟩ := exists_write_eq_some s.desc v hr
    exact ⟨_, writeRegister_of_not_busy hb hd, read_write_same hr hd, fun _ hne => read_write_other hd hne, rfl⟩
  · exact (exec_wr r v s).trans (writeRegister_of_busy hb r v)

end Sys2Proof.Machine
end

section
/-! A rejected invocation (60_exceptions.md R190, R197): WAIT from VALID with a failing check, and the public operation that ends
there. -/

namespace Sys2Proof.Machine

open Sys2Proof.Config

variable {W : Widths} {P : Params} {n : Nat} {s : State W} {k : ErrorKind}

/-- WAIT on a CORE that is not busy answers at once, with STATUS read (R83). -/
theorem waitDone_of_not_busy (hb : s.phase.busy = false) : waitDone P n s = .next (pollStatus s) := by
  cases n with
  | zero => rfl
  | succ n => rw [waitDone, hb, if_neg Bool.false_ne_true]

/-- From VALID with a failing check, WAIT ends after that one step, the error raised (R173, R197). -/
theorem waitDone_valid_of_failure (hp : s.phase = .valid) (hfail : firstFailure s.desc = some k) :
    waitDone P (n + 1) s = .next (pollStatus (raise k s)) := by
  have hbusy : s.phase.busy = true := by rw [hp]; rfl
  have hstep : coreStep P s = .next (raise k s) :=
    (coreStep_valid hp).trans (execValid_eq_next.2 (.inl ⟨k, hfail, rfl⟩))
  rw [waitDone_of_step hbusy hstep]
  exact waitDone_of_not_busy rfl

/-- START and WAIT with a descriptor VALID rejects: ERROR, the kind recorded, STATUS read (R171, R190). -/
theorem startInvocation_waitDone_of_failure (hb : s.phase.busy = false) (hfail : firstFailure s.desc = some k) :
    andThen (startInvocation s) (waitDone P (n + 1)) = .next (pollStatus (raise k (beginInvocation s))) :=
  andThen_eq_of_next (startInvocation_eq_next.2 ⟨hb, rfl⟩) (waitDone_valid_of_failure rfl hfail)

/-- Settles O10: the WR lines write the descriptor alone (`writeRegisters_eq_next`), and on it START and WAIT go to VALID's error
and no further (`startInvocation_waitDone_of_failure`). -/
theorem rejectedOperationWritesNothing : Obligations.RejectedOperationWritesNothing := by
  unfold Obligations.RejectedOperationWritesNothing
  intro W P ws s s1 k hb hws hfail
  obtain ⟨hs1, -⟩ := writeRegisters_eq_next hws
  have hb1 : s1.phase.busy = false := by rw [hs1]; exact hb
  refine ⟨_, andThen_eq_of_next hws (startInvocation_waitDone_of_failure hb1 hfail), rfl, rfl, ?_, ?_⟩
  · rw [hs1]; rfl
  · rw [hs1]; rfl

end Sys2Proof.Machine
end

section
/-! Encodings (30_encoding.md R78 to R81, R84): every code that decodes is the encoding of what it yields, port by port, and the
tables of selectors and registers. -/

namespace Sys2Proof.Machine

variable {i : Instr}

/-- What a selector decodes to encodes as that selector (R80). -/
theorem encode_of_decodeSelector {sel : BitVec 5} (h : decodeSelector sel = .ok i) :
    i.wellFormed = true ∧ .seq sel = encode i := by
  unfold decodeSelector at h
  split at h
  case h_21 => cases h
  all_goals
    next hsel =>
      cases h
      exact ⟨rfl, congrArg Code.seq (BitVec.eq_of_toNat_eq hsel)⟩

/-- What a command line decodes to encodes as that line, operands included (R79, R84). -/
theorem encode_of_decodeCommand {code : BitVec 8} {ops : List HostValue} (h : decodeCommand code ops = .ok i) :
    i.wellFormed = true ∧ .command code ops = encode i := by
  unfold decodeCommand at h
  split at h
  · next hcode =>
      subst hcode
      split at h <;> cases h
      all_goals exact ⟨rfl, rfl⟩
  · cases h

/-- What a register write decodes to is WR of that register, or START when it writes the number 1 to CMD (R34, R78). -/
theorem encode_of_decodeWrite {r : BitVec 4} {v : HostValue} (h : decodeWrite r v = .ok i) :
    i.wellFormed = true ∧ (.regWrite r v = encode i ∨ (i = .start ∧ Code.regWrite r v = .regWrite 10#4 0x01)) := by
  unfold decodeWrite at h
  split at h
  · next hr =>
      cases h
      exact ⟨decide_eq_true hr, .inl rfl⟩
  split at h
  · next hr =>
      obtain rfl : r = 10#4 := BitVec.eq_of_toNat_eq hr
      split at h <;> cases h
      next hv => exact ⟨rfl, .inr ⟨rfl, by rw [hv]⟩⟩
  · split at h <;> cases h

/-- The only register read that decodes is that of STATUS (R32). -/
theorem encode_of_decodeRead {r : BitVec 4} (h : decodeRead r = .ok i) : i.wellFormed = true ∧ .regRead r = encode i := by
  unfold decodeRead at h
  split at h
  · next hr =>
      cases h
      exact ⟨rfl, congrArg Code.regRead (BitVec.eq_of_toNat_eq hr)⟩
  · split at h <;> cases h

/-- Settles O3, instruction by instruction; the one with a check is WR, whose register number decides the decoder's branch. -/
theorem decodeOfEncode : Obligations.DecodeOfEncode := by
  unfold Obligations.DecodeOfEncode
  intro i hi
  cases i with
  | idle => exact Laws.RoundTrip.idle hi
  | valid => exact Laws.RoundTrip.valid hi
  | pbZero => exact Laws.RoundTrip.pbZero hi
  | pbHdr => exact Laws.RoundTrip.pbHdr hi
  | pbSalt => exact Laws.RoundTrip.pbSalt hi
  | pbPers => exact Laws.RoundTrip.pbPers hi
  | siXoriv => exact Laws.RoundTrip.siXoriv hi
  | siClrtf => exact Laws.RoundTrip.siClrtf hi
  | bfKeyld => exact Laws.RoundTrip.bfKeyld hi
  | bfKeyfin => exact Laws.RoundTrip.bfKeyfin hi
  | bfKeycmp => exact Laws.RoundTrip.bfKeycmp hi
  | bfWipe => exact Laws.RoundTrip.bfWipe hi
  | bfSplit => exact Laws.RoundTrip.bfSplit hi
  | bfTailld => exact Laws.RoundTrip.bfTailld hi
  | bfIntcmp => exact Laws.RoundTrip.bfIntcmp hi
  | bfSetfin => exact Laws.RoundTrip.bfSetfin hi
  | bfTailcmp => exact Laws.RoundTrip.bfTailcmp hi
  | bfDigest => exact Laws.RoundTrip.bfDigest hi
  | done => exact Laws.RoundTrip.done hi
  | error => exact Laws.RoundTrip.error hi
  | start => exact Laws.RoundTrip.start hi
  | hashEx out hl data dl key kl salt sl pers pl => exact Laws.RoundTrip.hashEx out hl data dl key kl salt sl pers pl hi
  | hash out hl data dl key kl => exact Laws.RoundTrip.hash out hl data dl key kl hi
  | wr r v => exact Laws.RoundTrip.wr r v hi
  | rdStatus => exact Laws.RoundTrip.rdStatus hi

/-- Settles O4, port by port; only the register port has a second spelling, that of START. -/
theorem acceptedCodesAreEncodings : Obligations.AcceptedCodesAreEncodings := by
  unfold Obligations.AcceptedCodesAreEncodings
  intro c i h
  cases c with
  | seq sel => exact (encode_of_decodeSelector h).imp_right .inl
  | command code ops => exact (encode_of_decodeCommand h).imp_right .inl
  | regWrite r v => exact encode_of_decodeWrite h
  | regRead r => exact (encode_of_decodeRead h).imp_right .inl

/-- Selectors 20 to 31 name no PHASE value (R81 (c)). -/
theorem decodeSelector_reserved {sel : BitVec 5} (h : 20 ≤ sel.toNat) :
    decodeSelector sel = .error (.reservedSelector sel) := by
  unfold decodeSelector
  split
  case h_21 => rfl
  all_goals omega

/-- Settles O1: the twenty rows by computing them, the reserved selectors by `decodeSelector_reserved`. -/
theorem selectorTableDecodes : Obligations.SelectorTableDecodes := by
  unfold Obligations.SelectorTableDecodes
  exact ⟨rfl, fun _ => decodeSelector_reserved⟩

/-- Settles O2: each range of register numbers takes one branch of the two register decoders. -/
theorem registerPortDecodes : Obligations.RegisterPortDecodes := by
  unfold Obligations.RegisterPortDecodes
  refine ⟨fun r v hr => ?_, rfl, fun v hv => ?_, fun v => rfl, rfl, fun r hr => ?_, fun r v hr => ⟨?_, ?_⟩,
    fun c ops hc => ⟨c.toNat, ?_⟩⟩
  · exact if_pos hr
  · exact if_neg hv
  · rw [decode, decodeRead, if_neg (by omega), if_pos hr]
  · rw [decode, decodeWrite, if_neg (by omega), if_neg (by omega), if_neg (by omega)]
  · rw [decode, decodeRead, if_neg (by omega), if_neg (by omega)]
  · exact if_neg hc

end Sys2Proof.Machine
end

section
/-! What one step of the CORE can do, said once as a relation with a case for each micro-operation (10_state.md R29, R30), and
what each field owes to it: the write columns of the access table, and the rise of PHASE (70_reset_and_hazards.md R232). -/

namespace Sys2Proof.Machine

open Sys2Proof.Config

variable {W : Widths} {P : Params} {s t : State W}

/-! The interior loop of BF.INTCMP, field by field: it writes `h` and `T` only. -/

section
variable (P : Params) (p n : Nat) (s : State W)

@[simp] theorem compressInterior_f0 : (compressInterior P p n s).f0 = s.f0 := by rw [compressInterior_frame]
@[simp] theorem compressInterior_f1 : (compressInterior P p n s).f1 = s.f1 := by rw [compressInterior_frame]
@[simp] theorem compressInterior_buf : (compressInterior P p n s).buf = s.buf := by rw [compressInterior_frame]
@[simp] theorem compressInterior_nint : (compressInterior P p n s).nint = s.nint := by rw [compressInterior_frame]
@[simp] theorem compressInterior_span : (compressInterior P p n s).span = s.span := by rw [compressInterior_frame]
@[simp] theorem compressInterior_taillen : (compressInterior P p n s).taillen = s.taillen := by rw [compressInterior_frame]
@[simp] theorem compressInterior_err : (compressInterior P p n s).err = s.err := by rw [compressInterior_frame]
@[simp] theorem compressInterior_desc : (compressInterior P p n s).desc = s.desc := by rw [compressInterior_frame]
@[simp] theorem compressInterior_mem : (compressInterior P p n s).mem = s.mem := by rw [compressInterior_frame]
@[simp] theorem compressInterior_absent : (compressInterior P p n s).absent = s.absent := by rw [compressInterior_frame]
@[simp] theorem compressInterior_script : (compressInterior P p n s).script = s.script := by rw [compressInterior_frame]
@[simp] theorem compressInterior_hostRead : (compressInterior P p n s).hostRead = s.hostRead := by rw [compressInterior_frame]
@[simp] theorem compressInterior_freeCount : (compressInterior P p n s).freeCount = s.freeCount := by rw [compressInterior_frame]

end

theorem feederEntry_of_key {d : Descriptor W} (h : d.keylen.toNat ≠ 0) : feederEntry d = .bfKeyld := if_pos h

theorem feederEntry_of_no_key {d : Descriptor W} (h : d.keylen.toNat = 0) : feederEntry d = .bfSplit :=
  if_neg (not_not_intro h)

/-- The phase BF.WIPE leads to: step 2 with a message, step 3 without (R124). -/
def wipeExit (d : Descriptor W) : Phase := if d.datalen.toNat ≠ 0 then .bfSplit else .bfDigest

theorem wipeExit_of_message {d : Descriptor W} (h : d.datalen.toNat ≠ 0) : wipeExit d = .bfSplit := if_pos h

theorem wipeExit_of_no_message {d : Descriptor W} (h : d.datalen.toNat = 0) : wipeExit d = .bfDigest :=
  if_neg (not_not_intro h)

/-- The next states of the CORE, a case for each micro-operation: the PHASE it runs at, the condition under which it answers,
and the state it leaves. `coreStep_eq_next` ties it to `coreStep`. -/
inductive CoreStep (P : Params) (s : State W) : State W → Prop
  | rest (hb : s.phase.busy = false) : CoreStep P s s
  | reject {k : ErrorKind} (hp : s.phase = .valid) (hk : firstFailure s.desc = some k) : CoreStep P s (raise k s)
  | accept (hp : s.phase = .valid) (ha : firstFailure s.desc = none) : CoreStep P s { s with phase := .pbZero }
  | pbZero (hp : s.phase = .pbZero) : CoreStep P s { s with h := Vector.replicate 8 0#32, phase := .pbHdr }
  | pbHdr (hp : s.phase = .pbHdr)
      (hr : 1 ≤ s.desc.hashlen.toNat ∧ s.desc.hashlen.toNat ≤ 32 ∧ s.desc.keylen.toNat ≤ 32) :
      CoreStep P s { s with h := s.h.set 0 (headerWord s.desc), phase := .pbSalt }
  | pbSalt (hp : s.phase = .pbSalt)
      (hr : s.desc.saltlen.toNat ≤ 8 ∧ s.rangeOk s.desc.saltPtr.toNat s.desc.saltlen.toNat = true) :
      CoreStep P s { s with
        h := writePb s.h 16 (readBytes s.mem s.desc.saltPtr.toNat s.desc.saltlen.toNat), phase := .pbPers }
  | pbPers (hp : s.phase = .pbPers)
      (hr : s.desc.perslen.toNat ≤ 8 ∧ s.rangeOk s.desc.persPtr.toNat s.desc.perslen.toNat = true) :
      CoreStep P s { s with
        h := writePb s.h 24 (readBytes s.mem s.desc.persPtr.toNat s.desc.perslen.toNat), phase := .siXoriv }
  | siXoriv (hp : s.phase = .siXoriv) : CoreStep P s { s with h := xorIv P s.h, phase := .siClrtf }
  | siClrtf (hp : s.phase = .siClrtf) : CoreStep P s { clearCounterAndFlags s with phase := feederEntry s.desc }
  | bfKeyld (hp : s.phase = .bfKeyld)
      (hr : s.desc.keylen.toNat ≤ 32 ∧ s.rangeOk s.desc.keyPtr.toNat s.desc.keylen.toNat = true) :
      CoreStep P s { s with
        buf := pad64 (readBytes s.mem s.desc.keyPtr.toNat s.desc.keylen.toNat), phase := .bfKeyfin }
  | bfKeyfin (hp : s.phase = .bfKeyfin) :
      CoreStep P s { s with f0 := if s.desc.datalen.toNat = 0 then allOnes else s.f0, phase := .bfKeycmp }
  | bfKeycmp (hp : s.phase = .bfKeycmp) : CoreStep P s { compress1 P s.buf 64 s with phase := .bfWipe }
  | bfWipe (hp : s.phase = .bfWipe) :
      CoreStep P s { s with buf := zeroBlock, phase := wipeExit s.desc }
  | bfSplit (hp : s.phase = .bfSplit) (hr : s.desc.datalen.toNat ≠ 0) :
      CoreStep P s { s with
        nint := (s.desc.datalen - 1) / 64
        span := (s.desc.datalen - 1) / 64 * 64
        taillen := (s.desc.datalen - (s.desc.datalen - 1) / 64 * 64).setWidth 7
        phase := .bfTailld }
  | bfTailld (hp : s.phase = .bfTailld)
      (hr : s.taillen.toNat ≤ 64 ∧ s.rangeOk (s.desc.dataPtr.toNat + s.span.toNat) s.taillen.toNat = true) :
      CoreStep P s { s with
        buf := pad64 (readBytes s.mem (s.desc.dataPtr.toNat + s.span.toNat) s.taillen.toNat), phase := .bfIntcmp }
  | bfIntcmp (hp : s.phase = .bfIntcmp) (hr : s.rangeOk s.desc.dataPtr.toNat (64 * s.nint.toNat) = true) :
      CoreStep P s { compressInterior P s.desc.dataPtr.toNat s.nint.toNat s with phase := .bfSetfin }
  | bfSetfin (hp : s.phase = .bfSetfin) : CoreStep P s { setFinal s with phase := .bfTailcmp }
  | bfTailcmp (hp : s.phase = .bfTailcmp) : CoreStep P s { compress1 P s.buf s.taillen.toNat s with phase := .bfDigest }
  | bfDigest (hp : s.phase = .bfDigest)
      (hr : s.desc.hashlen.toNat ≤ 32 ∧ s.rangeOk s.desc.outPtr.toNat s.desc.hashlen.toNat = true) :
      CoreStep P s { s with
        mem := storeBytes s.mem s.desc.outPtr.toNat (digest s.h s.desc.hashlen.toNat), phase := .done }

/-- In IDLE, DONE and ERROR the CORE's step changes nothing (R30, notes/assumptions/7.md). -/
theorem coreStep_of_not_busy (hb : s.phase.busy = false) : coreStep P s = .next s := by
  obtain hp | hp | hp := busy_eq_false_iff.1 hb
  · exact coreStep_idle hp
  · exact coreStep_done hp
  · exact coreStep_error hp

theorem coreStep_of_CoreStep (h : CoreStep P s t) : coreStep P s = .next t := by
  cases h with
  | rest hb => exact coreStep_of_not_busy hb
  | reject hp hk => exact (coreStep_valid hp).trans (execValid_eq_next.2 (.inl ⟨_, hk, rfl⟩))
  | accept hp ha => exact (coreStep_valid hp).trans (execValid_eq_next.2 (.inr ⟨ha, rfl⟩))
  | pbZero hp => exact (coreStep_pbZero hp).trans (execPbZero_eq_next.2 rfl)
  | pbHdr hp hr => exact (coreStep_pbHdr hp).trans (execPbHdr_eq_next.2 ⟨hr, rfl⟩)
  | pbSalt hp hr => exact (coreStep_pbSalt hp).trans (execPbSalt_eq_next.2 ⟨hr, rfl⟩)
  | pbPers hp hr => exact (coreStep_pbPers hp).trans (execPbPers_eq_next.2 ⟨hr, rfl⟩)
  | siXoriv hp => exact (coreStep_siXoriv hp).trans (siXoriv_eq_next.2 rfl)
  | siClrtf hp => exact (coreStep_siClrtf hp).trans (execSiClrtf_eq_next.2 rfl)
  | bfKeyld hp hr => exact (coreStep_bfKeyld hp).trans (execBfKeyld_eq_next.2 ⟨hr, rfl⟩)
  | bfKeyfin hp => exact (coreStep_bfKeyfin hp).trans (execBfKeyfin_eq_next.2 rfl)
  | bfKeycmp hp => exact (coreStep_bfKeycmp hp).trans (bfKeycmp_eq_next.2 rfl)
  | bfWipe hp => exact (coreStep_bfWipe hp).trans (execBfWipe_eq_next.2 rfl)
  | bfSplit hp hr => exact (coreStep_bfSplit hp).trans (execBfSplit_eq_next.2 ⟨hr, rfl⟩)
  | bfTailld hp hr => exact (coreStep_bfTailld hp).trans (execBfTailld_eq_next.2 ⟨hr, rfl⟩)
  | bfIntcmp hp hr => exact (coreStep_bfIntcmp hp).trans (bfIntcmp_eq_next.2 ⟨hr, rfl⟩)
  | bfSetfin hp => exact (coreStep_bfSetfin hp).trans (execBfSetfin_eq_next.2 rfl)
  | bfTailcmp hp => exact (coreStep_bfTailcmp hp).trans (bfTailcmp_eq_next.2 rfl)
  | bfDigest hp hr => exact (coreStep_bfDigest hp).trans (execBfDigest_eq_next.2 ⟨hr, rfl⟩)

theorem CoreStep_of_coreStep (h : coreStep P s = .next t) : CoreStep P s t := by
  have at_rest (hb : s.phase.busy = false) : CoreStep P s t := by
    obtain rfl := next_inj.1 ((coreStep_of_not_busy hb).symm.trans h)
    exact .rest hb
  cases hp : s.phase with
  | idle | done | error => exact at_rest (by rw [hp]; rfl)
  | valid =>
    rw [coreStep_valid hp, execValid_eq_next] at h
    obtain ⟨k, hk, rfl⟩ | ⟨ha, rfl⟩ := h
    · exact .reject hp hk
    · exact .accept hp ha
  | pbZero =>
    obtain rfl := execPbZero_eq_next.1 ((coreStep_pbZero hp).symm.trans h)
    exact .pbZero hp
  | pbHdr =>
    obtain ⟨hr, rfl⟩ := execPbHdr_eq_next.1 ((coreStep_pbHdr hp).symm.trans h)
    exact .pbHdr hp hr
  | pbSalt =>
    obtain ⟨hr, rfl⟩ := execPbSalt_eq_next.1 ((coreStep_pbSalt hp).symm.trans h)
    exact .pbSalt hp hr
  | pbPers =>
    obtain ⟨hr, rfl⟩ := execPbPers_eq_next.1 ((coreStep_pbPers hp).symm.trans h)
    exact .pbPers hp hr
  | siXoriv =>
    obtain rfl := siXoriv_eq_next.1 ((coreStep_siXoriv hp).symm.trans h)
    exact .siXoriv hp
  | siClrtf =>
    obtain rfl := execSiClrtf_eq_next.1 ((coreStep_siClrtf hp).symm.trans h)
    exact .siClrtf hp
  | bfKeyld =>
    obtain ⟨hr, rfl⟩ := execBfKeyld_eq_next.1 ((coreStep_bfKeyld hp).symm.trans h)
    exact .bfKeyld hp hr
  | bfKeyfin =>
    obtain rfl := execBfKeyfin_eq_next.1 ((coreStep_bfKeyfin hp).symm.trans h)
    exact .bfKeyfin hp
  | bfKeycmp =>
    obtain rfl := bfKeycmp_eq_next.1 ((coreStep_bfKeycmp hp).symm.trans h)
    exact .bfKeycmp hp
  | bfWipe =>
    obtain rfl := execBfWipe_eq_next.1 ((coreStep_bfWipe hp).symm.trans h)
    exact .bfWipe hp
  | bfSplit =>
    obtain ⟨hr, rfl⟩ := execBfSplit_eq_next.1 ((coreStep_bfSplit hp).symm.trans h)
    exact .bfSplit hp hr
  | bfTailld =>
    obtain ⟨hr, rfl⟩ := execBfTailld_eq_next.1 ((coreStep_bfTailld hp).symm.trans h)
    exact .bfTailld hp hr
  | bfIntcmp =>
    obtain ⟨hr, rfl⟩ := bfIntcmp_eq_next.1 ((coreStep_bfIntcmp hp).symm.trans h)
    exact .bfIntcmp hp hr
  | bfSetfin =>
    obtain rfl := execBfSetfin_eq_next.1 ((coreStep_bfSetfin hp).symm.trans h)
    exact .bfSetfin hp
  | bfTailcmp =>
    obtain rfl := bfTailcmp_eq_next.1 ((coreStep_bfTailcmp hp).symm.trans h)
    exact .bfTailcmp hp
  | bfDigest =>
    obtain ⟨hr, rfl⟩ := execBfDigest_eq_next.1 ((coreStep_bfDigest hp).symm.trans h)
    exact .bfDigest hp hr

/-- The relation is the graph of `coreStep`. -/
theorem coreStep_eq_next : coreStep P s = .next t ↔ CoreStep P s t := ⟨CoreStep_of_coreStep, coreStep_of_CoreStep⟩

/-! The write columns of R29, field by field: a step at a PHASE outside the field's writers leaves the field alone. -/

namespace CoreStep

theorem h_eq (hst : CoreStep P s t) {p : Phase} (hp : s.phase = p)
    (hw : p ∉ [.pbZero, .pbHdr, .pbSalt, .pbPers, .siXoriv, .bfKeycmp, .bfIntcmp, .bfTailcmp] := by decide) : t.h = s.h := by
  subst hp
  cases hst with
  | pbZero e | pbHdr e | pbSalt e | pbPers e | siXoriv e | bfKeycmp e | bfIntcmp e | bfTailcmp e => simp [e] at hw
  | _ => rfl

theorem counter_eq (hst : CoreStep P s t) {p : Phase} (hp : s.phase = p)
    (hw : p ∉ [.siClrtf, .bfKeycmp, .bfIntcmp, .bfTailcmp] := by decide) : t.counter = s.counter := by
  subst hp
  cases hst with
  | siClrtf e | bfKeycmp e | bfIntcmp e | bfTailcmp e => simp [e] at hw
  | _ => exact counter_congr rfl rfl

theorem f0_eq (hst : CoreStep P s t) {p : Phase} (hp : s.phase = p) (hw : p ∉ [.siClrtf, .bfKeyfin, .bfSetfin] := by decide) :
    t.f0 = s.f0 := by
  subst hp
  cases hst with
  | siClrtf e | bfKeyfin e | bfSetfin e => simp [e] at hw
  | bfIntcmp => exact compressInterior_f0 ..
  | _ => rfl

theorem f1_eq (hst : CoreStep P s t) {p : Phase} (hp : s.phase = p) (hw : p ≠ .siClrtf := by decide) : t.f1 = s.f1 := by
  subst hp
  cases hst with
  | siClrtf e => exact absurd e hw
  | bfIntcmp => exact compressInterior_f1 ..
  | _ => rfl

theorem buf_eq (hst : CoreStep P s t) {p : Phase} (hp : s.phase = p) (hw : p ∉ [.bfKeyld, .bfWipe, .bfTailld] := by decide) :
    t.buf = s.buf := by
  subst hp
  cases hst with
  | bfKeyld e | bfWipe e | bfTailld e => simp [e] at hw
  | bfIntcmp => exact compressInterior_buf ..
  | _ => rfl

theorem split_eq (hst : CoreStep P s t) {p : Phase} (hp : s.phase = p) (hw : p ≠ .bfSplit := by decide) :
    t.nint = s.nint ∧ t.span = s.span ∧ t.taillen = s.taillen := by
  subst hp
  cases hst with
  | bfSplit e => exact absurd e hw
  | bfIntcmp => exact ⟨compressInterior_nint .., compressInterior_span .., compressInterior_taillen ..⟩
  | _ => exact ⟨rfl, rfl, rfl⟩

theorem err_eq (hst : CoreStep P s t) {p : Phase} (hp : s.phase = p) (hw : p ≠ .valid := by decide) : t.err = s.err := by
  subst hp
  cases hst with
  | reject e => exact absurd e hw
  | bfIntcmp => exact compressInterior_err ..
  | _ => rfl

theorem mem_eq (hst : CoreStep P s t) {p : Phase} (hp : s.phase = p) (hw : p ≠ .bfDigest := by decide) : t.mem = s.mem := by
  subst hp
  cases hst with
  | bfDigest e => exact absurd e hw
  | bfIntcmp => exact compressInterior_mem ..
  | _ => rfl

/-- No micro-operation writes the descriptor (R33). -/
theorem desc_eq (hst : CoreStep P s t) : t.desc = s.desc := by
  cases hst with
  | bfIntcmp => exact compressInterior_desc ..
  | _ => rfl

/-- The environment and the model's own fields are not the CORE's to write (R51). -/
theorem environment_eq (hst : CoreStep P s t) :
    t.absent = s.absent ∧ t.script = s.script ∧ t.hostRead = s.hostRead ∧ t.freeCount = s.freeCount := by
  cases hst with
  | bfIntcmp =>
    exact ⟨compressInterior_absent .., compressInterior_script .., compressInterior_hostRead ..,
      compressInterior_freeCount ..⟩
  | _ => exact ⟨rfl, rfl, rfl, rfl⟩

/-- A busy CORE's step raises the number of PHASE (R232). -/
theorem selector_lt (hst : CoreStep P s t) (hb : s.phase.busy = true) : s.phase.selector.toNat < t.phase.selector.toNat := by
  cases hst with
  | rest hnb => exact absurd (hb.symm.trans hnb) (by decide)
  | siClrtf e =>
    rw [e]
    simp only [feederEntry]
    split <;> decide
  | bfWipe e =>
    rw [e]
    simp only [wipeExit]
    split <;> decide
  | reject e | accept e | pbZero e | pbHdr e | pbSalt e | pbPers e | siXoriv e | bfKeyld e | bfKeyfin e | bfKeycmp e
  | bfSplit e | bfTailld e | bfIntcmp e | bfSetfin e | bfTailcmp e | bfDigest e =>
    simp [e, Phase.selector]

end CoreStep

/-- Settles O50, column by column. -/
theorem coreWritesAsTheAccessTableSays : Obligations.CoreWritesAsTheAccessTableSays := by
  unfold Obligations.CoreWritesAsTheAccessTableSays
  intro W P s t _ hstep
  have hst := coreStep_eq_next.1 hstep
  exact ⟨(hst.h_eq rfl ·), (hst.counter_eq rfl ·), (hst.f0_eq rfl ·), (hst.f1_eq rfl ·), (hst.buf_eq rfl ·),
    (hst.split_eq rfl ·), (hst.err_eq rfl ·), (hst.mem_eq rfl ·), hst.desc_eq, hst.environment_eq⟩

/-- WAIT with fuel for the PHASE values still above the CORE's own ends the invocation (R231, R232). -/
theorem waitDone_not_busy {n : Nat} (hn : s.phase.busy = true → 18 ≤ s.phase.selector.toNat + n)
    (h : waitDone P n s = .next t) : t.phase.busy = false := by
  induction n generalizing s with
  | zero =>
    obtain rfl := next_inj.1 h
    refine Bool.eq_false_iff.2 fun hb => ?_
    have hle := ((busy_iff_selector _).1 hb).2
    have := hn hb
    simp only [pollStatus_phase] at hle
    omega
  | succ n ih =>
    cases hb : s.phase.busy with
    | false =>
      obtain rfl := next_inj.1 ((waitDone_of_not_busy hb).symm.trans h)
      exact hb
    | true =>
      rw [waitDone, if_pos hb] at h
      obtain ⟨u, hu, h⟩ := andThen_eq_next.1 h
      have hrise := (coreStep_eq_next.1 hu).selector_lt hb
      have hfuel := hn hb
      exact ih (fun _ => by omega) h

/-- Settles O51: PHASE rises with each step, from at least 1, and a busy PHASE is at most 17. -/
theorem everyInvocationEnds : Obligations.EveryInvocationEnds := by
  unfold Obligations.EveryInvocationEnds
  refine ⟨fun W P s t hb hstep => (coreStep_eq_next.1 hstep).selector_lt hb,
    fun W P s t h => waitDone_not_busy (fun hb => ?_) h⟩
  have := ((busy_iff_selector _).1 hb).1
  simp only [invocationFuel]
  omega

end Sys2Proof.Machine
end

section
/-! The invariant, clause by clause (Safety.lean): why each clause outlives every step of the CORE. A clause that speaks of some
PHASE values only is kept because the step that enters them establishes it and the steps between them leave it alone. -/

namespace Sys2Proof.Machine

open Sys2Proof.Config

variable {W : Widths} {P : Params} {s t : State W}

/-! What the clauses need of the operations. -/

/-- Bytes written from byte 16 on leave the reserved words 1 to 3 alone (R76, R93, R94). -/
theorem getElem_writePb_low (h : Chain) (bs : List Byte) {off i : Nat} (hlo : 16 ≤ off) (hhi : off + bs.length ≤ 32)
    (hi : i < 4) : (writePb h off bs)[i] = h[i] := by
  refine word_ext_bytes fun k hk => ?_
  rw [← byteAt_eq (by omega) hk, ← byteAt_eq (by omega) hk]
  exact byteAt_writePb_outside h bs hhi (.inl (by omega))

/-- A padded buffer is zero from the length of its bytes on (R121, R126). -/
theorem pad64_tail_zero {bs : List Byte} {n : Nat} (hn : bs.length ≤ n) (i : Fin 64) (hi : n ≤ i.val) :
    (pad64 bs)[i] = 0#8 :=
  (pad64_getElem bs i i.isLt).trans (List.getD_eq_default _ _ (by omega))

/-- The message's length splits as its interior blocks and its tail (R125). -/
theorem State.splitRight.span_add_taillen (h : s.splitRight) : s.span.toNat + s.taillen.toNat = s.desc.datalen.toNat := by
  obtain ⟨hnint, hspan, htail⟩ := h
  omega

/-- BF.SPLIT computes the split of R125. -/
theorem splitRight_of_bfSplit (hlen : s.desc.datalen.toNat ≠ 0) :
    State.splitRight { s with
      nint := (s.desc.datalen - 1) / 64
      span := (s.desc.datalen - 1) / 64 * 64
      taillen := (s.desc.datalen - (s.desc.datalen - 1) / 64 * 64).setWidth 7
      phase := .bfTailld } := by
  obtain ⟨hnint, hspan, htail⟩ := split_toNat hlen
  refine ⟨hnint, ?_, ?_⟩
  · simp only [hspan, hnint]
  · simp only [htail, hspan]

/-- The split is a matter of five registers. -/
theorem splitRight_congr (hd : t.desc = s.desc) (h : t.nint = s.nint ∧ t.span = s.span ∧ t.taillen = s.taillen) :
    t.splitRight ↔ s.splitRight := by
  obtain ⟨hnint, hspan, htail⟩ := h
  rw [State.splitRight, State.splitRight, hd, hnint, hspan, htail]

/-- With an empty message an accepted descriptor has a key. -/
theorem keyed_of_no_message {d : Descriptor W} (ha : firstFailure d = none) (hlen : d.datalen.toNat = 0) :
    d.keylen.toNat ≠ 0 := by
  obtain ⟨-, -, -, -, -, hinput⟩ := accepted_bounds ha
  omega

theorem keyBytes_of_key {d : Descriptor W} (h : d.keylen.toNat ≠ 0) : d.keyBytes = 64 := by
  simp [Descriptor.keyBytes, Descriptor.keyed, h]

theorem keyBytes_of_no_key {d : Descriptor W} (h : d.keylen.toNat = 0) : d.keyBytes = 0 := by
  simp [Descriptor.keyBytes, Descriptor.keyed, h]

/-- `Compress1` on a counter known modulo 2^64 (R152). -/
theorem compress1_counter_toNat (P : Params) (blk : Block) {inc n : Nat} (h : s.counter.toNat = n % 2 ^ 64) :
    (compress1 P blk inc s).counter.toNat = (n + inc) % 2 ^ 64 := by
  rw [compress1_counter, BitVec.toNat_add, BitVec.toNat_ofNat, h, Nat.add_mod_mod, Nat.mod_add_mod]

/-- The interior loop on a counter known modulo 2^64 (R127). -/
theorem compressInterior_counter_toNat {p k n : Nat} (h : s.counter.toNat = n % 2 ^ 64) :
    (compressInterior P p k s).counter.toNat = (n + 64 * k) % 2 ^ 64 := by
  rw [compressInterior_counter, BitVec.toNat_add, BitVec.toNat_ofNat, h, Nat.add_mod_mod, Nat.mod_add_mod]

namespace CoreStep

/-! The clauses. -/

/-- Only BF.DIGEST writes memory, inside the address space (R51, R59). -/
theorem memory_wf (hst : CoreStep P s t) (hm : Memory.wf W s.mem = true) : Memory.wf W t.mem = true := by
  cases hst with
  | bfDigest _ hr =>
    obtain ⟨hspace, -⟩ := rangeOk_iff.1 hr.2
    exact storeBytes_wf hm (by rwa [digest_length])
  | bfIntcmp => rwa [compressInterior_mem]
  | _ => exact hm

/-- VALID's rejection raises ERR and enters ERROR; every other step does neither. -/
theorem error_iff (hst : CoreStep P s t) (hi : s.err.isSome = true ↔ s.phase = .error) :
    t.err.isSome = true ↔ t.phase = .error := by
  have clear {p q : Phase} {e : Option ErrorKind} (hp : s.phase = p) (hne : p ≠ .error) (he : e = s.err) (hq : q ≠ .error) :
      e.isSome = true ↔ q = .error := by
    rw [he, hi, hp]
    exact iff_of_false hne hq
  cases hst with
  | rest => exact hi
  | reject => exact iff_of_true rfl rfl
  | siClrtf e => exact clear e nofun rfl (by simp only [feederEntry]; split <;> decide)
  | bfWipe e => exact clear e nofun rfl (by simp only [wipeExit]; split <;> decide)
  | bfIntcmp e => exact clear e nofun (compressInterior_err ..) nofun
  | accept e | pbZero e | pbHdr e | pbSalt e | pbPers e | siXoriv e | bfKeyld e | bfKeyfin e | bfKeycmp e | bfSplit e
  | bfTailld e | bfSetfin e | bfTailcmp e | bfDigest e => exact clear e nofun rfl nofun

/-- VALID accepts the descriptor on the way in, and it does not change after (R90, R120). -/
theorem accepted (hst : CoreStep P s t) (hi : s.phase.accepted = true → firstFailure s.desc = none) :
    t.phase.accepted = true → firstFailure t.desc = none := by
  rw [hst.desc_eq]
  cases hst with
  | rest => exact hi
  | reject => nofun
  | accept _ ha => exact fun _ => ha
  | pbZero e | pbHdr e | pbSalt e | pbPers e | siXoriv e | siClrtf e | bfKeyld e | bfKeyfin e | bfKeycmp e | bfWipe e
  | bfSplit e | bfTailld e | bfIntcmp e | bfSetfin e | bfTailcmp e | bfDigest e => exact fun _ => hi (by rw [e]; rfl)

/-- SI.CLRTF enters step 1 with a key only (R113, R121). -/
theorem key (hst : CoreStep P s t) (hi : s.phase.keyStep = true → s.desc.keylen.toNat ≠ 0) :
    t.phase.keyStep = true → t.desc.keylen.toNat ≠ 0 := by
  rw [hst.desc_eq]
  cases hst with
  | rest => exact hi
  | siClrtf =>
    simp only [feederEntry]
    split
    · exact fun _ => ‹_›
    · nofun
  | bfKeyld e | bfKeyfin e | bfKeycmp e | bfWipe e => exact fun _ => hi (by rw [e]; rfl)
  | _ => nofun

/-- Step 2 is entered from SI.CLRTF without a key, so with a message, or from BF.WIPE with one (R113, R124, R125). -/
theorem message (hst : CoreStep P s t) (ha : s.phase.accepted = true → firstFailure s.desc = none)
    (hi : s.phase.messageStep = true → s.desc.datalen.toNat ≠ 0) :
    t.phase.messageStep = true → t.desc.datalen.toNat ≠ 0 := by
  rw [hst.desc_eq]
  cases hst with
  | rest => exact hi
  | siClrtf e =>
    simp only [feederEntry]
    split
    · nofun
    · next hkey => exact fun _ hlen => hkey (keyed_of_no_message (ha (by rw [e]; rfl)) hlen)
  | bfWipe =>
    simp only [wipeExit]
    split
    · exact fun _ => ‹_›
    · nofun
  | bfSplit e | bfTailld e | bfIntcmp e | bfSetfin e => exact fun _ => hi (by rw [e]; rfl)
  | _ => nofun

/-- BF.SPLIT computes the split, and step 2 keeps it; at BF.DIGEST it is the message's when there is one (R27, R125). -/
theorem split (hst : CoreStep P s t) (hi : s.splitDone = true → s.splitRight) : t.splitDone = true → t.splitRight := by
  have kept (hne : s.phase ≠ .bfSplit) (hdone : s.splitDone = true) : t.splitRight :=
    (splitRight_congr hst.desc_eq (hst.split_eq rfl hne)).2 (hi hdone)
  cases hst with
  | rest => exact hi
  | siClrtf =>
    simp only [State.splitDone, feederEntry]
    split <;> nofun
  | bfWipe =>
    by_cases hlen : s.desc.datalen.toNat = 0
    · simp [State.splitDone, wipeExit_of_no_message hlen, hlen, Phase.messageStep]
    · simp [State.splitDone, wipeExit_of_message hlen]
  | bfSplit _ hlen => exact fun _ => splitRight_of_bfSplit hlen
  | bfTailld e | bfIntcmp e | bfSetfin e | bfTailcmp e =>
    exact fun _ => kept (by rw [e]; nofun) (by rw [State.splitDone, e]; rfl)
  | _ => nofun

/-- PB.ZERO clears the reserved words, and the encoder writes around them (R76, R91 to R94). -/
theorem reserved (hst : CoreStep P s t) (hi : s.phase.blockBuilt = true → s.h[1] = 0#32 ∧ s.h[2] = 0#32 ∧ s.h[3] = 0#32) :
    t.phase.blockBuilt = true → t.h[1] = 0#32 ∧ t.h[2] = 0#32 ∧ t.h[3] = 0#32 := by
  have field {off n : Nat} (p : Nat) (hlo : 16 ≤ off) (hhi : off + n ≤ 32)
      (hs : s.h[1] = 0#32 ∧ s.h[2] = 0#32 ∧ s.h[3] = 0#32) :
      (writePb s.h off (readBytes s.mem p n))[1] = 0#32 ∧ (writePb s.h off (readBytes s.mem p n))[2] = 0#32 ∧
        (writePb s.h off (readBytes s.mem p n))[3] = 0#32 := by
    rwa [getElem_writePb_low _ _ hlo (by rwa [readBytes_length]) (by decide),
      getElem_writePb_low _ _ hlo (by rwa [readBytes_length]) (by decide),
      getElem_writePb_low _ _ hlo (by rwa [readBytes_length]) (by decide)]
  cases hst with
  | rest => exact hi
  | pbZero => exact fun _ => ⟨rfl, rfl, rfl⟩
  | pbHdr e => exact fun _ => by simpa using hi (by rw [e]; rfl)
  | pbSalt e hr => exact fun _ => field _ (by decide) (by omega) (hi (by rw [e]; rfl))
  | pbPers e hr => exact fun _ => field _ (by decide) (by omega) (hi (by rw [e]; rfl))
  | siClrtf =>
    simp only [feederEntry]
    split <;> nofun
  | bfWipe =>
    simp only [wipeExit]
    split <;> nofun
  | _ => nofun

/-- SI.CLRTF clears the counter; BF.KEYCMP adds 64, BF.INTCMP the interior blocks and BF.TAILCMP the tail (R113, R132). -/
theorem counter (hst : CoreStep P s t) (hi : ∀ n, expectedCounter s = some n → s.counter.toNat = n % 2 ^ 64)
    (hkey : s.phase.keyStep = true → s.desc.keylen.toNat ≠ 0) (hsplit : s.splitDone = true → s.splitRight) :
    ∀ n, expectedCounter t = some n → t.counter.toNat = n % 2 ^ 64 := by
  have kept {n : Nat} (hp : s.phase ∉ [.siClrtf, .bfKeycmp, .bfIntcmp, .bfTailcmp]) (hs : expectedCounter s = some n) :
      t.counter.toNat = n % 2 ^ 64 := by
    rw [hst.counter_eq rfl hp]
    exact hi n hs
  cases hst with
  | rest => exact hi
  | siClrtf =>
    have hzero : (clearCounterAndFlags s).counter.toNat = 0 := by rw [clearCounterAndFlags_counter]; rfl
    by_cases hk : s.desc.keylen.toNat = 0
    · rw [feederEntry_of_no_key hk]
      rintro n ⟨⟩
      rw [clearCounterAndFlags_desc, keyBytes_of_no_key hk]
      exact hzero
    · rw [feederEntry_of_key hk]
      rintro n ⟨⟩
      exact hzero
  | bfKeycmp e =>
    rintro n ⟨⟩
    exact compress1_counter_toNat P s.buf (hi 0 (by simp only [expectedCounter, e]))
  | bfWipe e =>
    have hT := kept (n := 64) (by rw [e]; decide) (by simp only [expectedCounter, e])
    have hbytes := keyBytes_of_key (hkey (by rw [e]; rfl))
    by_cases hlen : s.desc.datalen.toNat = 0
    · rw [wipeExit_of_no_message hlen] at hT ⊢
      rintro n ⟨⟩
      rwa [hbytes, hlen]
    · rw [wipeExit_of_message hlen] at hT ⊢
      rintro n ⟨⟩
      rwa [hbytes]
  | bfIntcmp e =>
    obtain ⟨-, hspan, -⟩ := hsplit (by rw [State.splitDone, e]; rfl)
    rintro n ⟨⟩
    simp only [compressInterior_desc, compressInterior_span, hspan]
    exact compressInterior_counter_toNat (hi _ (by simp only [expectedCounter, e]))
  | bfTailcmp e =>
    have hlen := (hsplit (by rw [State.splitDone, e]; rfl)).span_add_taillen
    rintro n ⟨⟩
    simp only [compress1_desc, ← hlen, ← Nat.add_assoc]
    exact compress1_counter_toNat P s.buf (hi _ (by simp only [expectedCounter, e]))
  | bfKeyld e | bfKeyfin e | bfSplit e | bfTailld e | bfSetfin e =>
    rintro n ⟨⟩
    exact kept (by rw [e]; decide) (by simp [expectedCounter, e])
  | _ => nofun

/-- SI.CLRTF clears both flags; BF.KEYFIN sets the first for an empty message, BF.SETFIN for any other (R23, R133). -/
theorem flag (hst : CoreStep P s t) (hi : ∀ w, expectedFlag s = some w → s.f0 = w ∧ s.f1 = 0#32) :
    ∀ w, expectedFlag t = some w → t.f0 = w ∧ t.f1 = 0#32 := by
  cases hst with
  | rest => exact hi
  | siClrtf =>
    simp only [feederEntry]
    split
    all_goals
      rintro w ⟨⟩
      exact ⟨rfl, rfl⟩
  | bfKeyfin e =>
    obtain ⟨h0, h1⟩ := hi 0#32 (by simp only [expectedFlag, e])
    rintro w ⟨⟩
    exact ⟨by simp only [h0], h1⟩
  | bfWipe e =>
    by_cases hlen : s.desc.datalen.toNat = 0
    · rw [wipeExit_of_no_message hlen]
      rintro w ⟨⟩
      exact hi _ (by simp only [expectedFlag, e, hlen, if_true])
    · rw [wipeExit_of_message hlen]
      rintro w ⟨⟩
      exact hi _ (by simp only [expectedFlag, e, hlen, if_false])
  | bfIntcmp e =>
    rintro w ⟨⟩
    simp only [compressInterior_f0, compressInterior_f1]
    exact hi _ (by simp only [expectedFlag, e])
  | bfSetfin e =>
    rintro w ⟨⟩
    exact ⟨rfl, (hi 0#32 (by simp only [expectedFlag, e])).2⟩
  | bfKeycmp e =>
    rintro w ⟨⟩
    exact hi (if s.desc.datalen.toNat = 0 then allOnes else 0#32) (by simp only [expectedFlag, e])
  | bfKeyld e | bfSplit e | bfTailld e | bfTailcmp e | bfDigest e =>
    rintro w ⟨⟩
    exact hi _ (by simp only [expectedFlag, e])
  | _ => nofun

/-- The loads pad with zeros and BF.WIPE clears; what BF.KEYCMP, BF.INTCMP and BF.TAILCMP read they leave (R28, R227). -/
theorem buffer (hst : CoreStep P s t)
    (hi : ∀ n, expectedFill s = some n → ∀ i : Fin 64, n ≤ i.val → s.buf[i] = 0#8)
    (hm : s.phase.messageStep = true → s.desc.datalen.toNat ≠ 0) :
    ∀ n, expectedFill t = some n → ∀ i : Fin 64, n ≤ i.val → t.buf[i] = 0#8 := by
  cases hst with
  | rest => exact hi
  | siClrtf =>
    by_cases hk : s.desc.keylen.toNat = 0
    · simp [feederEntry_of_no_key hk, hk, expectedFill, Descriptor.keyed]
    · simp [feederEntry_of_key hk, expectedFill]
  | bfKeyld =>
    rintro n ⟨⟩
    exact pad64_tail_zero (by rw [readBytes_length])
  | bfKeyfin e =>
    rintro n ⟨⟩
    exact hi _ (by simp only [expectedFill, e])
  | bfWipe => exact fun _ _ i _ => zeroBlock_getElem i i.isLt
  | bfTailld =>
    rintro n ⟨⟩
    exact pad64_tail_zero (by rw [readBytes_length])
  | bfIntcmp e =>
    rintro n ⟨⟩
    simp only [compressInterior_buf, compressInterior_taillen]
    exact hi _ (by simp only [expectedFill, e])
  | bfSetfin e =>
    rintro n ⟨⟩
    exact hi _ (by simp [expectedFill, e])
  | bfTailcmp e =>
    have hlen : s.desc.datalen.toNat ≠ 0 := hm (by rw [e]; rfl)
    rintro n ⟨⟩
    simp only [compress1_desc, hlen, if_false]
    exact hi _ (by simp [expectedFill, e])
  | _ => nofun

end CoreStep

/-- A step of the CORE keeps the invariant, for every width, `IV` and `F`. -/
theorem Inv.coreStep (hi : Inv s) (h : coreStep P s = .next t) : Inv t := by
  have hst := coreStep_eq_next.1 h
  exact
    { memory := hst.memory_wf hi.memory
      error := hst.error_iff hi.error
      accepted := hst.accepted hi.accepted
      key := hst.key hi.key
      message := hst.message hi.accepted hi.message
      split := hst.split hi.split
      reserved := hst.reserved hi.reserved
      counter := hst.counter hi.counter hi.key hi.split
      flag := hst.flag hi.flag
      buffer := hst.buffer hi.buffer hi.message }

end Sys2Proof.Machine
end

section
/-! A step of the whole machine, whoever moves (00_scope.md R6): a case for each kind of move, and what holds of every step: the
invariant, the canonical form of memory, who writes the descriptor, and what leaves IDLE, DONE and ERROR. -/

namespace Sys2Proof.Machine

open Sys2Proof.Config

/-- The next states of the machine, a case for each kind of move: the CORE's turn, given by an empty script, by the move `core`
or by WAIT while busy; a read, of a register, of memory or by a WAIT that ends; the host's lines; a store; and reset. -/
inductive MachineStep (s : State) : State → Prop
  | core {t : State} (script : List HostMove) (hostRead : HostValue)
      (h : coreStep params { s with script := script, hostRead := hostRead } = .next t) : MachineStep s t
  | read (script : List HostMove) (hostRead : HostValue) : MachineStep s { s with script := script, hostRead := hostRead }
  | write {t : State} {r : BitVec 4} {v : HostValue} {rest : List HostMove} (hs : s.script = .write r v :: rest)
      (h : writeRegister r v { s with script := rest } = .next t) : MachineStep s t
  | startByWrite {t : State} {rest : List HostMove} (hs : s.script = .write 10#4 0x01 :: rest)
      (h : startInvocation { s with script := rest } = .next t) : MachineStep s t
  | start {t : State} {rest : List HostMove} (hs : s.script = .command 0x01#8 [] :: rest)
      (h : startInvocation { s with script := rest } = .next t) : MachineStep s t
  | operation {t : State} {ops : List HostValue} {rest : List HostMove} {ws : List (BitVec 4 × HostValue)}
      (hs : s.script = .command 0x01#8 ops :: rest) (hops : ops ≠ []) (hws : ws ≠ [])
      (h : publicOperation params ws { s with script := rest } = .next t) : MachineStep s t
  | store {a : Nat} (v : Byte) (rest : List HostMove) (ha : a < 2 ^ defaultWidths.aw) :
      MachineStep s { s with script := rest, mem := Memory.write s.mem a v }
  | reset {t : State} {rest : List HostMove} (hs : s.script = .reset :: rest)
      (h : resetEvent { s with script := rest } = .next t) : MachineStep s t

/-- Every step is one of these. -/
theorem machineStep_of_step {s t : State} (h : step s = .next t) : MachineStep s t := by
  cases hs : s.script with
  | nil => exact .core s.script s.hostRead ((step_of_no_script hs).symm.trans h)
  | cons m rest =>
    rw [step_of_script hs] at h
    cases m with
    | write r v =>
      obtain h | ⟨rfl, rfl, h⟩ := runCode_regWrite_eq_next h
      · exact .write hs h
      · exact .startByWrite hs h
    | command c ops =>
      obtain ⟨rfl, ⟨rfl, h⟩ | ⟨hops, ws, hws, h⟩⟩ := runCode_command_eq_next h
      · exact .start hs h
      · exact .operation hs hops hws h
    | read r =>
      rw [hostStep_read_eq_next h]
      exact .read rest t.hostRead
    | wait =>
      rw [hostStep_wait] at h
      split at h
      · exact .core _ _ h
      · obtain rfl := next_inj.1 h
        exact .read _ _
    | core => exact .core rest s.hostRead ((sequencerStep_eq _).symm.trans h)
    | load a =>
      rw [hostLoad_eq_next h]
      exact .read rest _
    | store a v =>
      obtain ⟨ha, rfl⟩ := hostStore_eq_next h
      exact .store v rest ha
    | reset => exact .reset hs h

/-! What the public operations are made of. -/

section
variable {W : Widths} {P : Params} {s t : State W}

/-- A public operation is the WR lines, START, and WAIT (R84). -/
theorem publicOperation_eq_next {ws : List (BitVec 4 × HostValue)} :
    publicOperation P ws s = .next t ↔
      ∃ u, writeRegisters ws s = .next u ∧ u.phase.busy = false ∧
        waitDone P invocationFuel (beginInvocation u) = .next t := by
  simp only [publicOperation, andThen_eq_next, startInvocation_eq_next]
  constructor
  · rintro ⟨u, hu, _, ⟨hb, rfl⟩, h⟩
    exact ⟨u, hu, hb, h⟩
  · rintro ⟨u, hu, hb, h⟩
    exact ⟨u, hu, _, ⟨hb, rfl⟩, h⟩

theorem resetEvent_eq_next (h : resetEvent s = .next t) :
    t.phase = .idle ∧ t.err = none ∧ t.buf = zeroBlock ∧ t.desc = (State.resetAt W).desc ∧ t.mem = memoryAfterReset s ∧
      t.absent = s.absent ∧ t.script = s.script := by
  obtain rfl := next_inj.1 h
  exact ⟨rfl, rfl, rfl, rfl, rfl, rfl, rfl⟩

/-! The invariant. -/

/-- The invariant does not speak of the host's own fields. -/
theorem Inv.hostFields (hi : Inv s) (script : List HostMove) (hostRead : HostValue) :
    Inv { s with script := script, hostRead := hostRead } := by
  obtain ⟨memory, error, accepted, key, message, split, reserved, counter, flag, buffer⟩ := hi
  exact ⟨memory, error, accepted, key, message, split, reserved, counter, flag, buffer⟩

/-- Another memory in canonical form keeps the invariant: no other clause speaks of memory. -/
theorem Inv.withMemory (hi : Inv s) {m : Memory} (hm : Memory.wf W m = true) : Inv { s with mem := m } := by
  obtain ⟨-, error, accepted, key, message, split, reserved, counter, flag, buffer⟩ := hi
  exact ⟨hm, error, accepted, key, message, split, reserved, counter, flag, buffer⟩

/-- In IDLE and VALID the invariant asks for memory's form and no recorded error alone. -/
theorem inv_of_idle_or_valid (hp : s.phase = .idle ∨ s.phase = .valid) (hm : Memory.wf W s.mem = true) (he : s.err = none) :
    Inv s := by
  obtain hp | hp := hp
  all_goals
    exact
      { memory := hm
        error := by simp [he, hp]
        accepted := by rw [hp]; nofun
        key := by rw [hp]; nofun
        message := by rw [hp]; nofun
        split := by rw [State.splitDone, hp]; nofun
        reserved := by rw [hp]; nofun
        counter := by rw [expectedCounter, hp]; nofun
        flag := by rw [expectedFlag, hp]; nofun
        buffer := by rw [expectedFill, hp]; nofun }

/-- While the CORE is not busy no clause of the invariant reads the descriptor. -/
theorem Inv.withDescriptor (hi : Inv s) (hb : s.phase.busy = false) (d : Descriptor W) : Inv { s with desc := d } := by
  have hflag := hi.flag
  obtain hp | hp | hp := busy_eq_false_iff.1 hb
  all_goals
    simp only [expectedFlag, hp] at hflag
    exact
      { memory := hi.memory
        error := hi.error
        accepted := by simp [hp, Phase.accepted, Phase.busy]
        key := by simp [hp, Phase.keyStep]
        message := by simp [hp, Phase.messageStep]
        split := by simp [State.splitDone, hp, Phase.messageStep]
        reserved := by simp [hp, Phase.blockBuilt]
        counter := by simp [expectedCounter, hp]
        flag := by simp only [expectedFlag, hp]; exact hflag
        buffer := by simp [expectedFill, hp] }

theorem Inv.beginInvocation (hi : Inv s) : Inv (beginInvocation s) := inv_of_idle_or_valid (.inr rfl) hi.memory rfl

theorem Inv.pollStatus (hi : Inv s) : Inv (pollStatus s) := hi.hostFields s.script _

theorem Inv.resetEvent (hi : Inv s) (h : resetEvent s = .next t) : Inv t := by
  obtain ⟨hphase, herr, -, -, hmem, -, -⟩ := resetEvent_eq_next h
  exact inv_of_idle_or_valid (.inl hphase) (hmem ▸ memoryAfterReset_wf hi.memory) herr

/-- A public operation keeps the invariant: its WR lines while not busy, START, and the CORE's steps up to the end of WAIT. -/
theorem Inv.publicOperation {ws : List (BitVec 4 × HostValue)} (hi : Inv s) (hws : ws ≠ [])
    (h : publicOperation P ws s = .next t) : Inv t := by
  obtain ⟨u, hu, -, hwait⟩ := publicOperation_eq_next.1 h
  obtain ⟨hdesc, hidle⟩ := writeRegisters_eq_next hu
  have hinv : Inv u := hdesc ▸ hi.withDescriptor (hidle hws) u.desc
  exact waitDone_induction (motive := Inv) (fun _ _ hi _ h => hi.coreStep h) (fun _ hi => hi.pollStatus)
    hinv.beginInvocation hwait

end

/-- A step of the machine keeps the invariant, whoever moves. -/
theorem Inv.step {s t : State} (hi : Inv s) (h : step s = .next t) : Inv t := by
  cases machineStep_of_step h with
  | core script hostRead h => exact (hi.hostFields script hostRead).coreStep h
  | read script hostRead => exact hi.hostFields script hostRead
  | write _ h =>
    obtain ⟨hb, d, -, rfl⟩ := writeRegister_eq_next.1 h
    exact (hi.hostFields _ s.hostRead).withDescriptor hb d
  | startByWrite _ h | start _ h =>
    obtain ⟨-, rfl⟩ := startInvocation_eq_next.1 h
    exact (hi.hostFields _ s.hostRead).beginInvocation
  | operation _ _ hws h => exact (hi.hostFields _ s.hostRead).publicOperation hws h
  | store v rest ha => exact (hi.hostFields rest s.hostRead).withMemory (Memory.wf_write hi.memory ha v)
  | reset _ h => exact (hi.hostFields _ s.hostRead).resetEvent h

/-- Settles O59: `Inv.step` for the machine, `Inv.coreStep` for the CORE by itself. -/
theorem everyStepKeepsTheInvariant : Obligations.EveryStepKeepsTheInvariant := by
  unfold Obligations.EveryStepKeepsTheInvariant
  exact ⟨fun s t => Inv.step, fun W P s t => Inv.coreStep⟩

/-- Settles O58: a reset state is IDLE, with no error recorded and nothing listed in memory. -/
theorem invariantHoldsAtReset : Obligations.InvariantHoldsAtReset := by
  unfold Obligations.InvariantHoldsAtReset
  have hreset (W : Widths) : Inv (State.resetAt W) := inv_of_idle_or_valid (.inl rfl) rfl rfl
  exact ⟨hreset defaultWidths, hreset⟩

/-- Settles O60: BF.DIGEST, a host store and a reset inside BF.DIGEST are the only writers of memory, and each keeps its form. -/
theorem everyStepKeepsMemoryCanonical : Obligations.EveryStepKeepsMemoryCanonical := by
  unfold Obligations.EveryStepKeepsMemoryCanonical
  intro s t hm h
  cases machineStep_of_step h with
  | core _ _ h => exact (coreStep_eq_next.1 h).memory_wf hm
  | read => exact hm
  | write _ h =>
    obtain ⟨-, d, -, rfl⟩ := writeRegister_eq_next.1 h
    exact hm
  | startByWrite _ h | start _ h =>
    obtain ⟨-, rfl⟩ := startInvocation_eq_next.1 h
    exact hm
  | operation _ _ _ h =>
    obtain ⟨u, hu, -, hwait⟩ := publicOperation_eq_next.1 h
    obtain ⟨hdesc, -⟩ := writeRegisters_eq_next hu
    exact waitDone_induction (motive := fun u => Memory.wf defaultWidths u.mem = true)
      (fun _ _ hm _ h => (coreStep_eq_next.1 h).memory_wf hm) (fun _ hm => hm)
      (by rw [beginInvocation_mem, hdesc]; exact hm) hwait
  | store v _ ha => exact Memory.wf_write hm ha v
  | reset _ h =>
    obtain ⟨-, -, -, -, hmem, -, -⟩ := resetEvent_eq_next h
    rw [hmem]
    exact memoryAfterReset_wf hm

/-- Settles O56: the CORE and the host's reads and stores leave the descriptor alone. -/
theorem onlyTheHostChangesTheDescriptor : Obligations.OnlyTheHostChangesTheDescriptor := by
  unfold Obligations.OnlyTheHostChangesTheDescriptor
  intro s t h hne
  cases machineStep_of_step h with
  | core _ _ h => exact absurd (coreStep_eq_next.1 h).desc_eq hne
  | read | store => exact absurd rfl hne
  | write hs | startByWrite hs => exact .inl ⟨_, _, _, hs⟩
  | start hs | operation hs => exact .inr (.inl ⟨_, _, _, hs⟩)
  | reset hs => exact .inr (.inr ⟨_, hs⟩)

/-- A WAIT that begins at VALID ends in DONE or ERROR: PHASE never falls back to IDLE, and 17 steps end the invocation. -/
theorem waitDone_of_valid_phase {W : Widths} {P : Params} {s t : State W} (hp : s.phase = .valid)
    (h : waitDone P invocationFuel s = .next t) : t.phase = .done ∨ t.phase = .error := by
  have hidle : t.phase ≠ .idle := by
    refine waitDone_induction (motive := fun u => u.phase ≠ .idle) (fun u v _ hb hstep hv => ?_) (fun _ hu => hu)
      (by rw [hp]; nofun) h
    have hrise := (coreStep_eq_next.1 hstep).selector_lt hb
    rw [hv] at hrise
    exact absurd hrise (Nat.not_lt_zero _)
  have hb : t.phase.busy = false := waitDone_not_busy (fun _ => by rw [hp]; decide) h
  exact (busy_eq_false_iff.1 hb).resolve_left hidle

/-- Settles O57: in a phase that is not busy the CORE and WAIT leave PHASE alone, so a change is a START, a public operation
(which runs from VALID to its end), or a reset. -/
theorem onlyStartLeavesARestingPhase : Obligations.OnlyStartLeavesARestingPhase := by
  unfold Obligations.OnlyStartLeavesARestingPhase
  intro s t hb h hne
  cases machineStep_of_step h with
  | core script hostRead h =>
    have hrest := coreStep_of_not_busy (P := params) (s := { s with script := script, hostRead := hostRead }) hb
    obtain rfl := next_inj.1 (hrest.symm.trans h)
    exact absurd rfl hne
  | read | store => exact absurd rfl hne
  | write _ h =>
    obtain ⟨-, d, -, rfl⟩ := writeRegister_eq_next.1 h
    exact absurd rfl hne
  | startByWrite hs h =>
    obtain ⟨-, rfl⟩ := startInvocation_eq_next.1 h
    exact .inr (.inl ⟨_, hs, rfl⟩)
  | start hs h =>
    obtain ⟨-, rfl⟩ := startInvocation_eq_next.1 h
    exact .inl ⟨_, _, hs, fun _ => rfl, fun hops => absurd rfl hops⟩
  | operation hs hops _ h =>
    obtain ⟨u, -, -, hwait⟩ := publicOperation_eq_next.1 h
    exact .inl ⟨_, _, hs, fun he => absurd he hops, fun _ => waitDone_of_valid_phase rfl hwait⟩
  | reset hs h => exact .inr (.inr ⟨_, hs, (resetEvent_eq_next h).1⟩)

end Sys2Proof.Machine
end

section
/-! The four paths of an invocation (44_host_operations.md R174): runs of the CORE as lists of PHASE values, the step it always
has under the invariant and the range duty, and the run from VALID to DONE in its parts: encoder, initializer, key step,
message step, digest. -/

namespace Sys2Proof.Machine

open Sys2Proof.Config

variable {W : Widths} {P : Params} {s t u : State W}

/-! Ranges of the message step. -/

/-- Which ranges exist is the platform's matter alone (R51). -/
theorem rangeOk_congr (h : t.absent = s.absent) (p n : Nat) : t.rangeOk p n = s.rangeOk p n := by
  simp only [State.rangeOk, State.rangeExists, h]

/-- When the message's range exists, so do the parts BF.TAILLD and BF.INTCMP read, and the tail fits the buffer (R125). -/
theorem State.splitRight.rangeOk (h : s.splitRight) (hr : s.rangeOk s.desc.dataPtr.toNat s.desc.datalen.toNat = true) :
    (s.taillen.toNat ≤ 64 ∧ s.rangeOk (s.desc.dataPtr.toNat + s.span.toNat) s.taillen.toNat = true) ∧
      s.rangeOk s.desc.dataPtr.toNat (64 * s.nint.toNat) = true := by
  obtain ⟨hnint, hspan, htail⟩ := h
  exact ⟨⟨by omega, rangeOk_sub hr (by omega) (by omega)⟩, rangeOk_sub hr (by omega) (by omega)⟩

/-- Settles O52: the accepted descriptor and the split meet the contracts of the operations, the range duty their accesses. -/
theorem busyCoreAlwaysHasAStep : Obligations.BusyCoreAlwaysHasAStep := by
  unfold Obligations.BusyCoreAlwaysHasAStep
  intro W P s hi hb hranges
  obtain ⟨hout, hsalt, hpers, hkey, hdata⟩ := rangesOk_iff.1 hranges
  have bounds (h : s.phase.accepted = true) := accepted_bounds (hi.accepted h)
  have ranges (h : s.splitDone = true) := (hi.split h).rangeOk hdata
  simp only [coreStep_eq_next]
  cases hp : s.phase with
  | idle | done | error =>
    rw [hp] at hb
    cases hb
  | valid =>
    cases hf : firstFailure s.desc with
    | none => exact ⟨_, .accept hp hf⟩
    | some k => exact ⟨_, .reject hp hf⟩
  | pbZero => exact ⟨_, .pbZero hp⟩
  | pbHdr =>
    obtain ⟨h1, h32, hk, -⟩ := bounds (by rw [hp]; rfl)
    exact ⟨_, .pbHdr hp ⟨h1, h32, hk⟩⟩
  | pbSalt =>
    obtain ⟨-, -, -, hsl, -⟩ := bounds (by rw [hp]; rfl)
    exact ⟨_, .pbSalt hp ⟨hsl, hsalt⟩⟩
  | pbPers =>
    obtain ⟨-, -, -, -, hpl, -⟩ := bounds (by rw [hp]; rfl)
    exact ⟨_, .pbPers hp ⟨hpl, hpers⟩⟩
  | siXoriv => exact ⟨_, .siXoriv hp⟩
  | siClrtf => exact ⟨_, .siClrtf hp⟩
  | bfKeyld =>
    obtain ⟨-, -, hk, -⟩ := bounds (by rw [hp]; rfl)
    exact ⟨_, .bfKeyld hp ⟨hk, hkey⟩⟩
  | bfKeyfin => exact ⟨_, .bfKeyfin hp⟩
  | bfKeycmp => exact ⟨_, .bfKeycmp hp⟩
  | bfWipe => exact ⟨_, .bfWipe hp⟩
  | bfSplit => exact ⟨_, .bfSplit hp (hi.message (by rw [hp]; rfl))⟩
  | bfTailld => exact ⟨_, .bfTailld hp (ranges (by rw [State.splitDone, hp]; rfl)).1⟩
  | bfIntcmp => exact ⟨_, .bfIntcmp hp (ranges (by rw [State.splitDone, hp]; rfl)).2⟩
  | bfSetfin => exact ⟨_, .bfSetfin hp⟩
  | bfTailcmp => exact ⟨_, .bfTailcmp hp⟩
  | bfDigest =>
    obtain ⟨-, h32, -⟩ := bounds (by rw [hp]; rfl)
    exact ⟨_, .bfDigest hp ⟨h32, hout⟩⟩

/-! Runs of the CORE. -/

/-- At rest there is one PHASE value to see, the CORE's own. -/
theorem phasePath_of_not_busy (hb : s.phase.busy = false) (n : Nat) : phasePath P n s = [s.phase] := by
  cases n with
  | zero => rfl
  | succ n => rw [phasePath, hb, if_neg Bool.false_ne_true]

/-- The CORE runs from the second argument to the third through the PHASE values listed, the last state's not among them. -/
inductive Path (P : Params) : List Phase → State W → State W → Prop
  | nil {s : State W} : Path P [] s s
  | cons {p : Phase} {ps : List Phase} {s u t : State W} (hp : s.phase = p) (hb : p.busy = true) (hst : CoreStep P s u)
      (h : Path P ps u t) : Path P (p :: ps) s t

namespace Path

variable {ps qs : List Phase}

theorem append (h : Path P ps s u) (h' : Path P qs u t) : Path P (ps ++ qs) s t := by
  induction h with
  | nil => exact h'
  | cons hp hb hst _ ih => exact .cons hp hb hst (ih h')

theorem single {p : Phase} (hp : s.phase = p) (hb : p.busy = true) (hst : CoreStep P s t) : Path P [p] s t :=
  .cons hp hb hst .nil

/-- WAIT goes along a path. -/
theorem waitDone_eq (h : Path P ps s t) (n : Nat) : waitDone P (n + ps.length) s = waitDone P n t := by
  induction h with
  | nil => rfl
  | cons hp hb hst _ ih => exact (waitDone_of_step (by rw [hp, hb]) (coreStep_eq_next.2 hst)).trans ih

/-- The PHASE values of a run are those of its path (R174). -/
theorem phasePath_eq (h : Path P ps s t) (n : Nat) : phasePath P (n + ps.length) s = ps ++ phasePath P n t := by
  induction h with
  | nil => rfl
  | cons hp hb hst _ ih =>
    rw [List.length_cons, ← Nat.add_assoc, phasePath, hp, if_pos hb, coreStep_eq_next.2 hst]
    simp only [ih, List.cons_append]

/-- A path leaves the descriptor and the environment alone. -/
theorem frame (h : Path P ps s t) :
    t.desc = s.desc ∧ t.absent = s.absent ∧ t.script = s.script ∧ t.freeCount = s.freeCount := by
  induction h with
  | nil => exact ⟨rfl, rfl, rfl, rfl⟩
  | cons _ _ hst _ ih =>
    obtain ⟨hdesc, habsent, hscript, hcount⟩ := ih
    obtain ⟨habsent', hscript', -, hcount'⟩ := hst.environment_eq
    exact ⟨hdesc.trans hst.desc_eq, habsent.trans habsent', hscript.trans hscript', hcount.trans hcount'⟩

/-- A path on which BF.DIGEST does not run leaves host memory alone. -/
theorem mem_eq (h : Path P ps s t) (hps : .bfDigest ∉ ps) : t.mem = s.mem := by
  induction h with
  | nil => rfl
  | cons hp _ hst _ ih =>
    exact (ih (List.not_mem_of_not_mem_cons hps)).trans (hst.mem_eq hp (List.ne_of_not_mem_cons hps).symm)

/-- Ranges exist on a path as they did at its start. -/
theorem rangeOk_eq (h : Path P ps s t) (p n : Nat) : t.rangeOk p n = s.rangeOk p n := rangeOk_congr h.frame.2.1 p n

/-- Along a path ERR stays recorded exactly in ERROR. -/
theorem error_iff (h : Path P ps s t) (hi : s.err.isSome = true ↔ s.phase = .error) :
    t.err.isSome = true ↔ t.phase = .error := by
  induction h with
  | nil => exact hi
  | cons _ _ hst _ ih => exact ih (hst.error_iff hi)

end Path

/-! The feeder's calls on bytes of host memory. -/

theorem drop_readBytes (m : Memory) (p n k : Nat) : (readBytes m p n).drop k = readBytes m (p + k) (n - k) := by
  refine List.ext_getElem (by simp) fun i h _ => ?_
  rw [List.getElem_drop, readBytes_getElem, readBytes_getElem, Nat.add_assoc]

theorem take_readBytes {m : Memory} {p n k : Nat} (h : k ≤ n) : (readBytes m p n).take k = readBytes m p k := by
  refine List.ext_getElem (by simpa using h) fun i _ _ => ?_
  rw [List.getElem_take, readBytes_getElem, readBytes_getElem]

theorem readBytes_isEmpty (m : Memory) (p n : Nat) : (readBytes m p n).isEmpty = decide (n = 0) := by
  rw [Bool.eq_iff_iff, List.isEmpty_iff_length_eq_zero, readBytes_length, decide_eq_true_iff]

/-- A chunk of the message is the block BF.INTCMP reads (R127, R131). -/
theorem messageChunk_readBytes {m : Memory} {p n j : Nat} (h : 64 * j + 64 ≤ n) :
    messageChunk (readBytes m p n) j = readBytes m (p + 64 * j) 64 := by
  rw [messageChunk, drop_readBytes, take_readBytes (by omega)]

/-- With a key the key step makes one call, of the padded key (R131). -/
theorem keyCalls_readBytes {m : Memory} {p k : Nat} (hk : k ≠ 0) (q n : Nat) :
    keyCalls (readBytes m p k) (readBytes m q n) =
      [{ blk := pad64 (readBytes m p k), inc := 64, f0 := if n = 0 then allOnes else 0#32 }] := by
  simp [keyCalls, readBytes_isEmpty, hk]

/-- The calls of the interior blocks of a message at `p` (R127, R131). -/
def interiorCalls (m : Memory) (p n : Nat) : List Call :=
  (List.range n).map fun j => { blk := pad64 (readBytes m (p + 64 * j) 64), inc := 64, f0 := 0#32 }

theorem interiorCalls_succ (m : Memory) (p n : Nat) :
    interiorCalls m p (n + 1) =
      interiorCalls m p n ++ [{ blk := pad64 (readBytes m (p + 64 * n) 64), inc := 64, f0 := 0#32 }] := by
  rw [interiorCalls, List.range_succ, List.map_append]
  rfl

/-- With a message the message step makes the calls of its interior blocks and one of the padded tail (R131). -/
theorem messageCalls_readBytes {m : Memory} {p n k : Nat} (hn : n ≠ 0) (hk : k = (n - 1) / 64) :
    messageCalls (readBytes m p n) =
      interiorCalls m p k ++
        [{ blk := pad64 (readBytes m (p + 64 * k) (n - 64 * k)), inc := n - 64 * k, f0 := allOnes }] := by
  have hcount : interiorCount (readBytes m p n) = k := by rw [interiorCount, readBytes_length, hk]
  have hchunk : ∀ j ∈ List.range k, messageChunk (readBytes m p n) j = readBytes m (p + 64 * j) 64 := fun j hj => by
    have := List.mem_range.1 hj
    exact messageChunk_readBytes (by omega)
  rw [messageCalls, readBytes_isEmpty, decide_eq_false hn, if_neg Bool.false_ne_true, hcount, drop_readBytes,
    readBytes_length, interiorCalls]
  exact congrArg (· ++ _) (List.map_congr_left fun j hj => by rw [hchunk j hj])

/-- `h` and `T` together, what a call of the feeder changes (R131). -/
def State.chaining (s : State W) : Chain × Counter := (s.h, s.counter)

theorem chaining_congr (hh : t.h = s.h) (h0 : t.t0 = s.t0) (h1 : t.t1 = s.t1) : t.chaining = s.chaining :=
  Prod.ext hh (counter_congr h0 h1)

/-- `Compress1` is a call of the feeder, the second flag being zero (R131, R152). -/
theorem chaining_compress1 (hf1 : s.f1 = 0#32) (blk : Block) (inc : Nat) :
    (compress1 P blk inc s).chaining = applyCall P s.chaining { blk := blk, inc := inc, f0 := s.f0 } := by
  rw [State.chaining, compress1_counter, compress1_h, hf1]
  rfl

/-- The interior loop is the calls of its blocks in order (R127, R131). -/
theorem chaining_compressInterior (hf0 : s.f0 = 0#32) (hf1 : s.f1 = 0#32) (p n : Nat) :
    (compressInterior P p n s).chaining = (interiorCalls s.mem p n).foldl (applyCall P) s.chaining := by
  induction n with
  | zero => rfl
  | succ n ih =>
    rw [compressInterior, chaining_compress1 (by rw [compressInterior_f1, hf1]), ih, compressInterior_f0, hf0,
      interiorCalls_succ, List.foldl_append]
    rfl

/-- A step at a PHASE that compresses nothing leaves `h` and `T` alone (R29). -/
theorem CoreStep.chaining_eq (hst : CoreStep P s t) {p : Phase} (hp : s.phase = p)
    (hh : p ∉ [.pbZero, .pbHdr, .pbSalt, .pbPers, .siXoriv, .bfKeycmp, .bfIntcmp, .bfTailcmp] := by decide)
    (hT : p ∉ [.siClrtf, .bfKeycmp, .bfIntcmp, .bfTailcmp] := by decide) : t.chaining = s.chaining :=
  Prod.ext (hst.h_eq hp hh) (hst.counter_eq hp hT)

/-! The parts of the run. In each, a step is named with what it writes; what it leaves comes from the access table. -/

/-- VALID, PB.ZERO and PB.HDR: the header in `h` (R91, R92, R173). -/
theorem path_header (hp : s.phase = .valid) (ha : firstFailure s.desc = none) :
    ∃ t, Path P [.valid, .pbZero, .pbHdr] s t ∧ t.phase = .pbSalt ∧ t.h = headerChain s.desc := by
  obtain ⟨h1, h32, hk, -⟩ := accepted_bounds ha
  obtain ⟨a, hsa, hpa⟩ : ∃ a, CoreStep P s a ∧ a.phase = .pbZero := ⟨_, .accept hp ha, rfl⟩
  obtain ⟨b, hab, hpb, hhb⟩ : ∃ b, CoreStep P a b ∧ b.phase = .pbHdr ∧ b.h = Vector.replicate 8 0#32 :=
    ⟨_, .pbZero hpa, rfl, rfl⟩
  have hdesc : b.desc = s.desc := hab.desc_eq.trans hsa.desc_eq
  rw [← hdesc] at h1 h32 hk
  obtain ⟨t, hbt, hpt, hht⟩ : ∃ t, CoreStep P b t ∧ t.phase = .pbSalt ∧ t.h = b.h.set 0 (headerWord b.desc) :=
    ⟨_, .pbHdr hpb ⟨h1, h32, hk⟩, rfl, rfl⟩
  refine ⟨t, .cons hp rfl hsa (.cons hpa rfl hab (.single hpb rfl hbt)), hpt, ?_⟩
  rw [hht, hhb, hdesc, headerChain]

/-- PB.SALT and PB.PERS: the two fields copied (R93, R94). -/
theorem path_fields (hp : s.phase = .pbSalt) (ha : firstFailure s.desc = none)
    (hsalt : s.rangeOk s.desc.saltPtr.toNat s.desc.saltlen.toNat = true)
    (hpers : s.rangeOk s.desc.persPtr.toNat s.desc.perslen.toNat = true) :
    ∃ t, Path P [.pbSalt, .pbPers] s t ∧ t.phase = .siXoriv ∧
      t.h = writePb (writePb s.h 16 (readBytes s.mem s.desc.saltPtr.toNat s.desc.saltlen.toNat)) 24
        (readBytes s.mem s.desc.persPtr.toNat s.desc.perslen.toNat) := by
  obtain ⟨-, -, -, hsl, hpl, -⟩ := accepted_bounds ha
  obtain ⟨a, hsa, hpa, hha⟩ : ∃ a, CoreStep P s a ∧ a.phase = .pbPers ∧
      a.h = writePb s.h 16 (readBytes s.mem s.desc.saltPtr.toNat s.desc.saltlen.toNat) :=
    ⟨_, .pbSalt hp ⟨hsl, hsalt⟩, rfl, rfl⟩
  have hpath := Path.single hp rfl hsa
  have hmem := hpath.mem_eq (by decide)
  rw [← hpath.rangeOk_eq, ← hsa.desc_eq] at hpers
  rw [← hsa.desc_eq] at hpl
  obtain ⟨t, hat, hpt, hht⟩ : ∃ t, CoreStep P a t ∧ t.phase = .siXoriv ∧
      t.h = writePb a.h 24 (readBytes a.mem a.desc.persPtr.toNat a.desc.perslen.toNat) :=
    ⟨_, .pbPers hpa ⟨hpl, hpers⟩, rfl, rfl⟩
  refine ⟨t, .cons hp rfl hsa (.single hpa rfl hat), hpt, ?_⟩
  rw [hht, hha, hmem, hsa.desc_eq]

/-- SI.XORIV and SI.CLRTF: `IV` folded in, counter and flags zero, and the feeder entered (R112, R113). -/
theorem path_initializer (hp : s.phase = .siXoriv) :
    ∃ t, Path P [.siXoriv, .siClrtf] s t ∧ t.phase = feederEntry s.desc ∧ t.chaining = (xorIv P s.h, 0#64) ∧
      t.f0 = 0#32 ∧ t.f1 = 0#32 := by
  obtain ⟨a, hsa, hpa, hha⟩ : ∃ a, CoreStep P s a ∧ a.phase = .siClrtf ∧ a.h = xorIv P s.h := ⟨_, .siXoriv hp, rfl, rfl⟩
  obtain ⟨t, hat, hpt, hht, hT, hf0, hf1⟩ : ∃ t, CoreStep P a t ∧ t.phase = feederEntry a.desc ∧ t.h = a.h ∧
      t.counter = 0#64 ∧ t.f0 = 0#32 ∧ t.f1 = 0#32 :=
    ⟨_, .siClrtf hpa, rfl, rfl, (counter_congr rfl rfl).trans (clearCounterAndFlags_counter a), rfl, rfl⟩
  exact ⟨t, .cons hp rfl hsa (.single hpa rfl hat), hsa.desc_eq ▸ hpt, Prod.ext (hht.trans hha) hT, hf0, hf1⟩

/-- The key step: the one call of the key block, with the flag when no message follows (R121 to R124). -/
theorem path_key (hp : s.phase = .bfKeyld) (hk : s.desc.keylen.toNat ≤ 32)
    (hkey : s.rangeOk s.desc.keyPtr.toNat s.desc.keylen.toNat = true) (hf0 : s.f0 = 0#32) (hf1 : s.f1 = 0#32) :
    ∃ t, Path P [.bfKeyld, .bfKeyfin, .bfKeycmp, .bfWipe] s t ∧ t.phase = wipeExit s.desc ∧
      t.chaining = applyCall P s.chaining
        { blk := pad64 (readBytes s.mem s.desc.keyPtr.toNat s.desc.keylen.toNat), inc := 64,
          f0 := if s.desc.datalen.toNat = 0 then allOnes else 0#32 } ∧
      t.f0 = (if s.desc.datalen.toNat = 0 then allOnes else 0#32) ∧ t.f1 = 0#32 := by
  obtain ⟨a, hsa, hpa, hba⟩ : ∃ a, CoreStep P s a ∧ a.phase = .bfKeyfin ∧
      a.buf = pad64 (readBytes s.mem s.desc.keyPtr.toNat s.desc.keylen.toNat) := ⟨_, .bfKeyld hp ⟨hk, hkey⟩, rfl, rfl⟩
  obtain ⟨b, hab, hpb, hb0⟩ : ∃ b, CoreStep P a b ∧ b.phase = .bfKeycmp ∧
      b.f0 = (if a.desc.datalen.toNat = 0 then allOnes else a.f0) := ⟨_, .bfKeyfin hpa, rfl, rfl⟩
  have hb1 : b.f1 = 0#32 := by rw [hab.f1_eq hpa, hsa.f1_eq hp, hf1]
  obtain ⟨c, hbc, hpc, hc⟩ : ∃ c, CoreStep P b c ∧ c.phase = .bfWipe ∧ c.chaining = (compress1 P b.buf 64 b).chaining :=
    ⟨_, .bfKeycmp hpb, rfl, chaining_congr rfl rfl rfl⟩
  obtain ⟨t, hct, hpt⟩ : ∃ t, CoreStep P c t ∧ t.phase = wipeExit c.desc := ⟨_, .bfWipe hpc, rfl⟩
  have hflag : b.f0 = if s.desc.datalen.toNat = 0 then allOnes else 0#32 := by
    rw [hb0, hsa.desc_eq, hsa.f0_eq hp, hf0]
  refine ⟨t, .cons hp rfl hsa (.cons hpa rfl hab (.cons hpb rfl hbc (.single hpc rfl hct))), ?_, ?_, ?_, ?_⟩
  · rw [hpt, hbc.desc_eq, hab.desc_eq, hsa.desc_eq]
  · rw [hct.chaining_eq hpc, hc, chaining_compress1 hb1, hflag,
      hab.chaining_eq hpa, hsa.chaining_eq hp,
      hab.buf_eq hpa, hba]
  · rw [hct.f0_eq hpc, hbc.f0_eq hpb, hflag]
  · rw [hct.f1_eq hpc, hbc.f1_eq hpb, hb1]

/-- BF.SPLIT and BF.TAILLD: the message split, its tail in the buffer (R125, R126). -/
theorem path_split (hp : s.phase = .bfSplit) (hlen : s.desc.datalen.toNat ≠ 0)
    (hdata : s.rangeOk s.desc.dataPtr.toNat s.desc.datalen.toNat = true) :
    ∃ t, Path P [.bfSplit, .bfTailld] s t ∧ t.phase = .bfIntcmp ∧ t.splitRight ∧
      t.buf = pad64 (readBytes s.mem (s.desc.dataPtr.toNat + t.span.toNat) t.taillen.toNat) ∧ t.chaining = s.chaining ∧
      t.f0 = s.f0 ∧ t.f1 = s.f1 := by
  obtain ⟨a, hsa, hpa, hsplit⟩ : ∃ a, CoreStep P s a ∧ a.phase = .bfTailld ∧ a.splitRight :=
    ⟨_, .bfSplit hp hlen, rfl, splitRight_of_bfSplit hlen⟩
  have hpath := Path.single hp rfl hsa
  have hmem := hpath.mem_eq (by decide)
  rw [← hpath.rangeOk_eq, ← hsa.desc_eq] at hdata
  obtain ⟨t, hat, hpt, hbuf⟩ : ∃ t, CoreStep P a t ∧ t.phase = .bfIntcmp ∧
      t.buf = pad64 (readBytes a.mem (a.desc.dataPtr.toNat + a.span.toNat) a.taillen.toNat) :=
    ⟨_, .bfTailld hpa (hsplit.rangeOk hdata).1, rfl, rfl⟩
  have hsame := hat.split_eq hpa
  have ⟨_, hspan, htail⟩ := hsame
  refine ⟨t, .cons hp rfl hsa (.single hpa rfl hat), hpt, (splitRight_congr hat.desc_eq hsame).2 hsplit, ?_, ?_, ?_, ?_⟩
  · rw [hbuf, hmem, hsa.desc_eq, hspan, htail]
  · rw [hat.chaining_eq hpa,
      hsa.chaining_eq hp]
  · rw [hat.f0_eq hpa, hsa.f0_eq hp]
  · rw [hat.f1_eq hpa, hsa.f1_eq hp]

/-- BF.INTCMP to BF.TAILCMP: the calls of the interior blocks, and the call of the buffer with the flag (R127 to R129). -/
theorem path_compress (hp : s.phase = .bfIntcmp) (hint : s.rangeOk s.desc.dataPtr.toNat (64 * s.nint.toNat) = true)
    (hf0 : s.f0 = 0#32) (hf1 : s.f1 = 0#32) :
    ∃ t, Path P [.bfIntcmp, .bfSetfin, .bfTailcmp] s t ∧ t.phase = .bfDigest ∧
      t.chaining =
        (interiorCalls s.mem s.desc.dataPtr.toNat s.nint.toNat ++
          [({ blk := s.buf, inc := s.taillen.toNat, f0 := allOnes } : Call)]).foldl (applyCall P) s.chaining := by
  obtain ⟨a, hsa, hpa, ha⟩ : ∃ a, CoreStep P s a ∧ a.phase = .bfSetfin ∧
      a.chaining = (compressInterior P s.desc.dataPtr.toNat s.nint.toNat s).chaining :=
    ⟨_, .bfIntcmp hp hint, rfl, chaining_congr rfl rfl rfl⟩
  obtain ⟨b, hab, hpb, hb0⟩ : ∃ b, CoreStep P a b ∧ b.phase = .bfTailcmp ∧ b.f0 = allOnes := ⟨_, .bfSetfin hpa, rfl, rfl⟩
  obtain ⟨t, hbt, hpt, ht⟩ : ∃ t, CoreStep P b t ∧ t.phase = .bfDigest ∧
      t.chaining = (compress1 P b.buf b.taillen.toNat b).chaining := ⟨_, .bfTailcmp hpb, rfl, chaining_congr rfl rfl rfl⟩
  obtain ⟨-, -, htail⟩ := hab.split_eq hpa
  obtain ⟨-, -, htail'⟩ := hsa.split_eq hp
  have hb1 : b.f1 = 0#32 := by rw [hab.f1_eq hpa, hsa.f1_eq hp, hf1]
  have hbuf : b.buf = s.buf := by rw [hab.buf_eq hpa, hsa.buf_eq hp]
  refine ⟨t, .cons hp rfl hsa (.cons hpa rfl hab (.single hpb rfl hbt)), hpt, ?_⟩
  rw [ht, chaining_compress1 hb1, hab.chaining_eq hpa, ha,
    chaining_compressInterior hf0 hf1, hb0, hbuf, htail, htail', List.foldl_append]
  rfl

/-- The message step: the calls of the interior blocks and of the tail (R125 to R129). -/
theorem path_message (hp : s.phase = .bfSplit) (hlen : s.desc.datalen.toNat ≠ 0)
    (hdata : s.rangeOk s.desc.dataPtr.toNat s.desc.datalen.toNat = true) (hf0 : s.f0 = 0#32) (hf1 : s.f1 = 0#32) :
    ∃ t, Path P [.bfSplit, .bfTailld, .bfIntcmp, .bfSetfin, .bfTailcmp] s t ∧ t.phase = .bfDigest ∧
      t.chaining =
        (messageCalls (readBytes s.mem s.desc.dataPtr.toNat s.desc.datalen.toNat)).foldl (applyCall P) s.chaining := by
  obtain ⟨u, hpath, hpu, hsplit, hbuf, hchain, hu0, hu1⟩ := path_split (P := P) hp hlen hdata
  obtain ⟨hdesc, -⟩ := hpath.frame
  rw [← hpath.rangeOk_eq, ← hdesc] at hdata
  obtain ⟨t, hpath', hpt, hcalls⟩ := path_compress hpu (hsplit.rangeOk hdata).2 (hu0.trans hf0) (hu1.trans hf1)
  refine ⟨t, hpath.append hpath', hpt, ?_⟩
  obtain ⟨hnint, hspan, htail⟩ := hsplit
  rw [hdesc] at hnint htail
  rw [hcalls, hchain, hpath.mem_eq (by decide), hdesc, messageCalls_readBytes hlen hnint, hbuf, htail, hspan]

/-- BF.DIGEST: HASHLEN bytes of `h` at OUT_PTR (R130). -/
theorem path_digest (hp : s.phase = .bfDigest) (h32 : s.desc.hashlen.toNat ≤ 32)
    (hout : s.rangeOk s.desc.outPtr.toNat s.desc.hashlen.toNat = true) :
    ∃ t, Path P [.bfDigest] s t ∧ t.phase = .done ∧
      t.mem = storeBytes s.mem s.desc.outPtr.toNat (digest s.h s.desc.hashlen.toNat) :=
  ⟨_, .single hp rfl (.bfDigest hp ⟨h32, hout⟩), rfl, rfl⟩

end Sys2Proof.Machine
end

section
/-! The whole invocation (44_host_operations.md R170 to R177): the parts of the run put together, its PHASE values, its result
against `hash_ex`, and the public operations. -/

namespace Sys2Proof.Machine

open Sys2Proof.Config

variable {W : Widths} {P : Params} {s t u : State W}

/-- The PHASE values of the key step, when there is a key (R120). -/
def keyPhases (d : Descriptor W) : List Phase :=
  if d.keylen.toNat ≠ 0 then [.bfKeyld, .bfKeyfin, .bfKeycmp, .bfWipe] else []

/-- The PHASE values of the message step, when there is a message (R120). -/
def messagePhases (d : Descriptor W) : List Phase :=
  if d.datalen.toNat ≠ 0 then [.bfSplit, .bfTailld, .bfIntcmp, .bfSetfin, .bfTailcmp] else []

/-- The PHASE values of an accepted invocation before DONE (R174). -/
def invocationPhases (d : Descriptor W) : List Phase :=
  [.valid, .pbZero, .pbHdr, .pbSalt, .pbPers, .siXoriv, .siClrtf] ++ keyPhases d ++ messagePhases d ++ [.bfDigest]

/-- An invocation has at most 17 steps (R231). -/
theorem invocationPhases_length (d : Descriptor W) : (invocationPhases d).length ≤ invocationFuel := by
  unfold invocationPhases keyPhases messagePhases
  split <;> split <;> decide

/-- From VALID to the feeder: `state_init(pb_encode(..))` in `h`, counter and flags zero (R95, R114). -/
theorem path_stateInit {pb : ParamBlock} (hp : s.phase = .valid) (ha : firstFailure s.desc = none)
    (hsalt : s.rangeOk s.desc.saltPtr.toNat s.desc.saltlen.toNat = true)
    (hpers : s.rangeOk s.desc.persPtr.toNat s.desc.perslen.toNat = true)
    (hpb : pbEncode s.desc.hashlen.toNat s.desc.keylen.toNat (readBytes s.mem s.desc.saltPtr.toNat s.desc.saltlen.toNat)
      (readBytes s.mem s.desc.persPtr.toNat s.desc.perslen.toNat) = some pb) :
    ∃ t, Path P [.valid, .pbZero, .pbHdr, .pbSalt, .pbPers, .siXoriv, .siClrtf] s t ∧ t.phase = feederEntry s.desc ∧
      t.chaining = ((stateInit P pb).h, 0#64) ∧ t.f0 = 0#32 ∧ t.f1 = 0#32 := by
  obtain ⟨a, hsa, hpa, hha⟩ := path_header (P := P) hp ha
  obtain ⟨hdesc, -⟩ := hsa.frame
  rw [← hsa.rangeOk_eq, ← hdesc] at hsalt hpers
  obtain ⟨b, hab, hpb', hhb⟩ := path_fields (P := P) hpa (hdesc ▸ ha) hsalt hpers
  obtain ⟨hdesc', -⟩ := hab.frame
  obtain ⟨t, hbt, hpt, hchain, hf0, hf1⟩ := path_initializer (P := P) hpb'
  refine ⟨t, hsa.append (hab.append hbt), ?_, ?_, hf0, hf1⟩
  · rw [hpt, hdesc', hdesc]
  · rw [hchain, stateInit_eq_xorIv, ← encodedChain_eq_blockWords hpb, hhb, hha, hsa.mem_eq (by decide), hdesc, encodedChain]

/-- The key step or, without a key, nothing: the calls of the key, and the way on by DATALEN (R120, R131). -/
theorem path_keyCalls (hp : s.phase = feederEntry s.desc) (ha : firstFailure s.desc = none)
    (hkey : s.rangeOk s.desc.keyPtr.toNat s.desc.keylen.toNat = true) (hf0 : s.f0 = 0#32) (hf1 : s.f1 = 0#32)
    (p : Nat) :
    ∃ t, Path P (keyPhases s.desc) s t ∧ t.phase = wipeExit s.desc ∧
      t.chaining = (keyCalls (readBytes s.mem s.desc.keyPtr.toNat s.desc.keylen.toNat)
        (readBytes s.mem p s.desc.datalen.toNat)).foldl (applyCall P) s.chaining ∧
      (s.desc.datalen.toNat ≠ 0 → t.f0 = 0#32) ∧ t.f1 = 0#32 := by
  obtain ⟨-, -, hk, -, -, hinput⟩ := accepted_bounds ha
  by_cases hkeyed : s.desc.keylen.toNat = 0
  · have hlen : s.desc.datalen.toNat ≠ 0 := hinput.resolve_left (not_not_intro hkeyed)
    refine ⟨s, ?_, ?_, ?_, fun _ => hf0, hf1⟩
    · rw [keyPhases, if_neg (not_not_intro hkeyed)]
      exact .nil
    · rw [hp, feederEntry_of_no_key hkeyed, wipeExit_of_message hlen]
    · rw [hkeyed, readBytes_zero]
      rfl
  · obtain ⟨t, hpath, hpt, hchain, ht0, ht1⟩ :=
      path_key (P := P) (hp.trans (feederEntry_of_key hkeyed)) hk hkey hf0 hf1
    refine ⟨t, ?_, hpt, ?_, fun hlen => ht0.trans (if_neg hlen), ht1⟩
    · rwa [keyPhases, if_pos hkeyed]
    · rw [hchain, keyCalls_readBytes hkeyed]
      rfl

/-- The message step or, without a message, nothing: the calls of the message (R120, R131). -/
theorem path_messageCalls (hp : s.phase = wipeExit s.desc)
    (hdata : s.rangeOk s.desc.dataPtr.toNat s.desc.datalen.toNat = true)
    (hf0 : s.desc.datalen.toNat ≠ 0 → s.f0 = 0#32) (hf1 : s.f1 = 0#32) :
    ∃ t, Path P (messagePhases s.desc) s t ∧ t.phase = .bfDigest ∧
      t.chaining =
        (messageCalls (readBytes s.mem s.desc.dataPtr.toNat s.desc.datalen.toNat)).foldl (applyCall P) s.chaining := by
  by_cases hlen : s.desc.datalen.toNat = 0
  · refine ⟨s, ?_, hp.trans (wipeExit_of_no_message hlen), ?_⟩
    · rw [messagePhases, if_neg (not_not_intro hlen)]
      exact .nil
    · rw [hlen, readBytes_zero]
      rfl
  · rw [messagePhases, if_pos hlen]
    exact path_message (hp.trans (wipeExit_of_message hlen)) hlen hdata (hf0 hlen) hf1

/-- BF.DIGEST is not among the PHASE values of the two steps. -/
theorem bfDigest_not_mem_feeder (d : Descriptor W) : .bfDigest ∉ keyPhases d ∧ .bfDigest ∉ messagePhases d := by
  unfold keyPhases messagePhases
  split <;> split <;> decide

/-- The feeder's two steps: all calls of the invocation, in order (R131, R135). -/
theorem path_feedCalls (hp : s.phase = feederEntry s.desc) (ha : firstFailure s.desc = none)
    (hkey : s.rangeOk s.desc.keyPtr.toNat s.desc.keylen.toNat = true)
    (hdata : s.rangeOk s.desc.dataPtr.toNat s.desc.datalen.toNat = true) (hf0 : s.f0 = 0#32) (hf1 : s.f1 = 0#32) :
    ∃ t, Path P (keyPhases s.desc ++ messagePhases s.desc) s t ∧ t.phase = .bfDigest ∧
      t.chaining = (feedCalls (readBytes s.mem s.desc.keyPtr.toNat s.desc.keylen.toNat)
        (readBytes s.mem s.desc.dataPtr.toNat s.desc.datalen.toNat)).foldl (applyCall P) s.chaining := by
  obtain ⟨u, hsu, hpu, hchain, hu0, hu1⟩ := path_keyCalls (P := P) hp ha hkey hf0 hf1 s.desc.dataPtr.toNat
  obtain ⟨hdesc, -⟩ := hsu.frame
  rw [← hsu.rangeOk_eq, ← hdesc] at hdata
  obtain ⟨t, hut, hpt, hcalls⟩ := path_messageCalls (P := P) (hdesc ▸ hpu) hdata (hdesc ▸ hu0) hu1
  refine ⟨t, hsu.append (hdesc ▸ hut), hpt, ?_⟩
  rw [hcalls, hchain, feedCalls, List.foldl_append, hdesc, hsu.mem_eq (bfDigest_not_mem_feeder _).1]

/-- Inside its ranges `feed` answers the fold of its calls (R131, R137). -/
theorem feed_of_accepted {d : Descriptor W} (ha : firstFailure d = none) (h0 : Chain) (m : Memory) (p q : Nat) :
    feed P h0 (readBytes m p d.keylen.toNat) (readBytes m q d.datalen.toNat) =
      some ((feedCalls (readBytes m p d.keylen.toNat) (readBytes m q d.datalen.toNat)).foldl (applyCall P) (h0, 0#64)).1 := by
  obtain ⟨-, -, hk, -, -, hinput⟩ := accepted_bounds ha
  refine if_pos ?_
  rw [readBytes_length, readBytes_length]
  exact ⟨hk, by omega⟩

/-- The digest of an accepted invocation, as the pure functions compute it: `pb` is the block and `hN` the last chaining state
(R174). -/
structure Computes (P : Params) (d : Descriptor W) (m : Memory) (pb : ParamBlock) (hN : Chain) : Prop where
  encode : pbEncode d.hashlen.toNat d.keylen.toNat (readBytes m d.saltPtr.toNat d.saltlen.toNat)
    (readBytes m d.persPtr.toNat d.perslen.toNat) = some pb
  feed : feed P (stateInit P pb).h (readBytes m d.keyPtr.toNat d.keylen.toNat)
    (readBytes m d.dataPtr.toNat d.datalen.toNat) = some hN

/-- For an accepted descriptor `hash_ex` answers the digest of `hN`, stored at OUT_PTR (R174). -/
theorem Computes.hashEx_eq {d : Descriptor W} {m : Memory} {pb : ParamBlock} {hN : Chain} (h : Computes P d m pb hN)
    (ha : firstFailure d = none) :
    hashEx P d m =
      some (.ok (digest hN d.hashlen.toNat) (storeBytes m d.outPtr.toNat (digest hN d.hashlen.toNat))) := by
  simp only [hashEx, ha, h.encode, h.feed]

/-- An accepted invocation runs from VALID to DONE and stores the digest that `hash_ex` computes (R174). -/
theorem path_invocation (hp : s.phase = .valid) (ha : firstFailure s.desc = none) (hranges : s.rangesOk = true) :
    ∃ t pb hN, Path P (invocationPhases s.desc) s t ∧ t.phase = .done ∧ Computes P s.desc s.mem pb hN ∧
      t.mem = storeBytes s.mem s.desc.outPtr.toNat (digest hN s.desc.hashlen.toNat) := by
  obtain ⟨hout, hsalt, hpers, hkey, hdata⟩ := rangesOk_iff.1 hranges
  obtain ⟨pb, hpb⟩ := exists_pbEncode_of_accepted ha s.mem
  obtain ⟨a, hsa, hpa, hchain, ha0, ha1⟩ := path_stateInit (P := P) hp ha hsalt hpers hpb
  obtain ⟨hdescA, -⟩ := hsa.frame
  rw [← hsa.rangeOk_eq, ← hdescA] at hkey hdata
  obtain ⟨b, hab, hpB, hcalls⟩ := path_feedCalls (P := P) (hdescA ▸ hpa) (hdescA ▸ ha) hkey hdata ha0 ha1
  have hsb := hsa.append (hdescA ▸ hab)
  obtain ⟨hdescB, -⟩ := hsb.frame
  obtain ⟨-, h32, -⟩ := accepted_bounds ha
  rw [← hsb.rangeOk_eq, ← hdescB] at hout
  rw [← hdescB] at h32
  obtain ⟨t, hbt, hpt, hmem⟩ := path_digest (P := P) hpB h32 hout
  have hmemA : a.mem = s.mem := hsa.mem_eq (by decide)
  have hmemB : b.mem = a.mem :=
    hab.mem_eq (List.not_mem_append (bfDigest_not_mem_feeder _).1 (bfDigest_not_mem_feeder _).2)
  refine ⟨t, pb, b.h, hsb.append hbt, hpt, ⟨hpb, ?_⟩, ?_⟩
  · rw [feed_of_accepted ha, ← hchain, ← hmemA, ← hdescA, ← hcalls]
    rfl
  · rw [hmem, hdescB, hmemB, hmemA]

/-- An accepted START leads to DONE, by the path of R174, with the descriptor and the environment as they were and the digest
`hash_ex` computes in memory (R171, R174, R176). -/
theorem invocation_of_accepted (hb : s.phase.busy = false) (ha : firstFailure s.desc = none) (hranges : s.rangesOk = true) :
    ∃ t pb hN, andThen (startInvocation s) (waitDone P invocationFuel) = .next t ∧ Computes P s.desc s.mem pb hN ∧
      t.mem = storeBytes s.mem s.desc.outPtr.toNat (digest hN s.desc.hashlen.toNat) ∧ t.phase = .done ∧ t.err = none ∧
      t.hostRead = 0x12 ∧ t.desc = s.desc ∧ t.absent = s.absent ∧ t.script = s.script ∧ t.freeCount = s.freeCount := by
  obtain ⟨t, pb, hN, hpath, hpt, hcomp, hmem⟩ := path_invocation (P := P) (s := beginInvocation s) rfl ha hranges
  obtain ⟨hdesc, habsent, hscript, hcount⟩ := hpath.frame
  have herr : t.err = none := by
    have := hpath.error_iff (iff_of_false nofun nofun)
    rwa [hpt, iff_false_right nofun, Option.not_isSome_iff_eq_none] at this
  have hwait : waitDone P invocationFuel (beginInvocation s) = .next (pollStatus t) := by
    obtain ⟨n, hn⟩ := Nat.exists_eq_add_of_le' (invocationPhases_length s.desc)
    rw [hn]
    exact (hpath.waitDone_eq n).trans (waitDone_of_not_busy (by rw [hpt]; rfl))
  refine ⟨pollStatus t, pb, hN, andThen_eq_of_next (startInvocation_eq_next.2 ⟨hb, rfl⟩) hwait, hcomp, hmem, hpt, herr, ?_,
    hdesc, habsent, hscript, hcount⟩
  rw [pollStatus_hostRead, status_toNat, hpt, herr]
  rfl

/-- Settles O41: the run is `invocation_of_accepted`, the function's answer `Computes.hashEx_eq`. -/
theorem invocationComputesHashEx : Obligations.InvocationComputesHashEx := by
  unfold Obligations.InvocationComputesHashEx
  intro W P s hb ha hranges
  obtain ⟨t, pb, hN, hrun, hcomp, hmem, hframe⟩ := invocation_of_accepted (P := P) hb ha hranges
  exact ⟨t, _, _, hrun, hcomp.hashEx_eq ha, digest_length .., hmem, hframe⟩

/-- Settles O53: an accepted invocation goes along `invocationPhases` to DONE; a rejected one raises its error in VALID. -/
theorem invocationFollowsOneOfFourPaths : Obligations.InvocationFollowsOneOfFourPaths := by
  unfold Obligations.InvocationFollowsOneOfFourPaths
  intro W P s hp
  refine ⟨fun hfail => ?_, fun ha hranges => ?_⟩
  · obtain ⟨k, hk⟩ := Option.ne_none_iff_exists'.1 hfail
    exact (Path.single hp rfl (.reject (P := P) hp hk)).phasePath_eq 16
  · obtain ⟨t, -, -, hpath, hpt, -, -⟩ := path_invocation (P := P) hp ha hranges
    obtain ⟨n, hn⟩ := Nat.exists_eq_add_of_le' (invocationPhases_length s.desc)
    rw [hn, hpath.phasePath_eq n, phasePath_of_not_busy (by rw [hpt]; rfl), hpt, invocationPhases, List.append_assoc]
    rfl

/-- Ranges with the same bytes read the same, wherever they stand. -/
theorem readBytes_eq_readBytes {m m' : Memory} {p q n : Nat} (h : ∀ k < n, Memory.read m (p + k) = Memory.read m' (q + k)) :
    readBytes m p n = readBytes m' q n :=
  List.map_congr_left fun k hk => h k (List.mem_range.1 hk)

/-- Equal lengths and equal input bytes give the pure functions the same arguments, so the same last chaining state (R177). -/
theorem Computes.congr {d d' : Descriptor W} {m m' : Memory} {pb pb' : ParamBlock} {hN hN' : Chain} (h : Computes P d m pb hN)
    (h' : Computes P d' m' pb' hN') (hhl : d.hashlen = d'.hashlen) (hkl : d.keylen = d'.keylen)
    (hsalt : readBytes m d.saltPtr.toNat d.saltlen.toNat = readBytes m' d'.saltPtr.toNat d'.saltlen.toNat)
    (hpers : readBytes m d.persPtr.toNat d.perslen.toNat = readBytes m' d'.persPtr.toNat d'.perslen.toNat)
    (hkey : readBytes m d.keyPtr.toNat d.keylen.toNat = readBytes m' d'.keyPtr.toNat d'.keylen.toNat)
    (hdata : readBytes m d.dataPtr.toNat d.datalen.toNat = readBytes m' d'.dataPtr.toNat d'.datalen.toNat) : hN = hN' := by
  obtain ⟨hencode, hfeed⟩ := h
  rw [hhl, hkl, hsalt, hpers, h'.encode] at hencode
  cases hencode
  rw [hkey, hdata, h'.feed] at hfeed
  exact (Option.some.inj hfeed).symm

/-- Settles O55: both runs store the digest of the same chaining state (`Computes.congr`), and it reads back at either place. -/
theorem equalInputsGiveEqualDigests : Obligations.EqualInputsGiveEqualDigests := by
  unfold Obligations.EqualInputsGiveEqualDigests
  intro W P s s' hb hb' hm hm' ha ha' hr hr' hhl hdl hkl hsl hpl hdata hkey hsalt hpers
  obtain ⟨t, pb, hN, hrun, hcomp, hmem, -⟩ := invocation_of_accepted (P := P) hb ha hr
  obtain ⟨t', pb', hN', hrun', hcomp', hmem', -⟩ := invocation_of_accepted (P := P) hb' ha' hr'
  have hsame : hN = hN' := by
    refine hcomp.congr hcomp' hhl hkl ?_ ?_ ?_ ?_
    · exact hsl ▸ readBytes_eq_readBytes hsalt
    · exact hpl ▸ readBytes_eq_readBytes hpers
    · exact hkl ▸ readBytes_eq_readBytes hkey
    · exact hdl ▸ readBytes_eq_readBytes hdata
  refine ⟨t, t', hrun, hrun', fun i hi => ?_⟩
  obtain ⟨hspace, -⟩ := rangeOk_iff.1 (rangesOk_iff.1 hr).1
  obtain ⟨hspace', -⟩ := rangeOk_iff.1 (rangesOk_iff.1 hr').1
  rw [hmem, hmem', read_storeBytes_digest hm hspace hN hi, read_storeBytes_digest hm' hspace' hN' (hhl ▸ hi), hsame]

/-! The public operations. -/

/-- HASH_EX is its ten WR lines, which write the descriptor, and then START and WAIT (R84). -/
theorem exec_hashEx {s : State} (hb : s.phase.busy = false) (out hl data dl key kl salt sl pers pl : HostValue) :
    exec (.hashEx out hl data dl key kl salt sl pers pl) s =
      andThen (startInvocation { s with
        desc := ⟨.ofNat _ out, .ofNat _ hl, .ofNat _ data, .ofNat _ dl, .ofNat _ key, .ofNat _ kl, .ofNat _ salt,
          .ofNat _ sl, .ofNat _ pers, .ofNat _ pl⟩ }) (waitDone params invocationFuel) :=
  andThen_eq_of_next (writeRegisters_hashExLines hb out hl data dl key kl salt sl pers pl) rfl

/-- While busy HASH_EX is refused at its first WR line (R179, R226). -/
theorem exec_hashEx_of_busy {s : State} (hb : s.phase.busy = true) (out hl data dl key kl salt sl pers pl : HostValue) :
    exec (.hashEx out hl data dl key kl salt sl pers pl) s = .refused .descriptorWriteWhileBusy := by
  change andThen (writeRegisters (hashExLines out hl data dl key kl salt sl pers pl) s) _ = _
  rw [hashExLines, writeRegisters_of_busy hb, andThen_refused]

/-- HASH has the WR lines of HASH_EX with salt and personalization absent (R84, R172). -/
theorem exec_hash (s : State) (out hl data dl key kl : HostValue) :
    exec (.hash out hl data dl key kl) s = exec (.hashEx out hl data dl key kl 0 0 0 0) s := rfl

/-- Settles O42: after the WR lines HASH_EX is the invocation of `invocation_of_accepted`. -/
theorem hashExCompletesWithTheDigest : Obligations.HashExCompletesWithTheDigest := by
  unfold Obligations.HashExCompletesWithTheDigest
  intro s out hl data dl key kl salt sl pers pl
  refine ⟨fun d hd hb ha hranges => ?_, fun hb => exec_hashEx_of_busy hb ..⟩
  obtain ⟨t, pb, hN, hrun, hcomp, hmem, hphase, herr, -, hframe⟩ :=
    invocation_of_accepted (P := params) (s := { s with desc := d }) hb ha hranges
  refine ⟨t, _, _, ?_, hcomp.hashEx_eq ha, hmem, hphase, herr, hframe⟩
  rw [exec_hashEx hb, ← hd]
  exact hrun

/-- A range of no bytes exists wherever its pointer stands (R51). -/
theorem rangeOk_zero (s : State W) (p : BitVec W.aw) : s.rangeOk p.toNat 0 = true := by
  refine rangeOk_iff.2 ⟨p.isLt.le, List.all_eq_true.2 fun g _ => ?_⟩
  simp only [Region.meets, Bool.not_eq_true', decide_eq_false_iff_not]
  omega

/-- VALID does not read the salt's and the personalization's pointers when their lengths are zero (R173, R196). -/
theorem firstFailure_of_absent_salt (d : Descriptor W) (p q : BitVec W.aw) (hsl : d.saltlen.toNat = 0)
    (hpl : d.perslen.toNat = 0) :
    firstFailure { d with saltPtr := p, persPtr := q } = firstFailure d := by
  simp [firstFailure, absentBuffer, hsl, hpl]

/-- Nor does `hash_ex` (R172). -/
theorem hashEx_of_absent_salt (d : Descriptor W) (m : Memory) (p q : BitVec W.aw) (hsl : d.saltlen.toNat = 0)
    (hpl : d.perslen.toNat = 0) :
    hashEx P { d with saltPtr := p, persPtr := q } m = hashEx P d m := by
  simp only [hashEx, firstFailure_of_absent_salt d p q hsl hpl, hsl, hpl, readBytes_zero]

/-- Nor does the range duty (R51). -/
theorem rangesOk_of_absent_salt {d : Descriptor W} (p q : BitVec W.aw) (hsl : d.saltlen.toNat = 0)
    (hpl : d.perslen.toNat = 0)
    (hout : s.rangeOk d.outPtr.toNat d.hashlen.toNat = true) (hdata : s.rangeOk d.dataPtr.toNat d.datalen.toNat = true)
    (hkey : s.rangeOk d.keyPtr.toNat d.keylen.toNat = true) :
    State.rangesOk { s with desc := { d with saltPtr := p, persPtr := q } } = true := by
  refine rangesOk_iff.2 ⟨(rangeOk_congr rfl _ _).trans hout, ?_, ?_, (rangeOk_congr rfl _ _).trans hkey,
    (rangeOk_congr rfl _ _).trans hdata⟩
  · simp only [hsl]
    exact rangeOk_zero _ _
  · simp only [hpl]
    exact rangeOk_zero _ _

/-- Settles O43: HASH has HASH_EX's ten lines with zeros, and a HASH_EX with zero lengths does the same whatever the two pointers
are, as nothing it runs reads them. -/
theorem hashIsHashExWithoutSalt : Obligations.HashIsHashExWithoutSalt := by
  unfold Obligations.HashIsHashExWithoutSalt
  intro s out hl data dl key kl
  refine ⟨exec_hash s .., fun hb => exec_hashEx_of_busy hb .., ?_⟩
  rintro hb d hd ha hout hdata hkey
  have hsl : d.saltlen.toNat = 0 := by rw [hd]; rfl
  have hpl : d.perslen.toNat = 0 := by rw [hd]; rfl
  have run (saltPtr persPtr : HostValue) : ∃ u dg, exec (.hashEx out hl data dl key kl saltPtr 0 persPtr 0) s = .next u ∧
      u.phase = .done ∧ hashEx params d s.mem = some (.ok dg u.mem) := by
    obtain ⟨u, dg, m, hrun, hfun, -, hmem, hphase, -⟩ := invocationComputesHashEx defaultWidths params
      { s with desc := { d with saltPtr := .ofNat _ saltPtr, persPtr := .ofNat _ persPtr } } hb
      ((firstFailure_of_absent_salt d _ _ hsl hpl).trans ha) (rangesOk_of_absent_salt _ _ hsl hpl hout hdata hkey)
    refine ⟨u, dg, ?_, hphase, ?_⟩
    · rw [exec_hashEx hb, ← hrun, hd]
      rfl
    · rw [hmem]
      exact (hashEx_of_absent_salt d s.mem _ _ hsl hpl).symm.trans hfun
  obtain ⟨t, dg, hrun, hphase, hfun⟩ := run 0 0
  refine ⟨t, (exec_hash s ..).trans hrun, hphase, fun saltPtr persPtr => ?_⟩
  obtain ⟨u, dg', hrun', hphase', hfun'⟩ := run saltPtr persPtr
  obtain ⟨-, hmem⟩ := HashResult.ok.inj (Option.some.inj (hfun'.symm.trans hfun))
  exact ⟨u, hrun', hphase', hmem⟩

end Sys2Proof.Machine
end

section
/-! Host memory and who touches it (20_memory.md R50 to R62): the canonical form, broken ranges, the bytes the CORE depends on and
changes, the host's own accesses, and a reset inside BF.DIGEST (70_reset_and_hazards.md R220 to R225). -/

namespace Sys2Proof.Machine

open Sys2Proof.Config

variable {W : Widths} {P : Params} {s t : State W} {p n : Nat} {m m' : Memory}

/-! The canonical form. -/

/-- Two memories in canonical form that read the same at every address have the same entries: a first entry that only one of
them had would read as nonzero in it and as unlisted in the other. -/
theorem Memory.eq_of_read_eq (hm : Memory.wf W m = true) (hm' : Memory.wf W m' = true)
    (h : ∀ a, Memory.read m a = Memory.read m' a) : m = m' := by
  induction m generalizing m' with
  | nil =>
    cases m' with
    | nil => rfl
    | cons c' m' =>
      obtain ⟨a', b'⟩ := c'
      obtain ⟨-, hb', -, -⟩ := Memory.wf_cons.1 hm'
      have := h a'
      rw [Memory.read_cons, if_pos rfl] at this
      exact absurd this.symm hb'
  | cons c m ih =>
    obtain ⟨a, b⟩ := c
    obtain ⟨-, hb, hlt, hwf⟩ := Memory.wf_cons.1 hm
    have hread : Memory.read ((a, b) :: m) a = b := by rw [Memory.read_cons, if_pos rfl]
    cases m' with
    | nil => exact absurd (hread.symm.trans (h a)) hb
    | cons c' m' =>
      obtain ⟨a', b'⟩ := c'
      obtain ⟨-, hb', hlt', hwf'⟩ := Memory.wf_cons.1 hm'
      have hread' : Memory.read ((a', b') :: m') a' = b' := by rw [Memory.read_cons, if_pos rfl]
      have below {x y : Nat} {v : Byte} {l : Memory} (hxy : x < y) (hl : ∀ c ∈ l, y < c.1) :
          Memory.read ((y, v) :: l) x = unlistedByte :=
        Memory.read_of_below fun c hc => by
          rcases List.mem_cons.1 hc with rfl | hc
          · exact hxy
          · exact hxy.trans (hl c hc)
      obtain hlow | rfl | hhigh := Nat.lt_trichotomy a a'
      · exact absurd (hread.symm.trans ((h a).trans (below hlow hlt'))) hb
      · have hbyte : b = b' := hread.symm.trans ((h a).trans hread')
        have htail : m = m' := ih hwf hwf' fun x => by
          by_cases hx : x = a
          · rw [hx, Memory.read_of_below hlt, Memory.read_of_below hlt']
          · simpa only [Memory.read_cons, if_neg hx] using h x
        rw [hbyte, htail]
      · exact absurd (hread'.symm.trans ((h a').symm.trans (below hhigh hlt))) hb'

/-- Settles O47: the laws of one store, and `Memory.eq_of_read_eq`. -/
theorem memoryReadsBackWhatWasStored : Obligations.MemoryReadsBackWhatWasStored := by
  unfold Obligations.MemoryReadsBackWhatWasStored
  intro W
  refine ⟨fun m a v hm ha => ⟨Memory.read_write_same hm a v, fun x hx => Memory.read_write_other hx m v,
    Memory.wf_write hm ha v⟩, fun m m' => Memory.eq_of_read_eq⟩

/-! Broken ranges. -/

/-- Within its contract each micro-operation that accesses host memory does so through the range duty of its range (R59). -/
theorem coreStep_eq_withRange (ha : firstFailure s.desc = none) (htail : s.taillen.toNat ≤ 64)
    (h : (s.phase = .pbSalt ∧ p = s.desc.saltPtr.toNat ∧ n = s.desc.saltlen.toNat) ∨
      (s.phase = .pbPers ∧ p = s.desc.persPtr.toNat ∧ n = s.desc.perslen.toNat) ∨
      (s.phase = .bfKeyld ∧ p = s.desc.keyPtr.toNat ∧ n = s.desc.keylen.toNat) ∨
      (s.phase = .bfTailld ∧ p = s.desc.dataPtr.toNat + s.span.toNat ∧ n = s.taillen.toNat) ∨
      (s.phase = .bfIntcmp ∧ p = s.desc.dataPtr.toNat ∧ n = 64 * s.nint.toNat) ∨
      (s.phase = .bfDigest ∧ p = s.desc.outPtr.toNat ∧ n = s.desc.hashlen.toNat)) :
    ∃ k, coreStep P s = withRange s p n k := by
  obtain ⟨-, h32, hk, hsl, hpl, -⟩ := accepted_bounds ha
  obtain ⟨hp, rfl, rfl⟩ | ⟨hp, rfl, rfl⟩ | ⟨hp, rfl, rfl⟩ | ⟨hp, rfl, rfl⟩ | ⟨hp, rfl, rfl⟩ | ⟨hp, rfl, rfl⟩ := h
  · exact ⟨_, (coreStep_pbSalt hp).trans (if_pos hsl)⟩
  · exact ⟨_, (coreStep_pbPers hp).trans (if_pos hpl)⟩
  · exact ⟨_, (coreStep_bfKeyld hp).trans (if_pos hk)⟩
  · exact ⟨_, (coreStep_bfTailld hp).trans (if_pos htail)⟩
  · exact ⟨_, coreStep_bfIntcmp hp⟩
  · exact ⟨_, (coreStep_bfDigest hp).trans (if_pos h32)⟩

/-- Settles O48: the range duty decides before anything is accessed, whichever micro-operation it is. -/
theorem brokenRangeDutyGivesNoStep : Obligations.BrokenRangeDutyGivesNoStep := by
  unfold Obligations.BrokenRangeDutyGivesNoStep
  intro W P s p n ha htail h
  obtain ⟨k, hk⟩ := coreStep_eq_withRange (P := P) ha htail h
  rw [hk]
  refine ⟨fun hwrap => withRange_of_wraps hwrap k, fun hspace hbyte => ?_⟩
  obtain ⟨g, hg, a, hpa, han, hga, hag⟩ := hbyte
  exact withRange_of_absent hspace hg ⟨hpa, han⟩ ⟨hga, hag⟩ k

/-! The bytes the CORE depends on and changes. -/

/-- Memories that agree on the addresses of a range give the same bytes there. -/
theorem readBytes_eq_of_addresses (h : ∀ a ∈ addressesFrom p n, Memory.read m a = Memory.read m' a) :
    readBytes m p n = readBytes m' p n :=
  readBytes_congr fun _ hk => h _ (List.mem_map_of_mem (List.mem_range.2 hk))

/-- The interior loop depends on memory only through the bytes of its blocks (R127). -/
theorem compressInterior_withMemory (h : ∀ a ∈ addressesFrom p (64 * n), Memory.read m a = Memory.read s.mem a) :
    compressInterior P p n { s with mem := m } = { compressInterior P p n s with mem := m } := by
  have hbytes : ∀ k < 64 * n, Memory.read m (p + k) = Memory.read s.mem (p + k) := fun k hk =>
    h _ (List.mem_map_of_mem (List.mem_range.2 hk))
  clear h
  induction n with
  | zero => rfl
  | succ n ih =>
    have hblock : readBytes m (p + 64 * n) 64 = readBytes s.mem (p + 64 * n) 64 := readBytes_congr fun k hk => by
      rw [Nat.add_assoc]
      exact hbytes _ (by omega)
    simp only [compressInterior, blockBytes_eq, ih fun k hk => hbytes k (by omega), hblock]
    rfl

/-- With another memory that agrees on the bytes read, the CORE's step answers the same but for memory (R51). -/
theorem CoreStep.withMemory (hst : CoreStep P s t) (h : ∀ a ∈ coreReads s, Memory.read m a = Memory.read s.mem a) :
    ∃ u, CoreStep P { s with mem := m } u ∧ { u with mem := t.mem } = t := by
  cases hst with
  | rest hb => exact ⟨_, .rest hb, rfl⟩
  | reject hp hk => exact ⟨_, .reject hp hk, rfl⟩
  | accept hp ha => exact ⟨_, .accept hp ha, rfl⟩
  | pbZero hp => exact ⟨_, .pbZero hp, rfl⟩
  | pbHdr hp hr => exact ⟨_, .pbHdr hp hr, rfl⟩
  | pbSalt hp hr =>
    simp only [coreReads, hp] at h
    refine ⟨_, .pbSalt hp ⟨hr.1, (rangeOk_congr rfl _ _).trans hr.2⟩, ?_⟩
    rw [readBytes_eq_of_addresses h]
  | pbPers hp hr =>
    simp only [coreReads, hp] at h
    refine ⟨_, .pbPers hp ⟨hr.1, (rangeOk_congr rfl _ _).trans hr.2⟩, ?_⟩
    rw [readBytes_eq_of_addresses h]
  | siXoriv hp => exact ⟨_, .siXoriv hp, rfl⟩
  | siClrtf hp => exact ⟨_, .siClrtf hp, rfl⟩
  | bfKeyld hp hr =>
    simp only [coreReads, hp] at h
    refine ⟨_, .bfKeyld hp ⟨hr.1, (rangeOk_congr rfl _ _).trans hr.2⟩, ?_⟩
    rw [readBytes_eq_of_addresses h]
  | bfKeyfin hp => exact ⟨_, .bfKeyfin hp, rfl⟩
  | bfKeycmp hp => exact ⟨_, .bfKeycmp hp, rfl⟩
  | bfWipe hp => exact ⟨_, .bfWipe hp, rfl⟩
  | bfSplit hp hr => exact ⟨_, .bfSplit hp hr, rfl⟩
  | bfTailld hp hr =>
    simp only [coreReads, hp] at h
    refine ⟨_, .bfTailld hp ⟨hr.1, (rangeOk_congr rfl _ _).trans hr.2⟩, ?_⟩
    rw [readBytes_eq_of_addresses h]
  | bfIntcmp hp hr =>
    simp only [coreReads, hp] at h
    refine ⟨_, .bfIntcmp hp ((rangeOk_congr rfl _ _).trans hr), ?_⟩
    simp only [compressInterior_withMemory h]
  | bfSetfin hp => exact ⟨_, .bfSetfin hp, rfl⟩
  | bfTailcmp hp => exact ⟨_, .bfTailcmp hp, rfl⟩
  | bfDigest hp hr => exact ⟨_, .bfDigest hp ⟨hr.1, (rangeOk_congr rfl _ _).trans hr.2⟩, rfl⟩

/-- An address outside a range of addresses stands before it or after it. -/
theorem outside_of_not_mem_addressesFrom {a : Nat} (h : a ∉ addressesFrom p n) : a < p ∨ p + n ≤ a := by
  by_contra hin
  exact h (List.mem_map.2 ⟨a - p, List.mem_range.2 (by omega), by omega⟩)

/-- The CORE changes no byte but those of the addresses it writes (R51, R60). -/
theorem CoreStep.read_mem_eq (hst : CoreStep P s t) {a : Nat} (ha : a ∉ coreWrites s) :
    Memory.read t.mem a = Memory.read s.mem a := by
  by_cases hp : s.phase = .bfDigest
  · have htmem := (execBfDigest_eq_next.1 ((coreStep_bfDigest hp).symm.trans (coreStep_eq_next.2 hst))).2
    simp only [coreWrites, hp] at ha
    rw [htmem]
    exact read_storeBytes_digest_outside s.h (outside_of_not_mem_addressesFrom ha)
  · rw [hst.mem_eq rfl hp]

/-- Settles O49: `CoreStep.withMemory` for what the step depends on, `CoreStep.read_mem_eq` for what it changes. -/
theorem coreTouchesOnlyItsRanges : Obligations.CoreTouchesOnlyItsRanges := by
  unfold Obligations.CoreTouchesOnlyItsRanges
  intro W P s t m hstep hreads
  have hst := coreStep_eq_next.1 hstep
  obtain ⟨u, hu, hut⟩ := hst.withMemory hreads
  exact ⟨⟨u, coreStep_eq_next.2 hu, hut⟩, fun a => hst.read_mem_eq⟩

/-! Reset. -/

/-- A reset inside BF.DIGEST leaves each byte of the output range old or written and every other byte as it was (R222, U11). -/
theorem read_memoryAfterReset (hp : s.phase = .bfDigest) (hm : Memory.wf W s.mem = true) (h32 : s.desc.hashlen.toNat ≤ 32)
    (hout : s.rangeOk s.desc.outPtr.toNat s.desc.hashlen.toNat = true) (a : Nat) :
    Memory.read (memoryAfterReset s) a = Memory.read s.mem a ∨
      ∃ i < s.desc.hashlen.toNat, a = s.desc.outPtr.toNat + i ∧ Memory.read (memoryAfterReset s) a = byteAt s.h i := by
  obtain ⟨hspace, -⟩ := rangeOk_iff.1 hout
  rw [memoryAfterReset, if_pos ⟨hp, h32, hout⟩]
  obtain h | ⟨i, hi, ha, h⟩ := read_storeMasked hm (freeDigestMask s.freeCount) (k := 0)
    (bs := digest s.h s.desc.hashlen.toNat) (by rwa [digest_length]) a
  · exact .inl h
  · exact .inr ⟨i, by rwa [digest_length] at hi, ha, h.trans (digest_getElem ..)⟩

/-- Settles O46: `read_memoryAfterReset` at an address inside and outside the output range. -/
theorem resetInsideDigestLeavesAMixture : Obligations.ResetInsideDigestLeavesAMixture := by
  unfold Obligations.ResetInsideDigestLeavesAMixture
  intro s rest hscript hp hm h32 hout
  have mixture := read_memoryAfterReset (s := { s with script := rest }) hp hm h32 ((rangeOk_congr rfl _ _).trans hout)
  refine ⟨_, step_of_script hscript, fun i hi => ?_, fun a ha => ?_⟩
  · obtain h | ⟨j, -, haddr, h⟩ := mixture (s.desc.outPtr.toNat + i)
    · exact .inl h
    · obtain rfl := Nat.add_left_cancel haddr
      exact .inr h
  · obtain h | ⟨j, hj, haddr, -⟩ := mixture a
    · exact h
    · simp only at hj haddr
      omega

/-- After a reset every descriptor register reads as 0 (R36). -/
theorem read_reset_desc {r : BitVec 4} (hr : r.toNat ≤ 9) : (State.resetAt W).desc.read r = some 0 := by
  have hvalues : (State.resetAt W).desc.values = List.replicate 10 0 := by
    simp [Descriptor.values, State.resetAt, List.replicate]
  rw [read_eq_getElem?, hvalues, List.getElem?_replicate, if_pos (by omega)]

/-- Settles O45: what `resetEvent` writes, field by field. -/
theorem resetLeavesTheSpecifiedState : Obligations.ResetLeavesTheSpecifiedState := by
  unfold Obligations.ResetLeavesTheSpecifiedState
  intro s rest hscript
  refine ⟨_, step_of_script hscript, rfl, rfl, fun i => zeroBlock_getElem i i.isLt, fun r hr => read_reset_desc hr,
    fun hp => ?_, rfl, rfl⟩
  exact if_neg fun h => hp h.1

/-! The host's own accesses. -/

theorem inRange_eq_true {a : Nat} {r : Nat × Nat} : inRange a r = true ↔ r.1 ≤ a ∧ a < r.1 + r.2 := by
  simp [inRange]

/-- An address before or past each of some ranges lies in none of them. -/
theorem any_inRange_eq_false {rs : List (Nat × Nat)} {a : Nat} (h : ∀ r ∈ rs, a < r.1 ∨ r.1 + r.2 ≤ a) :
    rs.any (inRange a) = false := by
  rw [List.any_eq_false]
  intro r hr hin
  have := inRange_eq_true.1 hin
  have := h r hr
  omega

section
variable {a : Nat} (v : Byte) (ha : a < 2 ^ W.aw)
include ha

/-- While busy a store into a declared range is refused (R62, R225). -/
theorem hostStore_of_owned (hb : s.phase.busy = true)
    (hin : (s.desc.outputRange :: s.desc.inputRanges).any (inRange a) = true) :
    hostStore a v s = .refused .ownedRangeTouched := by
  rw [hostStore, if_neg (by omega), if_pos (by rw [hb, hin]; rfl)]

/-- A store that is not refused completes where the byte exists and is stuck where it does not (R59). -/
theorem hostStore_of_free
    (hfree : s.phase.busy = false ∨ (s.desc.outputRange :: s.desc.inputRanges).any (inRange a) = false) :
    hostStore a v s =
      if s.rangeExists a 1 then .next { s with mem := Memory.write s.mem a v } else .fault .accessOutsideMemory := by
  have hfree := Bool.and_eq_false_iff.2 hfree
  rw [hostStore, if_neg (by omega), hfree, if_neg Bool.false_ne_true]

/-- While busy a load from the output range is refused (R62, R225). -/
theorem hostLoad_of_owned (hb : s.phase.busy = true) (hin : inRange a s.desc.outputRange = true) :
    hostLoad a s = .refused .ownedRangeTouched := by
  rw [hostLoad, if_neg (by omega), if_pos (by rw [hb, hin]; rfl)]

/-- A load that is not refused completes where the byte exists and is stuck where it does not (R59). -/
theorem hostLoad_of_free (hfree : s.phase.busy = false ∨ inRange a s.desc.outputRange = false) :
    hostLoad a s =
      if s.rangeExists a 1 then .next { s with hostRead := (Memory.read s.mem a).toNat } else .fault .accessOutsideMemory := by
  have hfree := Bool.and_eq_false_iff.2 hfree
  rw [hostLoad, if_neg (by omega), hfree, if_neg Bool.false_ne_true]

end

/-- Settles O44: an access is refused when the CORE is busy and the address lies in a range it owns; otherwise only the platform's
map decides. -/
theorem hostLeavesTheDeclaredRangesAlone : Obligations.HostLeavesTheDeclaredRangesAlone := by
  unfold Obligations.HostLeavesTheDeclaredRangesAlone
  intro W s a v
  refine ⟨fun ha => ⟨fun hb hin => ?_, fun hb hlo hhi => ?_, fun hfree => ?_, fun hfree => ?_⟩, fun hout => ⟨?_, ?_⟩⟩
  · obtain ⟨r, hr, hin⟩ := hin
    exact hostStore_of_owned v ha hb (List.any_eq_true.2 ⟨r, hr, inRange_eq_true.2 hin⟩)
  · exact hostLoad_of_owned ha hb (inRange_eq_true.2 ⟨hlo, hhi⟩)
  · rw [hostStore_of_free v ha (hfree.imp_right any_inRange_eq_false)]
    exact ⟨fun hbyte => if_pos hbyte, fun hbyte => if_neg (Bool.eq_false_iff.1 hbyte)⟩
  · have hout (h : a < s.desc.outPtr.toNat ∨ s.desc.outPtr.toNat + s.desc.hashlen.toNat ≤ a) :
        inRange a s.desc.outputRange = false :=
      Bool.eq_false_iff.2 fun hin => by
        obtain ⟨hlo, hhi⟩ := inRange_eq_true.1 hin
        simp only [Descriptor.outputRange] at hlo hhi
        omega
    rw [hostLoad_of_free ha (hfree.imp_right hout)]
    exact ⟨fun hbyte => if_pos hbyte, fun hbyte => if_neg (Bool.eq_false_iff.1 hbyte)⟩
  · exact if_pos hout
  · exact if_pos hout

/-! The registers read back. -/

/-- A read of a register that does not decode is answered by the read-back (R34, R37). -/
theorem step_read_of_error {s : State} {r : BitVec 4} {rest : List HostMove} {e : DecodeError}
    (hscript : s.script = .read r :: rest) (he : decode (.regRead r) = .error e) : step s = readBack r { s with script := rest } := by
  rw [step_of_script hscript]
  simp only [hostStep, he]

/-- Registers 10 and above are not the descriptor's. -/
theorem readBack_of_no_register {r : BitVec 4} (hr : 10 ≤ r.toNat) :
    readBack r s =
      if r.toNat = 10 then .next { s with hostRead := 0 }
      else if r.toNat = 11 then .next (pollStatus s)
      else .refused (.noSuchRegister r) := by
  have hnone : s.desc.read r = none := by
    rw [read_eq_getElem?]
    exact List.getElem?_eq_none hr
  rw [readBack, hnone]

/-- Settles O40: reads of registers 0 to 10 and of 12 and above do not decode, and the read-back answers them by number. -/
theorem readBackOfTheOtherRegisters : Obligations.ReadBackOfTheOtherRegisters := by
  unfold Obligations.ReadBackOfTheOtherRegisters
  intro s r rest hscript
  obtain ⟨-, -, -, -, -, hplain, hnone, -⟩ := registerPortDecodes
  refine ⟨fun hr => ?_, fun hr => ?_, fun hr => ?_⟩
  · obtain ⟨v, hread⟩ : ∃ v, s.desc.read r = some v :=
      ⟨_, (read_eq_getElem? s.desc r).trans (List.getElem?_eq_getElem (Nat.lt_succ_of_le hr))⟩
    refine ⟨v, hread, ?_⟩
    rw [step_read_of_error hscript (hplain r (by omega)), readBack]
    simp only [hread]
  · rw [step_read_of_error hscript (hplain r (by omega)), readBack_of_no_register (by omega), if_pos hr]
  · rw [step_read_of_error hscript (hnone r 0 hr).2, readBack_of_no_register (by omega), if_neg (by omega), if_neg (by omega)]

end Sys2Proof.Machine
end

section
/-! The feeder and the compressor (42_block_feeder.md R121 to R135, 43_compressor_port.md R152): BF.SPLIT in closed form, the list
of calls of an invocation, and the operations that load, compress and wipe the buffer. -/

namespace Sys2Proof.Machine

open Sys2Proof.Config

variable {W : Widths}

/-! The split. -/

theorem exec_bfSplit (s : State) : exec .bfSplit s = execBfSplit s := rfl

theorem execBfSplit_of_no_message {s : State W} (hlen : s.desc.datalen.toNat = 0) :
    execBfSplit s = .refused .feederOutsideContract :=
  if_pos hlen

/-- Settles O29: the registers are those of `split_toNat`, from which the closed forms follow. -/
theorem bfSplitDefersTheLastBlock : Obligations.BfSplitDefersTheLastBlock := by
  unfold Obligations.BfSplitDefersTheLastBlock
  refine ⟨Laws.RoundTrip.bfSplit rfl, fun s hlen => ?_, fun W s hlen => ?_, fun s hlen => execBfSplit_of_no_message hlen⟩
  · have hrun := execBfSplit_eq_next.2 ⟨Nat.ne_of_gt hlen, rfl⟩
    exact ⟨_, (exec_bfSplit s).trans hrun, hrun⟩
  · obtain ⟨hnint, hspan, htail⟩ := split_toNat (x := s.desc.datalen) (by omega)
    refine ⟨_, execBfSplit_eq_next.2 ⟨Nat.ne_of_gt hlen, rfl⟩, hnint, ?_, ?_, ?_, ?_, ?_, ?_, rfl⟩
    · rw [hspan, hnint, Nat.mul_comm]
    · rw [hspan, htail]
      omega
    · rw [htail]
      omega
    · rw [htail]
      omega
    · rw [htail]
      omega
    · rw [hnint]
      omega

/-! The list of calls. -/

section
variable (key msg : List Byte)

/-- The key step makes one call of increment 64 when there is a key (R131). -/
theorem keyCalls_inc : (keyCalls key msg).map Call.inc = if 0 < key.length then [64] else [] := by
  cases key with
  | nil => rfl
  | cons b key => rfl

/-- With a message the key's call does not carry the flag (R133). -/
theorem keyCalls_f0 {msg : List Byte} (hmsg : msg ≠ []) : ∀ c ∈ keyCalls key msg, c.f0 = 0#32 := by
  simp [keyCalls, hmsg]

/-- The message step's increments: 64 for each interior block, then the tail's length (R131). -/
theorem messageCalls_inc {msg : List Byte} (hmsg : msg ≠ []) :
    (messageCalls msg).map Call.inc =
      List.replicate (interiorCount msg) 64 ++ [msg.length - 64 * interiorCount msg] := by
  rw [messageCalls, if_neg (by simpa using hmsg), List.map_append, List.map_map]
  exact congrArg (· ++ _) (List.eq_replicate_iff.2 ⟨by simp, by simp⟩)

/-- Of the message step's calls the last alone carries the flag (R133). -/
theorem messageCalls_eq_append {msg : List Byte} (hmsg : msg ≠ []) :
    ∃ front last, messageCalls msg = front ++ [last] ∧ last.f0 = allOnes ∧ ∀ c ∈ front, c.f0 = 0#32 := by
  refine ⟨_, _, if_neg (by simpa using hmsg), rfl, ?_⟩
  simp

end

/-- Exactly the last call carries the flag: the tail's, or the key's when there is no message (R133). -/
theorem feedCalls_eq_append {key msg : List Byte} (h : 0 < key.length + msg.length) :
    ∃ front last, feedCalls key msg = front ++ [last] ∧ last.f0 = allOnes ∧ ∀ c ∈ front, c.f0 = 0#32 := by
  by_cases hmsg : msg = []
  · subst hmsg
    obtain ⟨b, key, rfl⟩ := List.exists_cons_of_length_pos (by simpa using h)
    exact ⟨[], _, rfl, rfl, by simp⟩
  · obtain ⟨front, last, hcalls, hlast, hfront⟩ := messageCalls_eq_append hmsg
    refine ⟨keyCalls key msg ++ front, last, by rw [feedCalls, hcalls, List.append_assoc], hlast, fun c hc => ?_⟩
    rcases List.mem_append.1 hc with hc | hc
    · exact keyCalls_f0 key hmsg c hc
    · exact hfront c hc

/-- The increments of the message step number `ceil(len / 64)`, add up to the length, and lie in 1 to 64 (R132, R135). -/
theorem messageCalls_inc_facts (msg : List Byte) :
    (messageCalls msg).length = (msg.length + 63) / 64 ∧ ((messageCalls msg).map Call.inc).sum = msg.length ∧
      ∀ n ∈ (messageCalls msg).map Call.inc, 1 ≤ n ∧ n ≤ 64 := by
  by_cases hmsg : msg = []
  · subst hmsg
    exact ⟨rfl, rfl, by simp [messageCalls]⟩
  · obtain ⟨hlo, hhi⟩ := interiorCount_bounds hmsg
    rw [← List.length_map Call.inc, messageCalls_inc hmsg]
    refine ⟨?_, ?_, fun n hn => ?_⟩
    · simp only [List.length_append, List.length_replicate, List.length_singleton]
      omega
    · simp only [List.sum_append, List.sum_replicate, List.sum_singleton, smul_eq_mul]
      omega
    · rcases List.mem_append.1 hn with hn | hn
      · rw [List.eq_of_mem_replicate hn]
        decide
      · rw [List.mem_singleton.1 hn]
        omega

/-- Settles O35: the flag from `feedCalls_eq_append`, the increments step by step. -/
theorem flagOnTheLastCallOnly : Obligations.FlagOnTheLastCallOnly := by
  unfold Obligations.FlagOnTheLastCallOnly
  intro key msg h
  obtain ⟨hlength, hsum, hbounds⟩ := messageCalls_inc_facts msg
  have hinc : (feedCalls key msg).map Call.inc = (if 0 < key.length then [64] else []) ++ (messageCalls msg).map Call.inc := by
    rw [feedCalls, List.map_append, keyCalls_inc]
  refine ⟨feedCalls_eq_append h, ?_, ?_, fun c hc => ?_⟩
  · rw [← List.length_map Call.inc, hinc, List.length_append, List.length_map, hlength]
    split <;> rfl
  · rw [hinc, List.sum_append, hsum]
    split <;> rfl
  · have hmem := List.mem_map_of_mem (f := Call.inc) hc
    rw [hinc] at hmem
    rcases List.mem_append.1 hmem with hn | hn
    · split at hn
      · rw [List.mem_singleton.1 hn]
        decide
      · cases hn
    · exact hbounds _ hn

/-! The buffer. -/

theorem exec_bfKeyld {s : State} (h32 : s.desc.keylen.toNat ≤ 32)
    (hok : s.rangeOk s.desc.keyPtr.toNat s.desc.keylen.toNat = true) :
    exec .bfKeyld s = .next { s with
      buf := pad64 (readBytes s.mem s.desc.keyPtr.toNat s.desc.keylen.toNat), phase := .bfKeyfin } :=
  execBfKeyld_eq_next.2 ⟨⟨h32, hok⟩, rfl⟩

theorem exec_bfKeycmp (s : State) : exec .bfKeycmp s = bfKeycmp params s := rfl

theorem exec_bfWipe (s : State) : exec .bfWipe s = .next { s with buf := zeroBlock, phase := wipeExit s.desc } := rfl

theorem exec_bfTailcmp (s : State) : exec .bfTailcmp s = bfTailcmp params s := rfl

/-- Settles O23: the run is `exec_bfKeyld`, its buffer byte by byte `pad64_readBytes_getElem`. -/
theorem bfKeyldLoadsThePaddedKey : Obligations.BfKeyldLoadsThePaddedKey := by
  unfold Obligations.BfKeyldLoadsThePaddedKey
  refine ⟨Laws.RoundTrip.bfKeyld rfl, fun s h32 hok => ⟨_, exec_bfKeyld h32 hok, fun i => ?_, rfl⟩⟩
  exact pad64_readBytes_getElem s.mem _ _ i i.isLt

/-- The counter as a number: both halves (R22). -/
theorem counter_toNat (s : State W) : s.counter.toNat = s.t1.toNat * 2 ^ 32 + s.t0.toNat := by
  rw [State.counter, BitVec.toNat_append, ← Nat.shiftLeft_add_eq_or_of_lt s.t0.isLt, Nat.shiftLeft_eq]

/-- Settles O25: the counter modulo 2^64 over both halves, and what `compress1` writes. -/
theorem compressAdvancesTheCounterFirst : Obligations.CompressAdvancesTheCounterFirst := by
  unfold Obligations.CompressAdvancesTheCounterFirst
  intro W P blk inc s _ _
  refine ⟨?_, ?_, rfl⟩
  · rw [← counter_toNat s]
    exact compress1_counter_toNat P blk (Nat.mod_eq_of_lt s.counter.isLt).symm
  · rw [compress1_counter, compress1_h]

/-- Settles O26: BF.KEYCMP is `compress1` of the buffer with increment 64. -/
theorem bfKeycmpCompressesTheKeyBlock : Obligations.BfKeycmpCompressesTheKeyBlock := by
  unfold Obligations.BfKeycmpCompressesTheKeyBlock
  refine ⟨Laws.RoundTrip.bfKeycmp rfl, fun s => ?_, fun W P s => ?_⟩
  · have hrun := bfKeycmp_eq_next (P := params) (s := s) |>.2 rfl
    exact ⟨_, (exec_bfKeycmp s).trans hrun, hrun⟩
  · exact ⟨_, bfKeycmp_eq_next.2 rfl, (counter_congr rfl rfl).trans (compress1_counter P s.buf 64 s),
      compress1_h P s.buf 64 s, rfl⟩

/-- Settles O33: BF.TAILCMP is `compress1` of the buffer with increment TAILLEN. -/
theorem bfTailcmpCompressesTheTail : Obligations.BfTailcmpCompressesTheTail := by
  unfold Obligations.BfTailcmpCompressesTheTail
  refine ⟨Laws.RoundTrip.bfTailcmp rfl, fun s => ?_, fun W P s => ?_⟩
  · have hrun := bfTailcmp_eq_next (P := params) (s := s) |>.2 rfl
    exact ⟨_, (exec_bfTailcmp s).trans hrun, hrun⟩
  · rw [show s.taillen.setWidth 64 = BitVec.ofNat 64 s.taillen.toNat from BitVec.ofNat_toNat .. |>.symm]
    exact ⟨_, bfTailcmp_eq_next.2 rfl, (counter_congr rfl rfl).trans (compress1_counter P s.buf s.taillen.toNat s),
      compress1_h P s.buf s.taillen.toNat s, rfl⟩

/-- Settles O27: the run is `exec_bfWipe`, and `wipeExit` branches on DATALEN. -/
theorem bfWipeClearsTheBuffer : Obligations.BfWipeClearsTheBuffer := by
  unfold Obligations.BfWipeClearsTheBuffer
  refine ⟨Laws.RoundTrip.bfWipe rfl, fun s => ⟨_, exec_bfWipe s, fun i => ?_, fun hlen => ?_, fun hlen => ?_, rfl⟩⟩
  · exact zeroBlock_getElem i i.isLt
  · exact wipeExit_of_message hlen
  · exact wipeExit_of_no_message hlen

/-- Settles O28: BF.KEYCMP leads to BF.WIPE, whatever the descriptor. -/
theorem keyIsWipedRightAfterItsCompression : Obligations.KeyIsWipedRightAfterItsCompression := by
  unfold Obligations.KeyIsWipedRightAfterItsCompression
  intro W P s hp
  refine ⟨_, _, coreStep_eq_next.2 (.bfKeycmp hp), coreStep_eq_next.2 (.bfWipe rfl), rfl, fun i => ?_⟩
  exact zeroBlock_getElem i i.isLt

end Sys2Proof.Machine
end

section
/-! Steps (00_scope.md R6, 30_encoding.md R80, R83), the encoder's refusals (40_param_block_encoder.md R97), and the initial state
as a function of the block (41_state_initializer.md R114). -/

namespace Sys2Proof.Machine

open Sys2Proof.Config

variable {W : Widths}

/-! Steps. -/

/-- The CORE's turn runs the instruction PHASE selects (R30, R80). -/
theorem sequencerStep_eq_exec {s : State} {i : Instr} (h : decode (.seq s.phase.selector) = .ok i) :
    sequencerStep s = exec i s :=
  (sequencerStep_eq s).trans (exec_selected h).symm

theorem runCode_of_ok {c : Code} {s : State} {i : Instr} (h : decode c = .ok i) : runCode c s = exec i s := by
  simp only [runCode, h]

theorem runCode_of_error {c : Code} {s : State} {e : DecodeError} (h : decode c = .error e) :
    runCode c s = .refused (.undecodable e) := by
  simp only [runCode, h]

/-- Settles O5: with no move pending and on the move `core` the step is `sequencerStep`. -/
theorem stepRunsTheSelectedMicroOperation : Obligations.StepRunsTheSelectedMicroOperation := by
  unfold Obligations.StepRunsTheSelectedMicroOperation
  intro s i hi
  refine ⟨fun hscript => ?_, fun rest hscript => ?_⟩
  · rw [step_of_no_script hscript, exec_selected hi]
  · exact (step_of_script hscript).trans (sequencerStep_eq_exec hi)

/-- Settles O6: each host line is `runCode` of its code on the state without it; a read that decodes runs the same way. -/
theorem stepRunsTheHostLine : Obligations.StepRunsTheHostLine := by
  unfold Obligations.StepRunsTheHostLine
  intro s rest r v c ops i e
  refine ⟨fun hscript h => ?_, fun hscript h => ?_, fun hscript h => ?_, fun hscript h => ?_, fun hscript h => ?_⟩
  · exact (step_of_script hscript).trans (runCode_of_ok h)
  · exact (step_of_script hscript).trans (runCode_of_error h)
  · exact (step_of_script hscript).trans (runCode_of_ok h)
  · exact (step_of_script hscript).trans (runCode_of_error h)
  · rw [step_of_script hscript]
    simp only [hostStep, h]

/-- Settles O7: `hostStep_wait`, which puts WAIT back while the CORE is busy. -/
theorem waitRunsTheCoreUntilNotBusy : Obligations.WaitRunsTheCoreUntilNotBusy := by
  unfold Obligations.WaitRunsTheCoreUntilNotBusy
  intro s rest i hscript hi
  refine ⟨fun hb => ?_, fun hb => ?_⟩
  · rw [step_of_script hscript, hostStep_wait, if_neg (Bool.eq_false_iff.1 hb)]
    rfl
  · have hback : pollStatus { s with script := .wait :: rest } = { s with hostRead := s.status.toNat } := by
      rw [← hscript]
      rfl
    rw [step_of_script hscript, hostStep_wait, if_pos hb, hback]
    exact (exec_selected (s := { s with hostRead := s.status.toNat }) hi).symm

/-- Settles O8: the three instructions' meanings are the state itself. -/
theorem noStepMeansNothingChanges : Obligations.NoStepMeansNothingChanges := by
  unfold Obligations.NoStepMeansNothingChanges
  exact fun s => ⟨rfl, rfl, rfl⟩

/-! The encoder outside its ranges. -/

/-- VALID goes on to PB.ZERO with an accepted descriptor only (R90, R173). -/
theorem accepted_of_valid_pbZero {s t : State W} (h : execValid s = .next t) (hp : t.phase = .pbZero) :
    firstFailure s.desc = none := by
  obtain ⟨k, -, rfl⟩ | ⟨ha, -⟩ := execValid_eq_next.1 h
  · cases hp
  · exact ha

/-- Settles O18: each check of the contract fails in turn; VALID checks the same bounds (`accepted_bounds`). -/
theorem encoderRefusedOutsideItsRanges : Obligations.EncoderRefusedOutsideItsRanges := by
  unfold Obligations.EncoderRefusedOutsideItsRanges
  refine ⟨fun s => ⟨fun hout => ?_, fun hsl => ?_, fun hpl => ?_, fun t hstep hp => ?_⟩, fun hl kl salt pers hout => ?_⟩
  · exact if_neg (by simp only [outMax_eq, keyMax_eq]; omega)
  · exact if_neg (by simp only [saltMax_eq]; omega)
  · exact if_neg (by simp only [persMax_eq]; omega)
  · obtain ⟨h1, h32, hk, hsl, hpl, -⟩ := accepted_bounds (accepted_of_valid_pbZero hstep hp)
    exact ⟨h1, h32, hk, hsl, hpl⟩
  · exact if_neg (by simp only [outMax_eq, keyMax_eq, saltMax_eq, persMax_eq]; omega)

/-! The initial state. -/

/-- XOR with `IV` loses nothing. -/
theorem xorIv_injective {P : Params} {g h : Chain} (e : xorIv P g = xorIv P h) : g = h := by
  ext1 i hi
  have hword : (xorIv P g)[(⟨i, hi⟩ : Fin 8)] = (xorIv P h)[(⟨i, hi⟩ : Fin 8)] := by rw [e]
  rw [getElem_xorIv, getElem_xorIv] at hword
  exact (BitVec.xor_left_inj _).1 hword

/-- Settles O22: `h` is the block's words XORed with `IV`, and the words determine the block. -/
theorem initialStateDeterminesTheBlock : Obligations.InitialStateDeterminesTheBlock := by
  unfold Obligations.InitialStateDeterminesTheBlock
  exact fun P a b h => blockWords_injective (xorIv_injective h)

end Sys2Proof.Machine
end
